-- ==== Sys2Proof/Word.lean ====
section
/-! DEFINITION. The machine's word types (spec 00_scope R8, R11). -/

namespace Sys2Proof

/-- A `u32`: a register, an address, an instruction word (R8, R11). -/
abbrev Word := BitVec 32

/-- One byte of memory (R37). -/
abbrev Byte := BitVec 8

/-- A general register number: `k` names `r<k>` (R20, R69). -/
abbrev Reg := Fin 8

/-- r7, the stack pointer the hardware uses implicitly (R21). -/
abbrev Reg.sp : Reg := 7

end Sys2Proof
end

