-- ==== Sys2Proof/Syntax.lean ====
section
/-! DEFINITION. The instructions: one constructor per row of spec/opcode_table.json. Immediates and offsets
are carried sign-extended to 32 bits, as the spec's decoder gives them (30_encoding R70, R72). -/

namespace Sys2Proof

/-- The 15 conditions (R71, R115), in code order 0000 to 1110. -/
inductive Cond where
  | always | n | nn | c | nc | v | nv | z | nz | ule | ugt | slt | sle | sge | sgt
  deriving DecidableEq, Repr

/-- A second operand or an absolute target: `x[SRC2]`, or the sign-extended 20-bit immediate (R61, R66, R72). -/
inductive Src2 where
  | reg (r : Reg)
  | imm (v : Word)
  deriving DecidableEq, Repr

/-- The address of a load or store (R64, R108): the offset alone, or base register plus offset. -/
inductive Addr where
  | abs (off : Word)
  | base (adr : Reg) (off : Word)
  deriving DecidableEq, Repr

/-- The instruction set (R3, R60). -/
inductive Instr where
  /-- MOVE Rs, Rd (R79). -/
  | moveRegReg (rd rs : Reg)
  /-- MOVE imm, Rd (R80). -/
  | moveImmReg (rd : Reg) (imm : Word)
  /-- MOVE SR, Rd (R81). -/
  | moveSrReg (rd : Reg)
  /-- MOVE Rs, SR (R82, and R83 with Fn ignored). -/
  | moveRegSr (rs : Reg)
  /-- MOVE SR, SR (R84). -/
  | moveSrSr
  /-- R90. -/
  | or (rd src1 : Reg) (src2 : Src2)
  /-- R91. -/
  | and (rd src1 : Reg) (src2 : Src2)
  /-- R92. -/
  | xor (rd src1 : Reg) (src2 : Src2)
  /-- R93. -/
  | add (rd src1 : Reg) (src2 : Src2)
  /-- R94. -/
  | adc (rd src1 : Reg) (src2 : Src2)
  /-- R95. -/
  | sub (rd src1 : Reg) (src2 : Src2)
  /-- R96. -/
  | sbc (rd src1 : Reg) (src2 : Src2)
  /-- R101. -/
  | rotl (rd src1 : Reg) (src2 : Src2)
  /-- R102. -/
  | rotr (rd src1 : Reg) (src2 : Src2)
  /-- R103. -/
  | shl (rd src1 : Reg) (src2 : Src2)
  /-- R104. -/
  | shr (rd src1 : Reg) (src2 : Src2)
  /-- R105. -/
  | ashr (rd src1 : Reg) (src2 : Src2)
  /-- R97. -/
  | cmp (src1 : Reg) (src2 : Src2)
  /-- R107. -/
  | pop (reg : Reg)
  /-- R106. -/
  | push (reg : Reg)
  /-- R109. -/
  | loadb (reg : Reg) (addr : Addr)
  /-- R110. -/
  | storeb (reg : Reg) (addr : Addr)
  /-- R111. -/
  | loadh (reg : Reg) (addr : Addr)
  /-- R112. -/
  | storeh (reg : Reg) (addr : Addr)
  /-- R113. -/
  | load (reg : Reg) (addr : Addr)
  /-- R114. -/
  | store (reg : Reg) (addr : Addr)
  /-- R117. -/
  | jp (cond : Cond) (target : Src2)
  /-- R118. -/
  | call (cond : Cond) (target : Src2)
  /-- R119. -/
  | jr (cond : Cond) (off : Word)
  /-- R120. -/
  | ret (cond : Cond)
  /-- R121. -/
  | reti (cond : Cond)
  /-- R122. -/
  | retn (cond : Cond)
  /-- R123. -/
  | halt (cond : Cond)
  deriving DecidableEq, Repr

end Sys2Proof
end

