-- ==== Sys2Proof/Decode.lean ====
section
/-! DEFINITION. Byte order of words, the decoder (30_encoding R72) and the encoder of the same formats
(R61 to R68). Field positions other than opcode, IMM20 and COND are the spec's decision D1, D4, D5
(notes/assumptions/18.md). -/

namespace Sys2Proof

/-! ## Bytes of a word (20_memory R40) -/

/-- Byte `k` of a value: its bits `[8k+7:8k]`. -/
def byteOf (v : Word) (k : Nat) : Byte := v.extractLsb' (8 * k) 8

/-- The word whose bytes stand at increasing addresses, least significant first. -/
def leWord (b0 b1 b2 b3 : Byte) : Word := b3 ++ b2 ++ b1 ++ b0

/-! ## Fields of a word (R60 to R71) -/

/-- w[31:27]. -/
def opField (w : Word) : BitVec 5 := w.extractLsb' 27 5

/-- w[26]: immediate-versus-register selector, or addressing mode. -/
def fnBit (w : Word) : Bool := w.getLsbD 26

/-- w[25:23]: DEST or REG. -/
def destField (w : Word) : Reg := (w.extractLsb' 23 3).toFin

/-- w[22:20]: SRC1 or ADR. -/
def src1Field (w : Word) : Reg := (w.extractLsb' 20 3).toFin

/-- w[19:17]: SRC2. -/
def src2Field (w : Word) : Reg := (w.extractLsb' 17 3).toFin

/-- w[25:22]: COND. -/
def condField (w : Word) : BitVec 4 := w.extractLsb' 22 4

/-- w[1:0]: TYPE of a return (R67). -/
def typeField (w : Word) : BitVec 2 := w.extractLsb' 0 2

/-- `sext_32(w[19:0])` (R70). -/
def immField (w : Word) : Word := (w.extractLsb' 0 20).signExtend 32

/-- R72: `src2(w) = if Fn = 1 then Imm(sext_32(w[19:0])) else Reg(w[19:17])`. -/
def src2Of (w : Word) : Src2 := if fnBit w then .imm (immField w) else .reg (src2Field w)

/-- R64: absolute when Fn = 0, base plus offset when Fn = 1. -/
def addrOf (w : Word) : Addr :=
  if fnBit w then .base (src1Field w) (immField w) else .abs (immField w)

/-- R71: the condition a code names; 1111 names none. -/
def condOf (code : BitVec 4) : Option Cond :=
  match code.toNat with
  | 0 => some .always
  | 1 => some .n
  | 2 => some .nn
  | 3 => some .c
  | 4 => some .nc
  | 5 => some .v
  | 6 => some .nv
  | 7 => some .z
  | 8 => some .nz
  | 9 => some .ule
  | 10 => some .ugt
  | 11 => some .slt
  | 12 => some .sle
  | 13 => some .sge
  | 14 => some .sgt
  | _ => none

/-- Why bytes are no instruction. -/
inductive DecodeError where
  /-- R74: a reserved or unassigned opcode, or COND = 1111 on a control instruction. -/
  | unknownOpcode (w : Word)
  /-- Fewer than the four bytes of an instruction word (R59); never arises from a fetch. -/
  | tooShort
  deriving DecidableEq, Repr

/-- R78: the five MOVE forms by SRD = w[21], SRS = w[20] and Fn = w[26]. -/
def decodeMove (w : Word) : Instr :=
  match w.getLsbD 21, w.getLsbD 20, fnBit w with
  | false, false, false => .moveRegReg (destField w) (src2Field w)
  | false, false, true => .moveImmReg (destField w) (immField w)
  | false, true, _ => .moveSrReg (destField w)
  | true, false, _ => .moveRegSr (src2Field w)
  | true, true, _ => .moveSrSr

/-- R72: TYPE 00 RET, 01 RETI, 11 RETN, and 10 read as RET. -/
def decodeRet (w : Word) (cond : Cond) : Instr :=
  match (typeField w).toNat with
  | 1 => .reti cond
  | 3 => .retn cond
  | _ => .ret cond

/-- A control instruction: its condition code must name a condition (R72, R74 (c)). -/
def withCond (w : Word) (f : Cond → Instr) : Except DecodeError Instr :=
  match condOf (condField w) with
  | some cond => .ok (f cond)
  | none => .error (.unknownOpcode w)

/-- R72, R74: the decoder, total on words. -/
def decode (w : Word) : Except DecodeError Instr :=
  match (opField w).toNat with
  | 0 => .ok (decodeMove w)
  | 1 => .ok (.or (destField w) (src1Field w) (src2Of w))
  | 2 => .ok (.and (destField w) (src1Field w) (src2Of w))
  | 3 => .ok (.xor (destField w) (src1Field w) (src2Of w))
  | 4 => .ok (.add (destField w) (src1Field w) (src2Of w))
  | 5 => .ok (.adc (destField w) (src1Field w) (src2Of w))
  | 6 => .ok (.sub (destField w) (src1Field w) (src2Of w))
  | 7 => .ok (.sbc (destField w) (src1Field w) (src2Of w))
  | 8 => .ok (.rotl (destField w) (src1Field w) (src2Of w))
  | 9 => .ok (.rotr (destField w) (src1Field w) (src2Of w))
  | 10 => .ok (.shl (destField w) (src1Field w) (src2Of w))
  | 11 => .ok (.shr (destField w) (src1Field w) (src2Of w))
  | 12 => .ok (.ashr (destField w) (src1Field w) (src2Of w))
  | 13 => .ok (.cmp (src1Field w) (src2Of w))
  | 16 => .ok (.pop (destField w))
  | 17 => .ok (.push (destField w))
  | 18 => .ok (.loadb (destField w) (addrOf w))
  | 19 => .ok (.storeb (destField w) (addrOf w))
  | 20 => .ok (.loadh (destField w) (addrOf w))
  | 21 => .ok (.storeh (destField w) (addrOf w))
  | 22 => .ok (.load (destField w) (addrOf w))
  | 23 => .ok (.store (destField w) (addrOf w))
  | 24 => withCond w (fun cond => .jp cond (src2Of w))
  | 25 => withCond w (fun cond => .call cond (src2Of w))
  | 26 => withCond w (fun cond => .jr cond (immField w))
  | 27 => withCond w (decodeRet w)
  | 31 => withCond w (fun cond => .halt cond)
  | _ => .error (.unknownOpcode w)

/-- The decoder on bytes as they stand in memory (R41, R59): the instruction and the bytes after it. -/
def decodeBytes : List Byte → Except DecodeError (Instr × List Byte)
  | b0 :: b1 :: b2 :: b3 :: rest =>
    match decode (leWord b0 b1 b2 b3) with
    | .ok i => .ok (i, rest)
    | .error e => .error e
  | _ => .error .tooShort

/-- The four bytes of a word as the hardware stores them (R40). -/
def bytesOf (w : Word) : List Byte := [byteOf w 0, byteOf w 1, byteOf w 2, byteOf w 3]

/-- The instruction the decoder reads from bits numbered as spec/opcode_table.json numbers them. -/
def decodeTableWord (nbits w : Nat) : Option Instr :=
  match decodeBytes (bytesOf (BitVec.ofNat 32 (w % 2 ^ nbits))) with
  | .ok (i, _) => some i
  | .error _ => none

/-! ## The encoder (R61 to R68, unused bits 0) -/

/-- R71. -/
def Cond.code : Cond → BitVec 4
  | .always => 0b0000#4
  | .n => 0b0001#4
  | .nn => 0b0010#4
  | .c => 0b0011#4
  | .nc => 0b0100#4
  | .v => 0b0101#4
  | .nv => 0b0110#4
  | .z => 0b0111#4
  | .nz => 0b1000#4
  | .ule => 0b1001#4
  | .ugt => 0b1010#4
  | .slt => 0b1011#4
  | .sle => 0b1100#4
  | .sge => 0b1101#4
  | .sgt => 0b1110#4

/-- A register's 3-bit field (R69). -/
def regBits (r : Reg) : BitVec 3 := BitVec.ofFin r

/-- The 20-bit field of an immediate (R70). -/
def immBits (v : Word) : BitVec 20 := v.extractLsb' 0 20

/-- The Fn bit of a second operand (R61). -/
def Src2.fn : Src2 → BitVec 1
  | .reg _ => 0#1
  | .imm _ => 1#1

/-- Bits [19:0] of a second operand: SRC2 and zeros, or IMM20 (R61). -/
def Src2.bits : Src2 → BitVec 20
  | .reg r => regBits r ++ 0#17
  | .imm v => immBits v

/-- Format ALU (R61). -/
def encAlu (op : BitVec 5) (rd src1 : Reg) (b : Src2) : Word :=
  op ++ b.fn ++ regBits rd ++ regBits src1 ++ b.bits

/-- Format CMP (R62). -/
def encCmp (op : BitVec 5) (src1 : Reg) (b : Src2) : Word :=
  op ++ b.fn ++ 0#3 ++ regBits src1 ++ b.bits

/-- Format MV (R63). -/
def encMove (fn : BitVec 1) (rd : Reg) (srd srs : BitVec 1) (low : BitVec 20) : Word :=
  0b00000#5 ++ fn ++ regBits rd ++ 0#1 ++ srd ++ srs ++ low

/-- Format MEM (R64). -/
def encMem (op : BitVec 5) (r : Reg) : Addr → Word
  | .abs off => op ++ 0#1 ++ regBits r ++ 0#3 ++ immBits off
  | .base adr off => op ++ 1#1 ++ regBits r ++ regBits adr ++ immBits off

/-- Format STK (R65). -/
def encStk (op : BitVec 5) (r : Reg) : Word := op ++ 0#1 ++ regBits r ++ 0#23

/-- Format JMP (R66). -/
def encJmp (op : BitVec 5) (cond : Cond) (fn : BitVec 1) (low : BitVec 20) : Word :=
  op ++ fn ++ cond.code ++ 0#2 ++ low

/-- Format RET (R67). -/
def encRet (cond : Cond) (type : BitVec 2) : Word := 0b11011#5 ++ 0#1 ++ cond.code ++ 0#20 ++ type

/-- Format HLT (R68). -/
def encHalt (cond : Cond) : Word := 0b11111#5 ++ 0#1 ++ cond.code ++ 0#22

/-- The canonical word of an instruction (R75: unused bits 0, JR with Fn = 1, RET TYPE 00). -/
def encode : Instr → Word
  | .moveRegReg rd rs => encMove 0#1 rd 0#1 0#1 (regBits rs ++ 0#17)
  | .moveImmReg rd imm => encMove 1#1 rd 0#1 0#1 (immBits imm)
  | .moveSrReg rd => encMove 0#1 rd 0#1 1#1 0#20
  | .moveRegSr rs => encMove 0#1 0 1#1 0#1 (regBits rs ++ 0#17)
  | .moveSrSr => encMove 0#1 0 1#1 1#1 0#20
  | .or rd a b => encAlu 0b00001#5 rd a b
  | .and rd a b => encAlu 0b00010#5 rd a b
  | .xor rd a b => encAlu 0b00011#5 rd a b
  | .add rd a b => encAlu 0b00100#5 rd a b
  | .adc rd a b => encAlu 0b00101#5 rd a b
  | .sub rd a b => encAlu 0b00110#5 rd a b
  | .sbc rd a b => encAlu 0b00111#5 rd a b
  | .rotl rd a b => encAlu 0b01000#5 rd a b
  | .rotr rd a b => encAlu 0b01001#5 rd a b
  | .shl rd a b => encAlu 0b01010#5 rd a b
  | .shr rd a b => encAlu 0b01011#5 rd a b
  | .ashr rd a b => encAlu 0b01100#5 rd a b
  | .cmp a b => encCmp 0b01101#5 a b
  | .pop r => encStk 0b10000#5 r
  | .push r => encStk 0b10001#5 r
  | .loadb r a => encMem 0b10010#5 r a
  | .storeb r a => encMem 0b10011#5 r a
  | .loadh r a => encMem 0b10100#5 r a
  | .storeh r a => encMem 0b10101#5 r a
  | .load r a => encMem 0b10110#5 r a
  | .store r a => encMem 0b10111#5 r a
  | .jp cond t => encJmp 0b11000#5 cond t.fn t.bits
  | .call cond t => encJmp 0b11001#5 cond t.fn t.bits
  | .jr cond off => encJmp 0b11010#5 cond 1#1 (immBits off)
  | .ret cond => encRet cond 0b00#2
  | .reti cond => encRet cond 0b01#2
  | .retn cond => encRet cond 0b11#2
  | .halt cond => encHalt cond

end Sys2Proof
end

