-- ==== Sys2Proof/Config.lean ====
section
/-! DEFINITION. What an implementation fixes (spec 00_scope R9) and the free values: opaque constants
with no body, which nothing in Lean can evaluate, for what the spec leaves open. -/

namespace Sys2Proof

/-- INT_VECTOR_MODE (R9, R135): the handler address is the word at `a`, or `a` itself. -/
inductive VectorMode where
  | indirect (a : Word)
  | direct (a : Word)
  deriving DecidableEq, Repr

/-- MISALIGNED_TARGET (R9, R116). -/
inductive TargetPolicy where
  | mask
  | fault
  deriving DecidableEq, Repr

/-- The parameters of the machine (R9). UNITS is the field `units` of State, DMA_HALT_SIGNALS a field of each
DMA unit, INIT_MEM the constant `Config.initMem`. -/
structure Params where
  /-- MEM_SIZE: bytes of flat memory, a positive multiple of 4 (R37). -/
  memSize : Nat
  /-- NMI_VECTOR (R134). -/
  nmiVector : Word
  /-- INT_VECTOR_MODE (R135). -/
  intVector : VectorMode
  /-- MISALIGNED_TARGET (R116). -/
  target : TargetPolicy
  /-- MOVE_SETS_NZ (R30). -/
  moveSetsNz : Bool
  deriving DecidableEq, Repr

/-- The defaults of R9. DESIGN CHOICE: INT_VECTOR_MODE is OPEN and takes the recommended value
(notes/assumptions/2.md). -/
def Config.defaults : Params where
  memSize := 0x40000
  nmiVector := 0x0000000C#32
  intVector := .indirect 0x00000008#32
  target := .mask
  moveSetsNz := true

/-- R37: MEM_SIZE is a positive multiple of 4. -/
def Params.wf (p : Params) : Bool := 0 < p.memSize && p.memSize % 4 = 0

/-- INIT_MEM (R9, R155): what a byte of flat memory holds that nothing has written. A free value
(notes/assumptions/1.md). -/
opaque Config.initMem : Nat → Byte

/-- The `n`-th free word of a run: a device's slot as read, a device's open next state
(notes/assumptions/7.md, 21.md). -/
opaque Config.freeWord : Nat → Word

/-- The `n`-th free bit of a run (notes/assumptions/21.md). -/
opaque Config.freeBit : Nat → Bool

/-- What a byte of a generic unit holds that nothing has written since the unit's reset number `epoch`
(R149, notes/assumptions/15.md). -/
opaque Config.genericByte : (epoch offset : Nat) → Byte

/-- The count-enable bit of a timer control word (R143: position not in source, notes/assumptions/10.md). -/
opaque Config.timerCountEnable : Word → Bool

/-- The interrupt-enable bit of a timer control word (R143, notes/assumptions/10.md). -/
opaque Config.timerIntEnable : Word → Bool

/-- Whether a DMA control word selects halting mode; else cycle-stealing (R147, notes/assumptions/10.md). -/
opaque Config.dmaHalting : Word → Bool

/-- Whether a DMA control word makes the source address increment (R147, notes/assumptions/10.md). -/
opaque Config.dmaSrcInc : Word → Bool

/-- Whether a DMA control word makes the destination address increment (R147, notes/assumptions/10.md). -/
opaque Config.dmaDstInc : Word → Bool

/-- Whether the parallel I/O is in input mode after a word is written to its control/mask slot, from the mode
before and the word (R142, R146, notes/assumptions/10.md). -/
opaque Config.pioInput : Bool → Word → Bool

/-- Whether it is in conditional transfer mode after that write (R146, notes/assumptions/10.md). -/
opaque Config.pioConditional : Bool → Word → Bool

/-- Whether its match policy is the AND reduction after that write (R146, notes/assumptions/10.md). -/
opaque Config.pioMatchAll : Bool → Word → Bool

/-- Its mask after that write (R146, notes/assumptions/10.md). -/
opaque Config.pioMask : Word → Word → Word

/-- How many free-value indices one device access or tick sets apart. MODEL's own (notes/assumptions/21.md). -/
def Config.drawStride : Nat := 16

/-- How many transfers in a row, one nested in or following another, a halting DMA block may make before the
model refuses it: 2^64. MODEL's own: fewer than 2^28 controllers fit the address space and a 32-bit counter asks
for fewer than 2^32 transfers, so a block that rewrites no controller's registers never comes near it
(notes/assumptions/14.md). -/
def Config.dmaFuel : Nat := 18446744073709551616

end Sys2Proof
end

