-- ==== Sys2Proof/Machine/State.lean ====
section
/-! DEFINITION. The machine's state as plain data (10_state, 20_memory R37 to R39, 60_exceptions R130, R143 to
R149), the reasons a step can stop, and the state after reset. -/

namespace Sys2Proof.Machine

/-! ## Memory -/

/-- Bytes by address, addresses strictly rising. An unlisted address holds no byte that the run wrote; what
reading it gives is a free value (`Config.initMem`, notes/assumptions/1.md). -/
abbrev Memory := List Host.Cell

/-- The canonical form: addresses strictly rising. An unlisted address lists no value, so no entry can
equal what it lists. -/
def Memory.wf (m : Memory) : Bool := decide (m.Pairwise fun x y => x.1 < y.1)

/-- Access widths (R49). -/
inductive Width where
  | byte | half | word
  deriving DecidableEq, Repr

/-- What an access does (R46). -/
inductive AccessKind where
  | read | write
  deriving DecidableEq, Repr

/-! ## Attached units -/

/-- `u.level` (R130). -/
inductive IrqLevel where
  | none | level0 | level1 | level2 | level3
  deriving DecidableEq, Repr

/-- The interval timer's own state (R143); its request signal is the unit's. -/
structure Timer where
  reload : Word
  countdown : Word
  /-- The count-enable bit of the control register. -/
  countEnable : Bool
  /-- The interrupt-enable bit of the control register. -/
  intEnable : Bool
  ready : Bool
  /-- The "end already signaled" latch. -/
  endLatch : Bool
  deriving DecidableEq, Repr

/-- The parallel I/O's own state (R146). -/
structure Pio where
  /-- Input mode; else output mode. -/
  input : Bool
  /-- Conditional transfer mode; else immediate. -/
  conditional : Bool
  /-- The match policy: true for the AND reduction, false for OR. -/
  matchAll : Bool
  mask : Word
  data : Word
  ready : Bool
  endLatch : Bool
  deriving DecidableEq, Repr

/-- The DMA controller's own state (R147, R148). -/
structure Dma where
  source : Word
  destination : Word
  counter : Word
  /-- Halting mode; else cycle-stealing. -/
  halting : Bool
  srcInc : Bool
  dstInc : Bool
  /-- A cycle-stealing transfer was started. -/
  started : Bool
  ready : Bool
  /-- DMA_HALT_SIGNALS, fixed for the unit (R9). -/
  haltSignals : Bool
  deriving DecidableEq, Repr

/-- The generic unit (R149): `4 * count` bytes by offset, in Memory's canonical form; `epoch` numbers its last
reset (notes/assumptions/15.md). -/
structure Generic where
  count : Nat
  cells : Memory
  epoch : Nat
  deriving DecidableEq, Repr

/-- The devices (R141). -/
inductive Device where
  | timer (t : Timer)
  | pio (p : Pio)
  | dma (d : Dma)
  | generic (g : Generic)
  deriving DecidableEq, Repr

/-- An attached unit (R38, R39, R130). Its number of slots is a function of its device (`IoUnit.count`). -/
structure IoUnit where
  id : Nat
  start : Word
  level : IrqLevel
  /-- The request signal. -/
  signal : Bool
  device : Device
  deriving DecidableEq, Repr

/-- What can happen between two steps, as an input of the model (R131, R149, R160, R163, R170). -/
inductive Event where
  /-- `count` ticks of a unit's clock. -/
  | tick (unit count : Nat)
  /-- The host forces a unit's request signal to 1. -/
  | force (unit : Nat)
  /-- The host clears a unit's maskable request (R131). -/
  | clear (unit : Nat)
  /-- The host injects one byte of a generic unit's data. -/
  | inject (unit offset : Nat) (value : Byte)
  deriving DecidableEq, Repr

/-! ## Why a step stops -/

/-- The faults of R125, with what is recorded for the host. -/
inductive FaultReason where
  /-- The fetched word `w` at `pc` is no instruction (R74, R126): raised by the decoder. Safe: the spec's own stop. -/
  | decodeFailure (w pc : Word)
  /-- The aligned address `a` is in no unit and at or above MEM_SIZE (R46): raised by any bus access of fetch,
  an instruction, the interrupt entry or a DMA. Safe: the spec's own stop. -/
  | unmappedAccess (a : Word) (n : Width) (kind : AccessKind) (pc : Word)
  /-- MISALIGNED_TARGET = fault and `t[1:0]` is not 00 (R116): raised by writing a target into pc. Safe: the
  spec's own stop. -/
  | misalignedTarget (t pc : Word)
  deriving DecidableEq, Repr

/-- R33: Running, Halted or Faulted(reason). -/
inductive RunState where
  | running
  | halted
  | faulted (r : FaultReason)
  deriving DecidableEq, Repr

/-- Everything the spec gives the machine, its parameters, and two fields of the model's own. -/
structure State where
  /-- r0 to r7 (R20). -/
  regs : Vector Word 8
  /-- The program counter (R23). -/
  pc : Word
  /-- The status register (R26). -/
  sr : Word
  /-- The internal interrupt-enable flip-flop (R31). -/
  iif : Bool
  /-- The run state (R33). -/
  run : RunState
  /-- Flat memory M (R37). -/
  mem : Memory
  /-- The attached units (R38, R39). -/
  units : List IoUnit
  /-- The parameters (R9); no step changes them. -/
  cfg : Params
  /-- MODEL's own: the events of each interval before a coming step (R160, notes/assumptions/6.md). -/
  schedule : List (List Event)
  /-- MODEL's own: the index of the next free value (notes/assumptions/21.md). -/
  draws : Nat
  deriving DecidableEq, Repr

/-- A step that faults. -/
inductive Fault where
  /-- The machine is stopped for `reason`, in the state `left`, whose run state is `faulted reason` (R125, R157).
  Raised by fetch, decode, an instruction, an interrupt entry or a DMA tick. Safe: the spec's own stop; the
  partial contents of `left` after a fault other than a decode failure are not to be relied on (R127,
  notes/assumptions/4.md). -/
  | stopped (reason : FaultReason) (left : State)
  deriving DecidableEq, Repr

/-- A step the model gives no meaning to. -/
inductive Refusal where
  /-- Raised by exec's arms for an instruction without a meaning yet: none is left. Safe. -/
  | notModelled (mnemonic : String)
  /-- A halting DMA block of unit `unit` still runs after `Config.dmaFuel` transfers in a row: it rewrites the
  registers of a controller, and the spec's loop (R148) has not ended. Raised by a bus write. Safe
  (notes/assumptions/14.md). -/
  | dmaUnending (unit : Nat)
  deriving DecidableEq, Repr

/-- The machine right after reset with the default parameters, as created: no unit attached, nothing written
to memory (R35, R9; notes/assumptions/2.md, 3.md, 20.md). -/
def State.reset : State where
  regs := Vector.replicate 8 0#32
  pc := 0#32
  sr := 0#32
  iif := true
  run := .running
  mem := []
  units := []
  cfg := Config.defaults
  schedule := []
  draws := 0

end Sys2Proof.Machine
end

