-- ==== Sys2Proof/Machine/Flags.lean ====
section
/-! DEFINITION. The status register's bits (10_state R26), the flag computations (41_arith_logic R86 to R89,
42_shift_rotate R99 to R105) and the conditions (44_control R115). -/

namespace Sys2Proof.Machine

/-! ## The status register -/

/-- The 11 defined bits of SR (R26). -/
inductive SrBit where
  | c | v | n | z | gie | eint0 | eint1 | eint2 | int0 | int1 | int2
  deriving DecidableEq, Repr

/-- The bit positions of R26 (the spec's decision D2, notes/assumptions/19.md). -/
def SrBit.pos : SrBit → Nat
  | .c => 0
  | .v => 1
  | .n => 2
  | .z => 3
  | .gie => 4
  | .eint0 => 5
  | .eint1 => 6
  | .eint2 => 7
  | .int0 => 8
  | .int1 => 9
  | .int2 => 10

/-- `SR.F` read (R13). -/
def srGet (sr : Word) (f : SrBit) : Bool := sr.getLsbD f.pos

/-- `SR.F <- b` (R13): every other bit is kept. -/
def srSet (sr : Word) (f : SrBit) (b : Bool) : Word :=
  if b then sr ||| (1#32 <<< f.pos) else sr &&& ~~~(1#32 <<< f.pos)

/-- `zext_32(v[7:0])`: what a MOVE to or from SR transfers (R27). -/
def srLow (v : Word) : Word := (v.extractLsb' 0 8).setWidth 32

/-- A flag of the state. -/
def State.flag (s : State) (f : SrBit) : Bool := srGet s.sr f

/-- `SR.F <- b` on the state. -/
def State.setFlag (s : State) (f : SrBit) (b : Bool) : State := { s with sr := srSet s.sr f b }

/-- R88: `SetNZ(r)`. -/
def State.setNZ (s : State) (r : Word) : State := (s.setFlag .n r.msb).setFlag .z (r == 0#32)

/-! ## Arithmetic -/

/-- A result with its carry and overflow. -/
structure AluOut where
  r : Word
  c : Bool
  v : Bool
  deriving DecidableEq, Repr

/-- R86: the three-operand add primitive. -/
def addC (a b : Word) (cin : Bool) : AluOut :=
  let low := a.toNat % 2 ^ 31 + b.toNat % 2 ^ 31 + cin.toNat
  let carryNtl := decide (2 ^ 31 ≤ low)
  let top := a.msb.toNat + b.msb.toNat + carryNtl.toNat
  let cout := decide (1 < top)
  { r := BitVec.ofNat 32 (a.toNat + b.toNat + cin.toNat), c := cout, v := carryNtl ^^ cout }

/-- R89: `Sub(a, b, bin)`, C inverted so that it means "borrow occurred". -/
def subB (a b : Word) (bin : Bool) : AluOut :=
  let o := addC a (~~~b) (!bin)
  { o with c := !o.c }

/-- The flags of OR, AND, XOR: C and V are 0 (R90 to R92). -/
def logicOut (r : Word) : AluOut := { r := r, c := false, v := false }

/-! ## Shifts and rotates -/

/-- R99: `int(src2[4:0])`. -/
def shiftAmount (src2 : Word) : Nat := (src2.extractLsb' 0 5).toNat

/-- R100: amount 0 leaves the value and clears C; V is 0 always. -/
def shiftOut (src1 : Word) (amt : Nat) (r : Word) (c : Bool) : AluOut :=
  if amt = 0 then { r := src1, c := false, v := false } else { r := r, c := c, v := false }

/-- R101. -/
def rotlOut (src1 src2 : Word) : AluOut :=
  let amt := shiftAmount src2
  let r := (src1 <<< amt) ||| (src1 >>> (32 - amt))
  shiftOut src1 amt r (r.getLsbD 0)

/-- R102. -/
def rotrOut (src1 src2 : Word) : AluOut :=
  let amt := shiftAmount src2
  let r := (src1 >>> amt) ||| (src1 <<< (32 - amt))
  shiftOut src1 amt r (r.getLsbD 31)

/-- R103: C is `src1[32 - amt]` (90_conflicts C2). -/
def shlOut (src1 src2 : Word) : AluOut :=
  let amt := shiftAmount src2
  shiftOut src1 amt (src1 <<< amt) (src1.getLsbD (32 - amt))

/-- R104. -/
def shrOut (src1 src2 : Word) : AluOut :=
  let amt := shiftAmount src2
  shiftOut src1 amt (src1 >>> amt) (src1.getLsbD (amt - 1))

/-- R105. -/
def ashrOut (src1 src2 : Word) : AluOut :=
  let amt := shiftAmount src2
  let fill := if src1.getLsbD 31 then ~~~(0xFFFFFFFF#32 >>> amt) else 0#32
  shiftOut src1 amt ((src1 >>> amt) ||| fill) (src1.getLsbD (amt - 1))

/-- Writing all four flags of an ALU result (R30): N and Z from the result, C and V as computed. -/
def State.setAluFlags (s : State) (o : AluOut) : State :=
  ((s.setNZ o.r).setFlag .c o.c).setFlag .v o.v

/-! ## Conditions -/

/-- R115: `CondHolds`. -/
def condHolds (sr : Word) : Cond → Bool
  | .always => true
  | .n => srGet sr .n
  | .nn => !srGet sr .n
  | .c => srGet sr .c
  | .nc => !srGet sr .c
  | .v => srGet sr .v
  | .nv => !srGet sr .v
  | .z => srGet sr .z
  | .nz => !srGet sr .z
  | .ule => srGet sr .c || srGet sr .z
  | .ugt => !srGet sr .c && !srGet sr .z
  | .slt => srGet sr .n ^^ srGet sr .v
  | .sle => (srGet sr .n ^^ srGet sr .v) || srGet sr .z
  | .sge => srGet sr .n == srGet sr .v
  | .sgt => (srGet sr .n == srGet sr .v) && !srGet sr .z

end Sys2Proof.Machine
end

