-- ==== Sys2Proof/Machine/Devices.lean ====
section
/-! DEFINITION. Memory's operations (20_memory R37, R40), and the devices as agents (60_exceptions R141 to R149):
what a device answers, what a write to a slot does, what a tick does. What the source leaves open is a free
value, indexed from `n` (notes/assumptions/7.md to 13.md, 15.md). Bus access is in Ops.lean. -/

namespace Sys2Proof.Machine

/-! ## Bytes -/

/-- How many bytes a width has (R49). -/
def Width.bytes : Width → Nat
  | .byte => 1
  | .half => 2
  | .word => 4

/-- R42: forced alignment. -/
def align (a : Word) : Width → Word
  | .byte => a
  | .half => a &&& 0xFFFFFFFE#32
  | .word => a &&& 0xFFFFFFFC#32

/-- The byte listed at an address, if the run wrote one. -/
def Memory.lookup : Memory → Nat → Option Byte
  | [], _ => none
  | (k, b) :: m, a => if k = a then some b else Memory.lookup m a

/-- Lists `b` at `a`, keeping the canonical form. -/
def Memory.put : Memory → Nat → Byte → Memory
  | [], a, b => [(a, b)]
  | (k, c) :: m, a, b =>
    if a < k then (a, b) :: (k, c) :: m
    else if a = k then (a, b) :: m
    else (k, c) :: Memory.put m a b

/-- The value of the byte of flat memory at `a`: as written, else INIT_MEM (R35, R155). -/
def Memory.byte (m : Memory) (a : Nat) : Byte := (Memory.lookup m a).getD (Config.initMem a)

/-- R40: the little-endian value of the bytes `f` gives from `a` on, zero-extended. -/
def leRead (f : Nat → Byte) (a : Nat) : Width → Word
  | .byte => (f a).setWidth 32
  | .half => (f (a + 1) ++ f a).setWidth 32
  | .word => leWord (f a) (f (a + 1)) (f (a + 2)) (f (a + 3))

/-- R40: byte `k` of the value at `a + k`. -/
def Memory.write (m : Memory) (a : Nat) (w : Width) (v : Word) : Memory :=
  match w with
  | .byte => Memory.put m a (byteOf v 0)
  | .half => Memory.put (Memory.put m a (byteOf v 0)) (a + 1) (byteOf v 1)
  | .word => Memory.put (Memory.put (Memory.put (Memory.put m a (byteOf v 0)) (a + 1) (byteOf v 1))
      (a + 2) (byteOf v 2)) (a + 3) (byteOf v 3)

/-! ## Units on the bus -/

/-- The number of word slots of a device's window (R142). -/
def Device.count : Device → Nat
  | .timer _ => 4
  | .pio _ => 4
  | .dma _ => 6
  | .generic g => g.count

/-- `u.count` (R38). -/
def IoUnit.count (u : IoUnit) : Nat := u.device.count

/-- The first byte address after the unit's range (R38). -/
def IoUnit.stop (u : IoUnit) : Nat := u.start.toNat + 4 * u.count

/-- The bus test of R38: `a` is in `[u.start, u.start + 4*u.count)`. -/
def IoUnit.covers (u : IoUnit) (a : Word) : Bool := u.start.toNat ≤ a.toNat && a.toNat < u.stop

/-- A unit with a level can interrupt (R130, R148). -/
def IoUnit.hasLevel (u : IoUnit) : Bool := u.level != .none

/-- R47: the field of a 32-bit slot value that an access at `off` sees. -/
def slotField (x : Word) (off : Nat) (w : Width) : Word :=
  match w with
  | .byte => (x.extractLsb' (8 * (off % 4)) 8).setWidth 32
  | .half => (x.extractLsb' (8 * (off % 4)) 16).setWidth 32
  | .word => x >>> (8 * (off % 4))

/-- The value of a generic unit's byte: as last written, else free (R149). -/
def Generic.byte (g : Generic) (off : Nat) : Byte :=
  (Memory.lookup g.cells off).getD (Config.genericByte g.epoch off)

/-- The value a unit answers to a read at `off` (R47). A timer, parallel I/O or DMA slot presents a free
value: the source gives no read value (93 I15). -/
def IoUnit.read (n : Nat) (u : IoUnit) (off : Nat) (w : Width) : Word :=
  match u.device with
  | .generic g => leRead g.byte off w
  | .timer _ => slotField (Config.freeWord n) off w
  | .pio _ => slotField (Config.freeWord n) off w
  | .dma _ => slotField (Config.freeWord n) off w

/-! ## Free device states -/

/-- A timer in a state the source does not give. -/
def Timer.free (n : Nat) : Timer where
  reload := Config.freeWord n
  countdown := Config.freeWord (n + 1)
  countEnable := Config.freeBit n
  intEnable := Config.freeBit (n + 1)
  ready := Config.freeBit (n + 2)
  endLatch := Config.freeBit (n + 3)

/-- A parallel I/O in a state the source does not give. -/
def Pio.free (n : Nat) : Pio where
  input := Config.freeBit n
  conditional := Config.freeBit (n + 1)
  matchAll := Config.freeBit (n + 2)
  mask := Config.freeWord n
  data := Config.freeWord (n + 1)
  ready := Config.freeBit (n + 3)
  endLatch := Config.freeBit (n + 4)

/-- A DMA controller in a state the source does not give; its parameter stays. -/
def Dma.free (n : Nat) (haltSignals : Bool) : Dma where
  source := Config.freeWord n
  destination := Config.freeWord (n + 1)
  counter := Config.freeWord (n + 2)
  halting := Config.freeBit n
  srcInc := Config.freeBit (n + 1)
  dstInc := Config.freeBit (n + 2)
  started := Config.freeBit (n + 3)
  ready := Config.freeBit (n + 4)
  haltSignals := haltSignals

/-- The free request signal that goes with a free device state. -/
def freeSignal (n : Nat) : Bool := Config.freeBit (n + 15)

/-- A device as its own reset leaves it (R35, R154): a state the source does not give. -/
def Device.afterReset (n : Nat) : Device → Device
  | .timer _ => .timer (Timer.free n)
  | .pio _ => .pio (Pio.free n)
  | .dma d => .dma (Dma.free n d.haltSignals)
  | .generic g => .generic { count := g.count, cells := [], epoch := n }

/-- The request signal as a unit's own reset leaves it: not in source, but a generic unit raises none (R149). -/
def IoUnit.signalAfterReset (n : Nat) (u : IoUnit) : Bool :=
  match u.device with
  | .generic _ => u.signal && freeSignal n
  | .timer _ => freeSignal n
  | .pio _ => freeSignal n
  | .dma _ => freeSignal n

/-- A unit after its own reset: attached as it was, its device and signal as that reset leaves them. -/
def IoUnit.afterReset (n : Nat) (u : IoUnit) : IoUnit :=
  { u with device := u.device.afterReset n, signal := u.signalAfterReset n }

/-! ## Writes to slots -/

/-- R144: slot 0 loads reload and countdown and clears the latch, slot 1 is control, slot 2 clears ready and
the signal. The reserved slot, and any byte or half-word write, leaves a free state (93 I16). -/
def Timer.write (n : Nat) (t : Timer) (signal : Bool) (slot : Nat) (w : Width) (v : Word) : Timer × Bool :=
  match w, slot with
  | .word, 0 => ({ t with reload := v, countdown := v, endLatch := false }, signal)
  | .word, 1 => ({ t with countEnable := Config.timerCountEnable v, intEnable := Config.timerIntEnable v }, signal)
  | .word, 2 => ({ t with ready := false }, false)
  | _, _ => (Timer.free n, freeSignal n)

/-- R142, R146: slot 0 selects the modes, the match policy and the mask (notes/assumptions/10.md), slot 1 is data
and leaves them, slot 2 clears ready and the signal. What else slots 0 and 1 do is not in source, and neither is a
write to the reserved slot or of a byte or half-word: free (notes/assumptions/8.md, 11.md). -/
def Pio.write (n : Nat) (p : Pio) (_signal : Bool) (slot : Nat) (w : Width) (v : Word) : Pio × Bool :=
  match w, slot with
  | .word, 0 => ({ Pio.free n with
      input := Config.pioInput p.input v
      conditional := Config.pioConditional p.conditional v
      matchAll := Config.pioMatchAll p.matchAll v
      mask := Config.pioMask p.mask v }, freeSignal n)
  | .word, 1 => ({ p with
      data := (Pio.free n).data, ready := (Pio.free n).ready, endLatch := (Pio.free n).endLatch }, freeSignal n)
  | .word, 2 => ({ p with ready := false }, false)
  | _, _ => (Pio.free n, freeSignal n)

/-- R142, R147, R148: slots source, destination, counter, control, start, clear-status. A start in
cycle-stealing mode is remembered; in halting mode the bus write runs the block (Ops.lean). -/
def Dma.write (n : Nat) (d : Dma) (signal : Bool) (slot : Nat) (w : Width) (v : Word) : Dma × Bool :=
  match w, slot with
  | .word, 0 => ({ d with source := v }, signal)
  | .word, 1 => ({ d with destination := v }, signal)
  | .word, 2 => ({ d with counter := v }, signal)
  | .word, 3 => ({ d with
      halting := Config.dmaHalting v, srcInc := Config.dmaSrcInc v, dstInc := Config.dmaDstInc v }, signal)
  | .word, 4 => ({ d with started := d.started || !d.halting }, signal)
  | .word, 5 => ({ d with ready := false }, false)
  | _, _ => (Dma.free n d.haltSignals, freeSignal n)

/-- A generic unit stores bytes like M (R47, R149). -/
def Generic.write (g : Generic) (off : Nat) (w : Width) (v : Word) : Generic :=
  { g with cells := Memory.write g.cells off w v }

/-- What a write at `off` does to the unit itself (R47: slot = off >> 2). -/
def IoUnit.write (n : Nat) (u : IoUnit) (off : Nat) (w : Width) (v : Word) : IoUnit :=
  match u.device with
  | .generic g => { u with device := .generic (g.write off w v) }
  | .timer t =>
    let o := t.write n u.signal (off / 4) w v
    { u with device := .timer o.1, signal := o.2 }
  | .pio p =>
    let o := p.write n u.signal (off / 4) w v
    { u with device := .pio o.1, signal := o.2 }
  | .dma d =>
    let o := d.write n u.signal (off / 4) w v
    { u with device := .dma o.1, signal := o.2 }

/-- The write starts a halting block transfer: a word written to the start slot of a DMA in halting mode (R148). -/
def IoUnit.startsBlock (u : IoUnit) (off : Nat) (w : Width) : Bool :=
  match u.device with
  | .dma d => d.halting && off / 4 == 4 && w == .word
  | .timer _ => false
  | .pio _ => false
  | .generic _ => false

/-! ## Ticks -/

/-- R144: TimerTick. -/
def Timer.tick (t : Timer) (signal : Bool) : Timer × Bool :=
  if t.countEnable then
    let down := t.countdown - 1
    if down = 0 then
      if t.endLatch then ({ t with countdown := t.reload }, signal)
      else ({ t with countdown := t.reload, ready := true, endLatch := true }, signal || t.intEnable)
    else ({ t with countdown := down }, signal)
  else (t, signal)

/-- R146: whether incoming data matches the mask by the policy (notes/assumptions/12.md). -/
def Pio.matched (p : Pio) (incoming : Word) : Bool :=
  if p.matchAll then incoming &&& p.mask == p.mask else incoming &&& p.mask != 0#32

/-- R146: in conditional-input mode the mask and the match policy decide whether the incoming data is ready. -/
def Pio.gated (p : Pio) : Bool := p.input && p.conditional

/-- R146: ticks do work once per end latch: a tick that works sets it, as the timer's does (R144), and none works
while it is set. A tick whose incoming data matches in conditional-input mode works; whether another does, and the
work but for readiness in that mode, is not in source: free (notes/assumptions/11.md). -/
def Pio.tick (n : Nat) (p : Pio) (signal : Bool) : Pio × Bool :=
  let incoming := Config.freeWord n
  let hit := p.gated && p.matched incoming
  if !p.endLatch && (hit || Config.freeBit n) then
    ({ p with
        data := incoming
        ready := if p.gated then p.ready || hit else Config.freeBit (n + 1)
        endLatch := true }, freeSignal n)
  else (p, signal)

/-- The state after one word was transferred (R148). -/
def Dma.advance (d : Dma) : Dma :=
  { d with
    counter := d.counter - 1
    source := if d.srcInc then d.source + 4 else d.source
    destination := if d.dstInc then d.destination + 4 else d.destination }

/-- The unit after one word was transferred. -/
def IoUnit.advanceDma (u : IoUnit) : IoUnit :=
  match u.device with
  | .dma d => { u with device := .dma d.advance }
  | .timer _ => u
  | .pio _ => u
  | .generic _ => u

/-- `ready <- 1; signal <- 1 (if the unit has a level)` (R148). -/
def IoUnit.raiseReady (u : IoUnit) : IoUnit :=
  match u.device with
  | .dma d => { u with device := .dma { d with ready := true }, signal := u.signal || u.hasLevel }
  | .timer _ => u
  | .pio _ => u
  | .generic _ => u

/-- The end of a halting block: ready and the signal only under DMA_HALT_SIGNALS (R148). -/
def IoUnit.finishBlock (u : IoUnit) : IoUnit :=
  match u.device with
  | .dma d => if d.haltSignals then u.raiseReady else u
  | .timer _ => u
  | .pio _ => u
  | .generic _ => u

/-- The end of a cycle-stealing tick: ready and the signal when the counter is 0 (R148). -/
def IoUnit.finishSteal (u : IoUnit) : IoUnit :=
  match u.device with
  | .dma d => if d.counter = 0#32 then u.raiseReady else u
  | .timer _ => u
  | .pio _ => u
  | .generic _ => u

/-- One tick of a timer or parallel I/O; a generic unit has no tick (R149), a DMA's is in Ops.lean. -/
def IoUnit.tick (n : Nat) (u : IoUnit) : IoUnit :=
  match u.device with
  | .timer t =>
    let o := t.tick u.signal
    { u with device := .timer o.1, signal := o.2 }
  | .pio p =>
    let o := p.tick n u.signal
    { u with device := .pio o.1, signal := o.2 }
  | .dma _ => u
  | .generic _ => u

/-- The host injects one byte of a generic unit's data (R149); an offset outside its span is ignored. -/
def IoUnit.inject (off : Nat) (b : Byte) (u : IoUnit) : IoUnit :=
  match u.device with
  | .generic g =>
    if off < 4 * g.count then { u with device := .generic { g with cells := Memory.put g.cells off b } } else u
  | .timer _ => u
  | .pio _ => u
  | .dma _ => u

/-! ## The unit configuration (R39) -/

/-- The part of a unit that only attach and detach decide. -/
def IoUnit.place (u : IoUnit) : Nat × Word × Nat × IrqLevel := (u.id, u.start, u.count, u.level)

/-- R39 (a): two ranges share no byte. -/
def IoUnit.disjoint (u v : IoUnit) : Bool := u.stop ≤ v.start.toNat || v.stop ≤ u.start.toNat

/-- R39 (a) to (d), on a whole list of units. -/
def unitsOk (us : List IoUnit) : Bool :=
  decide (us.Pairwise fun u v => u.disjoint v = true) &&
  decide ((us.map IoUnit.id).Nodup) &&
  decide ((us.filter fun u => u.level == .level3).length ≤ 1) &&
  us.all fun u => u.start.toNat % 4 == 0 && decide (1 ≤ u.count)

end Sys2Proof.Machine
end

