-- ==== Sys2Proof/Machine/Ops.lean ====
section
/-! DEFINITION. The shared operations: registers, the bus dispatcher (20_memory R44 to R47), DMA transfers
(60_exceptions R148), the stack, writing pc (44_control R116), and taking an interrupt and returning from one
(60_exceptions R132 to R138). -/

namespace Sys2Proof.Machine

/-! ## Outcomes -/

/-- The outcome of an operation that yields `α`. -/
abbrev Res (α : Type) := Host.Outcome α Fault Refusal

/-- Goes on from a next; a fault or a refusal ends the sequence. -/
def Res.andThen {α β : Type} (r : Res α) (f : α → Res β) : Res β :=
  match r with
  | .next a => f a
  | .fault e => .fault e
  | .refused e => .refused e

/-- R15, R125: the machine stops; `s` is the state it stops in. -/
def raise {α : Type} (s : State) (reason : FaultReason) : Res α :=
  .fault (.stopped reason { s with run := .faulted reason })

/-! ## Registers -/

/-- `x[i]` (R13). -/
def State.reg (s : State) (r : Reg) : Word := s.regs[r.val]

/-- `x[i] <- v` (R13). -/
def State.setReg (s : State) (r : Reg) (v : Word) : State := { s with regs := s.regs.set r.val v }

/-- `pc <- pc + 4` (R24). -/
def State.advance (s : State) : State := { s with pc := s.pc + 4 }

/-! ## Units -/

/-- The unit whose range holds an address (R44). -/
def State.unitAt (s : State) (a : Word) : Option IoUnit := s.units.find? (·.covers a)

/-- The attached unit of an id. -/
def State.unitOf (s : State) (id : Nat) : Option IoUnit := s.units.find? (·.id == id)

/-- Changes the unit of an id. -/
def State.mapUnit (s : State) (id : Nat) (f : IoUnit → IoUnit) : State :=
  { s with units := s.units.map fun u => if u.id = id then f u else u }

/-- Sets the free values used so far apart from those to come. -/
def State.drawn (s : State) : State := { s with draws := s.draws + Config.drawStride }

/-- The DMA controller of an id. -/
def State.dmaOf (s : State) (id : Nat) : Option Dma :=
  match s.unitOf id with
  | some { device := .dma d, .. } => some d
  | _ => none

/-! ## The bus -/

/-- R44, R46, R47: MemRead. A device's answer may differ from read to read, so the state goes on. -/
def busRead (s : State) (addr : Word) (w : Width) : Res (Word × State) :=
  let a := align addr w
  match s.unitAt a with
  | some u => .next (u.read s.draws (a.toNat - u.start.toNat) w, s.drawn)
  | none =>
    if a.toNat + w.bytes ≤ s.cfg.memSize then .next (leRead s.mem.byte a.toNat w, s)
    else raise s (.unmappedAccess a w .read s.pc)

/-- R45, R46, R47: MemWrite, with `onStart id` for what a word written to the start slot of a halting DMA sets off. -/
def busWriteWith (onStart : Nat → State → Res State) (s : State) (addr : Word) (w : Width) (v : Word) :
    Res State :=
  let a := align addr w
  match s.unitAt a with
  | some u =>
    let off := a.toNat - u.start.toNat
    let s1 := (s.mapUnit u.id fun x => x.write s.draws off w v).drawn
    if u.startsBlock off w then onStart u.id s1 else .next s1
  | none =>
    if a.toNat + w.bytes ≤ s.cfg.memSize then .next { s with mem := Memory.write s.mem a.toNat w v }
    else raise s (.unmappedAccess a w .write s.pc)

/-- R148: DmaTransferOne of unit `id`, through the bus. -/
def dmaTransferWith (onStart : Nat → State → Res State) (id : Nat) (d : Dma) (s : State) : Res State :=
  (busRead s d.source .word).andThen fun p =>
  (busWriteWith onStart p.2 d.destination .word p.1).andThen fun s2 =>
  .next (s2.mapUnit id IoUnit.advanceDma)

/-- R148: `while counter != 0: DmaTransferOne()` of unit `id`, then its end. `fuel` bounds the loop and its
nesting (notes/assumptions/14.md). -/
def dmaBlock : Nat → Nat → State → Res State
  | 0, id, _ => .refused (.dmaUnending id)
  | fuel + 1, id, s =>
    match s.dmaOf id with
    | none => .next s
    | some d =>
      if d.counter = 0#32 then .next (s.mapUnit id IoUnit.finishBlock)
      else (dmaTransferWith (dmaBlock fuel) id d s).andThen (dmaBlock fuel id)

/-- R45: MemWrite. -/
def busWrite (s : State) (addr : Word) (w : Width) (v : Word) : Res State :=
  busWriteWith (dmaBlock Config.dmaFuel) s addr w v

/-! ## The stack and pc -/

/-- `x[7] <- x[7] - 4`, before a push (R106). -/
def State.decSp (s : State) : State := s.setReg Reg.sp (s.reg Reg.sp - 4)

/-- `x[7] <- x[7] + 4`, after a pop (R107). -/
def State.incSp (s : State) : State := s.setReg Reg.sp (s.reg Reg.sp + 4)

/-- `sp <- x[7] - 4; x[7] <- sp; MemWrite(sp, 4, v)` (R106, R118, R134, R135). -/
def pushWord (s : State) (v : Word) : Res State := busWrite s.decSp (s.decSp.reg Reg.sp) .word v

/-- R116: WritePC. -/
def writePC (s : State) (t : Word) : Res State :=
  match s.cfg.target with
  | .mask => .next { s with pc := t &&& 0xFFFFFFFC#32 }
  | .fault =>
    if t.extractLsb' 0 2 = 0#2 then .next { s with pc := t }
    else raise s (.misalignedTarget t s.pc)

/-- `v <- MemRead(x[7], 4); x[7] <- x[7] + 4; WritePC(v)`: what every return does (R120 to R122). -/
def popPC (s : State) : Res State :=
  (busRead s (s.reg Reg.sp) .word).andThen fun p => writePC p.2.incSp p.1

/-! ## Interrupts -/

/-- `u.signal` clears at its source (R134: the acknowledge). -/
def IoUnit.acknowledge (u : IoUnit) : IoUnit := { u with signal := false }

/-- R131: the host clears a maskable request; a level-3 request clears only by the acknowledge
(notes/assumptions/29.md). -/
def IoUnit.clearRequest (u : IoUnit) : IoUnit := if u.level == .level3 then u else { u with signal := false }

/-- R163: the host forces a request. -/
def IoUnit.request (u : IoUnit) : IoUnit := { u with signal := true }

/-- R134: NmiEntry. -/
def nmiEntry (id : Nat) (s : State) : Res State :=
  let s1 := { s.mapUnit id IoUnit.acknowledge with iif := false }
  (pushWord s1 s1.pc).andThen fun s2 => writePC s2 s2.cfg.nmiVector

/-- R135: where the maskable sequence goes. -/
def vectorPC (s : State) : Res State :=
  match s.cfg.intVector with
  | .indirect a => (busRead s a .word).andThen fun p => writePC p.2 p.1
  | .direct a => writePC s a

/-- R135: MaskableEntry. -/
def maskableEntry (s : State) : Res State :=
  let s1 := s.setFlag .gie false
  (pushWord s1 s1.pc).andThen vectorPC

/-- The level line: the OR of the signals of the units of that level (R130). -/
def State.line (s : State) (k : IrqLevel) : Bool := s.units.any fun u => u.level == k && u.signal

/-- R132, step 1: INT0-2 recomputed. -/
def State.recomputePending (s : State) : State :=
  ((s.setFlag .int0 (s.line .level0)).setFlag .int1 (s.line .level1)).setFlag .int2 (s.line .level2)

/-- R132, step 5: some level is pending and individually enabled. -/
def State.pendingEnabled (s : State) : Bool :=
  (s.flag .int0 && s.flag .eint0) || (s.flag .int1 && s.flag .eint1) || (s.flag .int2 && s.flag .eint2)

/-- The signalling level-3 unit, if there is one (R132, step 3). -/
def State.nmiUnit (s : State) : Option IoUnit := s.units.find? fun u => u.level == .level3 && u.signal

/-- R132: Poll. -/
def poll (s : State) : Res State :=
  let s1 := s.recomputePending
  if s1.iif then
    match s1.nmiUnit with
    | some u3 => nmiEntry u3.id s1
    | none => if s1.flag .gie && s1.pendingEnabled then maskableEntry s1 else .next s1
  else .next s1

/-! ## Between two steps -/

/-- One tick of the unit `id` (R144, R146, R148); a unit that is not attached has none. -/
def tickUnit (id : Nat) (s : State) : Res State :=
  match s.dmaOf id with
  | some d =>
    if d.started && !d.halting then
      if d.counter = 0#32 then .next (s.mapUnit id IoUnit.finishSteal)
      else (dmaTransferWith (dmaBlock Config.dmaFuel) id d s).andThen fun s1 =>
        .next (s1.mapUnit id IoUnit.finishSteal)
    else .next s
  | none => .next (s.mapUnit id (IoUnit.tick s.draws)).drawn

/-- `count` ticks of the unit `id`. -/
def tickTimes : Nat → Nat → State → Res State
  | 0, _, s => .next s
  | k + 1, id, s => (tickUnit id s).andThen (tickTimes k id)

/-- One event (R131, R149, R160, R163). -/
def runEvent (e : Event) (s : State) : Res State :=
  match e with
  | .tick id count => tickTimes count id s
  | .force id => .next (s.mapUnit id IoUnit.request)
  | .clear id => .next (s.mapUnit id IoUnit.clearRequest)
  | .inject id off b => .next (s.mapUnit id (IoUnit.inject off b))

/-- The events of one interval, in order. -/
def runEvents : List Event → State → Res State
  | [], s => .next s
  | e :: es, s => (runEvent e s).andThen (runEvents es)

/-- R160: the events of the interval before a step run to completion before it begins. -/
def interval (s : State) : Res State :=
  match s.schedule with
  | [] => .next s
  | es :: rest => runEvents es { s with schedule := rest }

end Sys2Proof.Machine
end

