-- ==== Sys2Proof/Machine/Operands.lean ====
section
/-! DEFINITION. Operand forms (30_encoding R61, R64, R66, 43_load_store_stack R108) and the shared endings of the
instruction rules. -/

namespace Sys2Proof.Machine

/-- The value of a second operand or of an absolute target (R61, R66). -/
def State.src2 (s : State) : Src2 → Word
  | .reg r => s.reg r
  | .imm v => v

/-- R108: the effective address. -/
def State.ea (s : State) : Addr → Word
  | .abs off => off
  | .base adr off => s.reg adr + off

/-- `x[Rd] <- r; SetNZ(r); SR.C <- c; SR.V <- v; pc <- pc + 4` (R90 to R105). -/
def State.finishAlu (s : State) (rd : Reg) (o : AluOut) : State := ((s.setReg rd o.r).setAluFlags o).advance

/-- A value moved into a general register; N and Z when MOVE_SETS_NZ (R79 to R81, R85). -/
def State.finishMove (s : State) (rd : Reg) (v : Word) : State :=
  let s1 := s.setReg rd v
  (if s.cfg.moveSetsNz then s1.setNZ v else s1).advance

/-- A value moved into SR: its low 8 bits, the rest 0 (R82 to R85). -/
def State.finishMoveSr (s : State) (v : Word) : State := { s with sr := srLow v }.advance

/-- Loads (R109, R111, R113): the bus value, already zero-extended, into the register. -/
def loadReg (w : Width) (r : Reg) (addr : Addr) (s : State) : Res State :=
  (busRead s (s.ea addr) w).andThen fun p => .next (p.2.setReg r p.1).advance

/-- Stores (R110, R112, R114): the low bytes of the register to the bus. -/
def storeReg (w : Width) (r : Reg) (addr : Addr) (s : State) : Res State :=
  (busWrite s (s.ea addr) w (s.reg r)).andThen fun s1 => .next s1.advance

/-- A control instruction: `taken` when its condition holds, else `pc <- pc + 4` (R115, R117 to R123). -/
def whenCond (cond : Cond) (s : State) (taken : Res State) : Res State :=
  if condHolds s.sr cond then taken else .next s.advance

end Sys2Proof.Machine
end

