-- ==== Sys2Proof/Machine/ArithLogic.lean ====
section
/-! DEFINITION. Logical and arithmetic instructions (41_arith_logic R90 to R97). -/

namespace Sys2Proof.Machine

/-- R90. -/
def execOr (rd a : Reg) (b : Src2) (s : State) : Res State :=
  .next (s.finishAlu rd (logicOut (s.reg a ||| s.src2 b)))

/-- R91. -/
def execAnd (rd a : Reg) (b : Src2) (s : State) : Res State :=
  .next (s.finishAlu rd (logicOut (s.reg a &&& s.src2 b)))

/-- R92. -/
def execXor (rd a : Reg) (b : Src2) (s : State) : Res State :=
  .next (s.finishAlu rd (logicOut (s.reg a ^^^ s.src2 b)))

/-- R93. -/
def execAdd (rd a : Reg) (b : Src2) (s : State) : Res State :=
  .next (s.finishAlu rd (addC (s.reg a) (s.src2 b) false))

/-- R94: the carry input is C before the instruction. -/
def execAdc (rd a : Reg) (b : Src2) (s : State) : Res State :=
  .next (s.finishAlu rd (addC (s.reg a) (s.src2 b) (s.flag .c)))

/-- R95. -/
def execSub (rd a : Reg) (b : Src2) (s : State) : Res State :=
  .next (s.finishAlu rd (subB (s.reg a) (s.src2 b) false))

/-- R96: the borrow input is C before the instruction. -/
def execSbc (rd a : Reg) (b : Src2) (s : State) : Res State :=
  .next (s.finishAlu rd (subB (s.reg a) (s.src2 b) (s.flag .c)))

/-- R97: the flags of SUB, no result stored. -/
def execCmp (a : Reg) (b : Src2) (s : State) : Res State :=
  .next (s.setAluFlags (subB (s.reg a) (s.src2 b) false)).advance

end Sys2Proof.Machine
end

