-- ==== Sys2Proof/Machine/Control.lean ====
section
/-! DEFINITION. Control transfer (44_control R115 to R123). None writes N, C, V or Z. -/

namespace Sys2Proof.Machine

/-- R117. -/
def execJp (cond : Cond) (target : Src2) (s : State) : Res State :=
  whenCond cond s (writePC s (s.src2 target))

/-- R118: the target is read before r7 changes; the return address is pc + 4. -/
def execCall (cond : Cond) (target : Src2) (s : State) : Res State :=
  whenCond cond s ((pushWord s (s.pc + 4)).andThen fun s1 => writePC s1 (s.src2 target))

/-- R119. -/
def execJr (cond : Cond) (off : Word) (s : State) : Res State :=
  whenCond cond s (writePC s (s.pc + 4 + off))

/-- R120. -/
def execRet (cond : Cond) (s : State) : Res State := whenCond cond s (popPC s)

/-- R121: GIE is set after the pop. -/
def execReti (cond : Cond) (s : State) : Res State :=
  whenCond cond s ((popPC s).andThen fun s1 => .next (s1.setFlag .gie true))

/-- R122: IIF is set after the pop. -/
def execRetn (cond : Cond) (s : State) : Res State :=
  whenCond cond s ((popPC s).andThen fun s1 => .next { s1 with iif := true })

/-- R123: a taken HALT advances pc and stops the run. -/
def execHalt (cond : Cond) (s : State) : Res State :=
  whenCond cond s (.next { s.advance with run := .halted })

end Sys2Proof.Machine
end

