-- ==== Sys2Proof/Machine/LoadStore.lean ====
section
/-! DEFINITION. Stack, loads and stores (43_load_store_stack R106 to R114). None writes a flag. -/

namespace Sys2Proof.Machine

/-- R106: the register is read after r7 was decremented, so PUSH R7 stores the decremented value. -/
def execPush (r : Reg) (s : State) : Res State :=
  (pushWord s (s.decSp.reg r)).andThen fun s1 => .next s1.advance

/-- R107: r7 is incremented after the destination was written, so POP R7 leaves the loaded value plus 4. -/
def execPop (r : Reg) (s : State) : Res State :=
  (busRead s (s.reg Reg.sp) .word).andThen fun p => .next (p.2.setReg r p.1).incSp.advance

/-- R109. -/
def execLoadb (r : Reg) (addr : Addr) (s : State) : Res State := loadReg .byte r addr s

/-- R110. -/
def execStoreb (r : Reg) (addr : Addr) (s : State) : Res State := storeReg .byte r addr s

/-- R111. -/
def execLoadh (r : Reg) (addr : Addr) (s : State) : Res State := loadReg .half r addr s

/-- R112. -/
def execStoreh (r : Reg) (addr : Addr) (s : State) : Res State := storeReg .half r addr s

/-- R113. -/
def execLoad (r : Reg) (addr : Addr) (s : State) : Res State := loadReg .word r addr s

/-- R114. -/
def execStore (r : Reg) (addr : Addr) (s : State) : Res State := storeReg .word r addr s

end Sys2Proof.Machine
end

