-- ==== Sys2Proof/Machine/Move.lean ====
section
/-! DEFINITION. MOVE, five forms (40_move R78 to R85). -/

namespace Sys2Proof.Machine

/-- R79. -/
def execMoveRegReg (rd rs : Reg) (s : State) : Res State := .next (s.finishMove rd (s.reg rs))

/-- R80. -/
def execMoveImmReg (rd : Reg) (imm : Word) (s : State) : Res State := .next (s.finishMove rd imm)

/-- R81. -/
def execMoveSrReg (rd : Reg) (s : State) : Res State := .next (s.finishMove rd (srLow s.sr))

/-- R82, R83. -/
def execMoveRegSr (rs : Reg) (s : State) : Res State := .next (s.finishMoveSr (s.reg rs))

/-- R84. -/
def execMoveSrSr (s : State) : Res State := .next (s.finishMoveSr s.sr)

end Sys2Proof.Machine
end

