-- ==== Sys2Proof/Machine/Shift.lean ====
section
/-! DEFINITION. Shifts and rotates (42_shift_rotate R99 to R105). -/

namespace Sys2Proof.Machine

/-- R101. -/
def execRotl (rd a : Reg) (b : Src2) (s : State) : Res State :=
  .next (s.finishAlu rd (rotlOut (s.reg a) (s.src2 b)))

/-- R102. -/
def execRotr (rd a : Reg) (b : Src2) (s : State) : Res State :=
  .next (s.finishAlu rd (rotrOut (s.reg a) (s.src2 b)))

/-- R103. -/
def execShl (rd a : Reg) (b : Src2) (s : State) : Res State :=
  .next (s.finishAlu rd (shlOut (s.reg a) (s.src2 b)))

/-- R104. -/
def execShr (rd a : Reg) (b : Src2) (s : State) : Res State :=
  .next (s.finishAlu rd (shrOut (s.reg a) (s.src2 b)))

/-- R105. -/
def execAshr (rd a : Reg) (b : Src2) (s : State) : Res State :=
  .next (s.finishAlu rd (ashrOut (s.reg a) (s.src2 b)))

end Sys2Proof.Machine
end

