-- ==== Sys2Proof/Machine/Dispatch.lean ====
section
/-! DEFINITION. One arm per instruction. -/

namespace Sys2Proof.Machine

def exec (i : Instr) (s : State) : Host.Outcome State Fault Refusal :=
  match i with
  | .moveRegReg rd rs => Sys2Proof.Machine.execMoveRegReg rd rs s
  | .moveImmReg rd imm => Sys2Proof.Machine.execMoveImmReg rd imm s
  | .moveSrReg rd => Sys2Proof.Machine.execMoveSrReg rd s
  | .moveRegSr rs => Sys2Proof.Machine.execMoveRegSr rs s
  | .moveSrSr => Sys2Proof.Machine.execMoveSrSr s
  | .or rd a b => Sys2Proof.Machine.execOr rd a b s
  | .and rd a b => Sys2Proof.Machine.execAnd rd a b s
  | .xor rd a b => Sys2Proof.Machine.execXor rd a b s
  | .add rd a b => Sys2Proof.Machine.execAdd rd a b s
  | .adc rd a b => Sys2Proof.Machine.execAdc rd a b s
  | .sub rd a b => Sys2Proof.Machine.execSub rd a b s
  | .sbc rd a b => Sys2Proof.Machine.execSbc rd a b s
  | .rotl rd a b => Sys2Proof.Machine.execRotl rd a b s
  | .rotr rd a b => Sys2Proof.Machine.execRotr rd a b s
  | .shl rd a b => Sys2Proof.Machine.execShl rd a b s
  | .shr rd a b => Sys2Proof.Machine.execShr rd a b s
  | .ashr rd a b => Sys2Proof.Machine.execAshr rd a b s
  | .cmp a b => Sys2Proof.Machine.execCmp a b s
  | .pop r => Sys2Proof.Machine.execPop r s
  | .push r => Sys2Proof.Machine.execPush r s
  | .loadb r addr => Sys2Proof.Machine.execLoadb r addr s
  | .storeb r addr => Sys2Proof.Machine.execStoreb r addr s
  | .loadh r addr => Sys2Proof.Machine.execLoadh r addr s
  | .storeh r addr => Sys2Proof.Machine.execStoreh r addr s
  | .load r addr => Sys2Proof.Machine.execLoad r addr s
  | .store r addr => Sys2Proof.Machine.execStore r addr s
  | .jp cond target => Sys2Proof.Machine.execJp cond target s
  | .call cond target => Sys2Proof.Machine.execCall cond target s
  | .jr cond off => Sys2Proof.Machine.execJr cond off s
  | .ret cond => Sys2Proof.Machine.execRet cond s
  | .reti cond => Sys2Proof.Machine.execReti cond s
  | .retn cond => Sys2Proof.Machine.execRetn cond s
  | .halt cond => Sys2Proof.Machine.execHalt cond s

end Sys2Proof.Machine
end

