-- ==== Sys2Proof/Machine/Cycle.lean ====
section
/-! DEFINITION. The instruction cycle (70_reset_and_hazards R157): fetch, decode, execute, poll. -/

namespace Sys2Proof.Machine

/-- R157: the fetch, through the bus at pc (20_memory R41, R57). -/
def fetch (s : State) : Res (Word × State) := busRead s s.pc .word

/-- R126, R157: the decoder's answer, or the decode failure, in which nothing of the instruction runs. -/
def decoded (w : Word) (s : State) : Res Instr :=
  match decode w with
  | .ok i => .next i
  | .error _ => raise s (.decodeFailure w s.pc)

/-- R157, R132: after a taken HALT no poll runs; after any other completed instruction the poll does. -/
def afterExec (s : State) : Res State := if s.run = .halted then .next s else poll s

/-- R157: one instruction cycle of a running machine. -/
def cycle (s : State) : Res State :=
  (fetch s).andThen fun p =>
  (decoded p.1 p.2).andThen fun i =>
  Res.andThen (exec i p.2) afterExec

end Sys2Proof.Machine
end

