-- ==== Sys2Proof/Machine/Step.lean ====
section
/-! DEFINITION. The step, and placing an instruction where it fetches. -/

namespace Sys2Proof.Machine

/-- R157, R158, R160: the events of the interval before the step, then one instruction cycle; in Halted and
Faulted the same outcome again and nothing changed. -/
def step (s : State) : Host.Outcome State Fault Refusal :=
  match s.run with
  | .running => (interval s).andThen cycle
  | .halted => .next s
  | .faulted r => .fault (.stopped r s)

/-- `s` with the instruction of bits `w` (those above `nbits` zero) in flat memory at pc, and running, with an
empty interval before the step. It stands for the host's load of a program (R156, notes/assumptions/3.md);
step fetches it when the four bytes at pc are flat memory and in no unit, as at reset. -/
def State.withFetchWord (s : State) (nbits w : Nat) : State :=
  { s with
    mem := Memory.write s.mem (align s.pc .word).toNat .word (BitVec.ofNat 32 (w % 2 ^ nbits))
    run := .running
    schedule := match s.schedule with
      | [] => []
      | es :: rest => [] :: es :: rest }

end Sys2Proof.Machine
end

