-- ==== Sys2Proof/Machine/HostOps.lean ====
section
/-! DEFINITION. What the host does between two steps (70_reset_and_hazards R154 to R164): reset, image load, raw
memory access, attach and detach, the run loop. Host errors are no faults of the machine (60_exceptions R129). -/

namespace Sys2Proof.Machine

/-- Errors reported to the host at once, with no state change (R129, R156, R161). -/
inductive HostError where
  /-- A registration breaks R39 or names a span that is no positive multiple of 4. -/
  | configuration
  /-- The image is longer than flat memory. -/
  | capacity
  /-- A raw access at or above MEM_SIZE. -/
  | range
  /-- An image form the source does not define (D33). -/
  | imageFormat
  deriving DecidableEq, Repr

/-! ## Reset and load -/

/-- Each unit reset by its own reset operation, with free values of its own (R154). -/
def resetUnits : Nat → List IoUnit → List IoUnit
  | _, [] => []
  | n, u :: us => u.afterReset n :: resetUnits (n + Config.drawStride) us

/-- R154, R35: memory keeps its contents, units stay attached and are each reset, the rest as R35 gives it. -/
def hostReset (s : State) : State :=
  { s with
    regs := Vector.replicate 8 0#32
    pc := 0#32
    sr := 0#32
    iif := true
    run := .running
    units := resetUnits s.draws s.units
    draws := s.draws + Config.drawStride * s.units.length }

/-- Bytes at `a`, `a + 1`, ... (R156). -/
def Memory.putAll : Memory → Nat → List Byte → Memory
  | m, _, [] => m
  | m, a, b :: bs => Memory.putAll (Memory.put m a b) (a + 1) bs

/-- The image forms of R156. -/
inductive Image where
  /-- Raw bytes. -/
  | bytes (bs : List Byte)
  /-- A string, one byte per character (notes/assumptions/26.md). -/
  | text (chars : List Char)
  /-- "An array of pre-formed bit-strings": refused, its format is not in the source (D33). -/
  | bitStrings (strings : List String)
  deriving DecidableEq, Repr

/-- R156: the image copied to address 0 of flat memory, not through the bus. -/
def hostLoad (img : Image) (s : State) : Except HostError State :=
  match img with
  | .bytes bs =>
    if bs.length ≤ s.cfg.memSize then .ok { s with mem := Memory.putAll s.mem 0 bs } else .error .capacity
  | .text cs =>
    if cs.length ≤ s.cfg.memSize then
      .ok { s with mem := Memory.putAll s.mem 0 (cs.map fun ch => BitVec.ofNat 8 ch.toNat) }
    else .error .capacity
  | .bitStrings _ => .error .imageFormat

/-! ## Raw memory access (R161) -/

/-- R161: on flat memory only, with forced alignment and no device side effect. -/
def hostRead (s : State) (a : Word) (w : Width) : Except HostError Word :=
  if a.toNat < s.cfg.memSize then .ok (leRead s.mem.byte (align a w).toNat w) else .error .range

/-- R161. -/
def hostWrite (s : State) (a : Word) (w : Width) (v : Word) : Except HostError State :=
  if a.toNat < s.cfg.memSize then .ok { s with mem := Memory.write s.mem (align a w).toNat w v }
  else .error .range

/-! ## Attach and detach (R162) -/

/-- The devices a registration can name (R142). -/
inductive DeviceKind where
  | timer
  | pio
  | dma (haltSignals : Bool)
  /-- `span` bytes, as the caller gives them. -/
  | generic (span : Int)
  deriving DecidableEq, Repr

/-- One unit of a registration. -/
structure UnitSpec where
  id : Nat
  start : Word
  level : IrqLevel
  kind : DeviceKind
  deriving DecidableEq, Repr

/-- R129, R142: a generic span is a positive multiple of 4. -/
def DeviceKind.spanOk : DeviceKind → Bool
  | .timer => true
  | .pio => true
  | .dma _ => true
  | .generic span => decide (0 < span) && decide (span % 4 = 0)

/-- The device in its reset state (R162). -/
def DeviceKind.device (n : Nat) : DeviceKind → Device
  | .timer => .timer (Timer.free n)
  | .pio => .pio (Pio.free n)
  | .dma h => .dma (Dma.free n h)
  | .generic span => .generic { count := span.toNat / 4, cells := [], epoch := n }

/-- The request signal of a unit just attached: not in source, but a generic unit raises none (R149). -/
def DeviceKind.signal (n : Nat) : DeviceKind → Bool
  | .timer => freeSignal n
  | .pio => freeSignal n
  | .dma _ => freeSignal n
  | .generic _ => false

/-- The unit a specification asks for, its device in its reset state (R162). -/
def UnitSpec.unit (n : Nat) (u : UnitSpec) : IoUnit where
  id := u.id
  start := u.start
  level := u.level
  signal := u.kind.signal n
  device := u.kind.device n

/-- The units of one registration, each with free values of its own. -/
def specUnits : Nat → List UnitSpec → List IoUnit
  | _, [] => []
  | n, u :: us => u.unit n :: specUnits (n + Config.drawStride) us

/-- R39, R162: the units of one registration are checked as a whole and added whole or not at all. -/
def hostAttach (specs : List UnitSpec) (s : State) : Except HostError State :=
  let us := s.units ++ specUnits s.draws specs
  if specs.all (fun u => u.kind.spanOk) && unitsOk us then
    .ok { s with units := us, draws := s.draws + Config.drawStride * specs.length }
  else .error .configuration

/-- R162: the unit is gone from the bus and from the poll. -/
def hostDetach (id : Nat) (s : State) : State := { s with units := s.units.filter fun u => u.id != id }

/-- R163: force the request signal of an attached unit to 1. -/
def hostForce (id : Nat) (s : State) : State := s.mapUnit id IoUnit.request

/-- R131: clear the maskable request of an attached unit. -/
def hostClear (id : Nat) (s : State) : State := s.mapUnit id IoUnit.clearRequest

/-- R149: inject a byte of a generic unit's data. -/
def hostInject (id off : Nat) (b : Byte) (s : State) : State := s.mapUnit id (IoUnit.inject off b)

/-! ## The run loop (R157, R159) -/

/-- The outcomes of R15 and R159; `stuck` is the model's own, a step it refuses (notes/assumptions/14.md). -/
inductive RunOutcome where
  | continue
  | halted
  | faulted (r : FaultReason)
  | paused
  | stuck
  deriving DecidableEq, Repr

/-- R157, R159: exactly one Step, its outcome and the machine after it. -/
def singleStep (s : State) : RunOutcome × State :=
  match step s with
  | .next t => (if t.run = .halted then .halted else .continue, t)
  | .fault (.stopped r t) => (.faulted r, t)
  | .refused _ => (.stuck, s)

/-- R159: run-to-halt, given the host's "continue running" flag as it stands before each step; at the end of the
list the observation ends with `continue` (notes/assumptions/17.md). -/
def runToHalt : List Bool → State → RunOutcome × State
  | [], s => (.continue, s)
  | false :: _, s => (.paused, s)
  | true :: flags, s =>
    match singleStep s with
    | (.continue, t) => runToHalt flags t
    | r => r

end Sys2Proof.Machine
end

