-- ==== Sys2Proof/WellFormed.lean ====
section
/-! DEFINITION. Which instruction terms an encoding can hold: every immediate and offset is a sign-extended
20-bit value (30_encoding R70). Register fields and conditions are well-formed by their types (R69, R71). -/

namespace Sys2Proof

/-- `v` is in the range R70 gives an immediate: `[0xFFF80000, 0xFFFFFFFF] ∪ [0x00000000, 0x0007FFFF]`. -/
def fitsImm20 (v : Word) : Bool := v.toNat ≤ 0x0007FFFF || 0xFFF80000 ≤ v.toNat

/-- The immediate of a second operand fits its field. -/
def Src2.wellFormed : Src2 → Bool
  | .reg _ => true
  | .imm v => fitsImm20 v

/-- The offset of an address fits its field. -/
def Addr.wellFormed : Addr → Bool
  | .abs off => fitsImm20 off
  | .base _ off => fitsImm20 off

/-- The instruction has an encoding. -/
def Instr.wellFormed : Instr → Bool
  | .moveRegReg _ _ => true
  | .moveImmReg _ imm => fitsImm20 imm
  | .moveSrReg _ => true
  | .moveRegSr _ => true
  | .moveSrSr => true
  | .or _ _ b => b.wellFormed
  | .and _ _ b => b.wellFormed
  | .xor _ _ b => b.wellFormed
  | .add _ _ b => b.wellFormed
  | .adc _ _ b => b.wellFormed
  | .sub _ _ b => b.wellFormed
  | .sbc _ _ b => b.wellFormed
  | .rotl _ _ b => b.wellFormed
  | .rotr _ _ b => b.wellFormed
  | .shl _ _ b => b.wellFormed
  | .shr _ _ b => b.wellFormed
  | .ashr _ _ b => b.wellFormed
  | .cmp _ b => b.wellFormed
  | .pop _ => true
  | .push _ => true
  | .loadb _ a => a.wellFormed
  | .storeb _ a => a.wellFormed
  | .loadh _ a => a.wellFormed
  | .storeh _ a => a.wellFormed
  | .load _ a => a.wellFormed
  | .store _ a => a.wellFormed
  | .jp _ t => t.wellFormed
  | .call _ t => t.wellFormed
  | .jr _ off => fitsImm20 off
  | .ret _ => true
  | .reti _ => true
  | .retn _ => true
  | .halt _ => true

end Sys2Proof
end

