-- ==== Sys2Proof/Safety.lean ====
section
/-! DEFINITION. What counts as a safe run, in the terms the statements use: the machine's invariant, where an
access goes, and what an instruction leaves unchanged. -/

namespace Sys2Proof.Machine

/-! ## The invariant of the machine -/

/-- R25: pc is a multiple of 4. -/
def State.pcAligned (s : State) : Bool := s.pc.toNat % 4 == 0

/-- R26: SR[31:11] is always 0. -/
def State.srClean (s : State) : Bool := s.sr.extractLsb' 11 21 == 0#21

/-- Every listed address is below `bound`. -/
def Memory.below (bound : Nat) (m : Memory) : Bool := m.all fun x => decide (x.1 < bound)

/-- The bytes of a unit are in canonical form and inside its span (R38, R149). -/
def IoUnit.cellsOk (u : IoUnit) : Bool :=
  match u.device with
  | .generic g => Memory.wf g.cells && Memory.below (4 * g.count) g.cells
  | .timer _ => true
  | .pio _ => true
  | .dma _ => true

/-- Flat memory and every unit's bytes are canonical and in their ranges (R37). -/
def State.bytesOk (s : State) : Bool :=
  Memory.wf s.mem && Memory.below s.cfg.memSize s.mem && s.units.all IoUnit.cellsOk

/-- What holds of the machine at reset and between any two steps: parameters as R37 allows them, pc aligned
(R25), SR's undefined bits 0 (R26), bytes canonical and in range, and the unit configuration of R39. -/
def State.wf (s : State) : Bool :=
  s.cfg.wf && s.pcAligned && s.srClean && s.bytesOk && unitsOk s.units

/-! ## Where an access goes (R44, R45) -/

/-- The access reaches flat memory. -/
def State.flatAt (s : State) (addr : Word) (w : Width) : Bool :=
  (s.unitAt (align addr w)).isNone && decide ((align addr w).toNat + w.bytes ≤ s.cfg.memSize)

/-- The access reaches nothing (R46). -/
def State.unmappedAt (s : State) (addr : Word) (w : Width) : Bool :=
  (s.unitAt (align addr w)).isNone && decide (s.cfg.memSize < (align addr w).toNat + w.bytes)

/-- The access reaches the unit `u`. -/
def State.hitsUnit (s : State) (addr : Word) (w : Width) (u : IoUnit) : Prop :=
  s.unitAt (align addr w) = some u

/-- The offset an access has in a unit (R47). -/
def IoUnit.offset (u : IoUnit) (addr : Word) (w : Width) : Nat := (align addr w).toNat - u.start.toNat

/-- The value flat memory holds at an access (R40). -/
def State.flatValue (s : State) (addr : Word) (w : Width) : Word := leRead s.mem.byte (align addr w).toNat w

/-- The byte of flat memory at an address. -/
def State.byteAt (s : State) (a : Nat) : Byte := s.mem.byte a

/-- The bytes an access of width `w` to `addr` touches are `align addr w` and those after it. -/
def touches (addr : Word) (w : Width) (a : Nat) : Prop :=
  (align addr w).toNat ≤ a ∧ a < (align addr w).toNat + w.bytes

/-- A read at `addr` gives a value: it reaches a unit or flat memory (R44). -/
def State.readable (s : State) (addr : Word) (w : Width) : Bool :=
  (s.unitAt (align addr w)).isSome || s.flatAt addr w

/-- The value a read gives: the unit's answer, or the bytes of flat memory (R44, R47). -/
def State.valueAt (s : State) (addr : Word) (w : Width) : Word :=
  match s.unitAt (align addr w) with
  | some u => u.read s.draws (u.offset addr w) w
  | none => s.flatValue addr w

/-- A write at `addr` is done at once: it reaches flat memory, or a unit in which it starts no halting DMA block
(R45, R148). -/
def State.writable (s : State) (addr : Word) (w : Width) : Bool :=
  match s.unitAt (align addr w) with
  | some u => !u.startsBlock (u.offset addr w) w
  | none => s.flatAt addr w

/-- WritePC goes through for the target `a` (R116). -/
def State.targetOk (s : State) (a : Word) : Bool := s.cfg.target == .mask || a.toNat % 4 == 0

/-- The address of the word that contains `a` (R116). -/
def wordOf (a : Word) : Word := BitVec.ofNat 32 (a.toNat / 4 * 4)

/-- R132, step 5, on the lines themselves: some level signals and is individually enabled. -/
def State.acceptable (s : State) : Bool :=
  (s.line .level0 && s.flag .eint0) || (s.line .level1 && s.flag .eint1) || (s.line .level2 && s.flag .eint2)

/-- R74: the words that fail to decode. -/
def reservedWord (w : Word) : Bool :=
  [0b01110#5, 0b01111#5, 0b11100#5, 0b11101#5, 0b11110#5].contains (opField w) ||
  ([0b11000#5, 0b11001#5, 0b11010#5, 0b11011#5, 0b11111#5].contains (opField w) && condField w == 0b1111#4)

/-- R61 to R68, R75: every bit that no field of the word's format uses is 0, JR has Fn = 1, RET TYPE is not 10. -/
def canonicalWord (w : Word) : Bool :=
  let op := (opField w).toNat
  let fn := fnBit w
  let low17 := w.extractLsb' 0 17 == 0#17
  if op = 0 then
    !w.getLsbD 22 &&
    match w.getLsbD 21, w.getLsbD 20 with
    | false, false => fn || low17
    | false, true => !fn && w.extractLsb' 0 20 == 0#20
    | true, false => !fn && destField w == 0 && low17
    | true, true => !fn && destField w == 0 && w.extractLsb' 0 20 == 0#20
  else if op ≤ 12 then fn || low17
  else if op = 13 then destField w == 0 && (fn || low17)
  else if op ≤ 17 then !fn && w.extractLsb' 0 23 == 0#23
  else if op ≤ 23 then fn || src1Field w == 0
  else if op ≤ 25 then w.extractLsb' 20 2 == 0#2 && (fn || low17)
  else if op = 26 then w.extractLsb' 20 2 == 0#2 && fn
  else if op = 27 then !fn && w.extractLsb' 2 20 == 0#20 && typeField w != 0b10#2
  else !fn && w.extractLsb' 0 22 == 0#22

/-! ## What is left unchanged -/

/-- Every byte of flat memory reads as before. -/
def sameMemory (s t : State) : Prop := ∀ a, t.byteAt a = s.byteAt a

/-- Every register but those listed reads as before. -/
def sameRegsBut (rs : List Reg) (s t : State) : Prop := ∀ r, r ∉ rs → t.reg r = s.reg r

/-- Every bit of SR but those listed is as before. -/
def sameSrBut (bits : List Nat) (s t : State) : Prop := ∀ k, k ∉ bits → t.sr.getLsbD k = s.sr.getLsbD k

/-- IIF, the run state, the parameters and the schedule are as before. -/
def sameControl (s t : State) : Prop :=
  t.iif = s.iif ∧ t.run = s.run ∧ t.cfg = s.cfg ∧ t.schedule = s.schedule

/-- Flat memory and the units, with all they hold, are as before. -/
def sameStore (s t : State) : Prop := sameMemory s t ∧ t.units = s.units

/-- Nothing but the listed registers, the listed SR bits and pc has changed. -/
def onlyCore (rs : List Reg) (bits : List Nat) (s t : State) : Prop :=
  sameRegsBut rs s t ∧ sameSrBut bits s t ∧ sameStore s t ∧ sameControl s t

/-- The positions of N, Z, C and V (R26). -/
def nzcvBits : List Nat := [SrBit.n.pos, SrBit.z.pos, SrBit.c.pos, SrBit.v.pos]

/-- The positions of INT0-2 (R26). -/
def intBits : List Nat := [SrBit.int0.pos, SrBit.int1.pos, SrBit.int2.pos]

/-- INT0-2 of `t` are the level lines of `s` (R132, step 1). -/
def pendingAre (s t : State) : Prop :=
  t.flag .int0 = s.line .level0 ∧ t.flag .int1 = s.line .level1 ∧ t.flag .int2 = s.line .level2

/-- The four flags of a state are N and Z of `r`, and `c` and `v` (R30). -/
def flagsAre (t : State) (r : Word) (c v : Bool) : Prop :=
  t.flag .n = r.msb ∧ t.flag .z = decide (r = 0#32) ∧ t.flag .c = c ∧ t.flag .v = v

/-- The whole effect of an ALU instruction (R90 to R105): the destinations hold `r`, the flags are as given, pc has
advanced, and nothing else has changed. -/
def aluEffect (s t : State) (dest : List Reg) (r : Word) (c v : Bool) : Prop :=
  (∀ x ∈ dest, t.reg x = r) ∧ flagsAre t r c v ∧ t.pc = s.pc + 4 ∧ onlyCore dest nzcvBits s t

/-- The integer does not fit 32 signed bits (R87). -/
def signedOverflow (x : Int) : Bool := decide (x < -2 ^ 31) || decide (2 ^ 31 ≤ x)

/-- The whole effect of a MOVE into a general register (R79 to R81, R85). -/
def moveEffect (s t : State) (rd : Reg) (v : Word) : Prop :=
  t.reg rd = v ∧ t.pc = s.pc + 4 ∧
  (if s.cfg.moveSetsNz then
    t.flag .n = v.msb ∧ t.flag .z = decide (v = 0#32) ∧ onlyCore [rd] [SrBit.n.pos, SrBit.z.pos] s t
  else onlyCore [rd] [] s t)

/-- Bytes `align addr w` to its end hold the low bytes of `v`, and every other byte reads as before (R40, R45). -/
def storedFlat (addr : Word) (w : Width) (v : Word) (s t : State) : Prop :=
  (∀ k, k < w.bytes → t.byteAt ((align addr w).toNat + k) = byteOf v k) ∧
  ∀ a, ¬ touches addr w a → t.byteAt a = s.byteAt a

/-- The effect of a bus write that starts no block (R45): in flat memory the stored bytes and no unit; in a unit
that unit alone, and no byte of flat memory (R38). -/
def stored (addr : Word) (w : Width) (v : Word) (s t : State) : Prop :=
  (s.unitAt (align addr w) = none → storedFlat addr w v s t ∧ t.units = s.units) ∧
  ∀ u, s.hitsUnit addr w u → sameMemory s t ∧
    t.units = s.units.map fun x => if x.id = u.id then x.write s.draws (u.offset addr w) w v else x

end Sys2Proof.Machine

namespace Sys2Proof

open Machine

/-! ## Which instructions write what -/

/-- R22: the general registers an instruction writes. -/
def Instr.writtenRegs : Instr → List Reg
  | .moveRegReg rd _ => [rd]
  | .moveImmReg rd _ => [rd]
  | .moveSrReg rd => [rd]
  | .moveRegSr _ => []
  | .moveSrSr => []
  | .or rd _ _ => [rd]
  | .and rd _ _ => [rd]
  | .xor rd _ _ => [rd]
  | .add rd _ _ => [rd]
  | .adc rd _ _ => [rd]
  | .sub rd _ _ => [rd]
  | .sbc rd _ _ => [rd]
  | .rotl rd _ _ => [rd]
  | .rotr rd _ _ => [rd]
  | .shl rd _ _ => [rd]
  | .shr rd _ _ => [rd]
  | .ashr rd _ _ => [rd]
  | .cmp _ _ => []
  | .pop r => [r, Reg.sp]
  | .push _ => [Reg.sp]
  | .loadb r _ => [r]
  | .storeb _ _ => []
  | .loadh r _ => [r]
  | .storeh _ _ => []
  | .load r _ => [r]
  | .store _ _ => []
  | .jp _ _ => []
  | .call _ _ => [Reg.sp]
  | .jr _ _ => []
  | .ret _ => [Reg.sp]
  | .reti _ => [Reg.sp]
  | .retn _ => [Reg.sp]
  | .halt _ => []

/-- R26, R30: the SR bits an instruction may change; `none` for MOVE to SR, which writes SR whole. -/
def Instr.writtenSr : Instr → Option (List Nat)
  | .moveRegReg _ _ => some [SrBit.n.pos, SrBit.z.pos]
  | .moveImmReg _ _ => some [SrBit.n.pos, SrBit.z.pos]
  | .moveSrReg _ => some [SrBit.n.pos, SrBit.z.pos]
  | .moveRegSr _ => none
  | .moveSrSr => none
  | .or _ _ _ => some nzcvBits
  | .and _ _ _ => some nzcvBits
  | .xor _ _ _ => some nzcvBits
  | .add _ _ _ => some nzcvBits
  | .adc _ _ _ => some nzcvBits
  | .sub _ _ _ => some nzcvBits
  | .sbc _ _ _ => some nzcvBits
  | .rotl _ _ _ => some nzcvBits
  | .rotr _ _ _ => some nzcvBits
  | .shl _ _ _ => some nzcvBits
  | .shr _ _ _ => some nzcvBits
  | .ashr _ _ _ => some nzcvBits
  | .cmp _ _ => some nzcvBits
  | .pop _ => some []
  | .push _ => some []
  | .loadb _ _ => some []
  | .storeb _ _ => some []
  | .loadh _ _ => some []
  | .storeh _ _ => some []
  | .load _ _ => some []
  | .store _ _ => some []
  | .jp _ _ => some []
  | .call _ _ => some []
  | .jr _ _ => some []
  | .ret _ => some []
  | .reti _ => some [SrBit.gie.pos]
  | .retn _ => some []
  | .halt _ => some []

/-- R49: the instruction may write to the bus. -/
def Instr.stores : Instr → Bool
  | .push _ => true
  | .storeb _ _ => true
  | .storeh _ _ => true
  | .store _ _ => true
  | .call _ _ => true
  | .moveRegReg _ _ => false
  | .moveImmReg _ _ => false
  | .moveSrReg _ => false
  | .moveRegSr _ => false
  | .moveSrSr => false
  | .or _ _ _ => false
  | .and _ _ _ => false
  | .xor _ _ _ => false
  | .add _ _ _ => false
  | .adc _ _ _ => false
  | .sub _ _ _ => false
  | .sbc _ _ _ => false
  | .rotl _ _ _ => false
  | .rotr _ _ _ => false
  | .shl _ _ _ => false
  | .shr _ _ _ => false
  | .ashr _ _ _ => false
  | .cmp _ _ => false
  | .pop _ => false
  | .loadb _ _ => false
  | .loadh _ _ => false
  | .load _ _ => false
  | .jp _ _ => false
  | .jr _ _ => false
  | .ret _ => false
  | .reti _ => false
  | .retn _ => false
  | .halt _ => false

end Sys2Proof

namespace Sys2Proof.Machine

/-! ## Raw access -/

/-- The low bytes of a value that an access of a width holds, zero-extended (R40, R161). -/
def lowBytes (w : Width) (v : Word) : Word :=
  match w with
  | .byte => v &&& 0xFF#32
  | .half => v &&& 0xFFFF#32
  | .word => v

/-! ## Block transfers -/

/-- The address of the `k`-th word of a block, for an address that increments or does not (R148). -/
def blockAddr (a : Word) (inc : Bool) (k : Nat) : Word := if inc then a + BitVec.ofNat 32 (4 * k) else a

/-- The bytes after the four at `src` were copied to `dst`. -/
def copyWord (src dst : Nat) (f : Nat → Byte) (a : Nat) : Byte :=
  if dst ≤ a ∧ a < dst + 4 then f (src + (a - dst)) else f a

/-- The bytes after `n` words were copied in turn, each from and to its aligned address (R148, R42). -/
def copyWords : Nat → (src dst : Word) → (srcInc dstInc : Bool) → (Nat → Byte) → Nat → Byte
  | 0, _, _, _, _, f => f
  | n + 1, src, dst, srcInc, dstInc, f =>
    copyWords n (blockAddr src srcInc 1) (blockAddr dst dstInc 1) srcInc dstInc
      (copyWord (src.toNat / 4 * 4) (dst.toNat / 4 * 4) f)

/-! ## Repeated ticks -/

/-- `k` ticks of a timer and its request signal (R144). -/
def Timer.ticks : Nat → Timer → Bool → Timer × Bool
  | 0, t, signal => (t, signal)
  | k + 1, t, signal => Timer.ticks k (t.tick signal).1 (t.tick signal).2

end Sys2Proof.Machine
end

