-- ==== Sys2Proof/Certificates/Slice0/Obligations.lean ====
section
/-! DEFINITION. The statements for the provers. Each docstring names the rule of spec/ it formalises. -/

open Sys2Proof Sys2Proof.Machine

/-! ## Encoding -/

/-- R75, R61 to R73: decoding the canonical word of a well-formed instruction gives it back, every operand at every
value. The field positions are the spec's decision D1 (notes/assumptions/18.md). -/
def Obligations.DecodeOfEncodeIsIdentity : Prop :=
  ∀ i : Instr, i.wellFormed = true → decode (encode i) = .ok i

/-- R70, R72: whatever the decoder returns is well-formed: its immediates are sign-extended 20-bit values. -/
def Obligations.DecodedInstructionIsWellFormed : Prop :=
  ∀ (w : Word) (i : Instr), decode w = .ok i → i.wellFormed = true

/-- R75: re-encoding what a canonical word decodes to gives the word. The field positions are the spec's decision
D1 (notes/assumptions/18.md). -/
def Obligations.CanonicalWordReencodesToItself : Prop :=
  ∀ (w : Word) (i : Instr), canonicalWord w = true → decode w = .ok i → encode i = w

/-- R74: exactly the reserved words fail to decode, and every other word decodes. The five unassigned opcodes are
the spec's decision D1 and C4. -/
def Obligations.DecodeRefusesExactlyReservedWords : Prop :=
  ∀ w : Word,
    (reservedWord w = true → decode w = .error (.unknownOpcode w)) ∧
    (reservedWord w = false → ∃ i, decode w = .ok i)

/-- The example words of R79 to R123 decode to the instructions they stand for. -/
def Obligations.SpecExampleWordsDecode : Prop :=
  decode 0x01020000#32 = .ok (.moveRegReg 2 1) ∧
  decode 0x24000005#32 = .ok (.add 0 0 (.imm 5#32)) ∧
  decode 0x151000FF#32 = .ok (.and 2 1 (.imm 0xFF#32)) ∧
  decode 0x4D100004#32 = .ok (.rotr 2 1 (.imm 4#32)) ∧
  decode 0x80800000#32 = .ok (.pop 1) ∧
  decode 0x94A00001#32 = .ok (.loadb 1 (.base 2 1#32)) ∧
  decode 0xD40FFFEC#32 = .ok (.jr .always 0xFFFFFFEC#32) ∧
  decode 0xD8000003#32 = .ok (.retn .always) ∧
  decode 0xF9C00000#32 = .ok (.halt .z)

/-- R71, R115: the predicate of each of the 15 codes on the bits of SR (C 0, V 1, N 2, Z 3). The numbering and the
bit positions are the spec's decisions D3 and D2 (notes/assumptions/18.md, 19.md). -/
def Obligations.ConditionCodesTestTheFlags : Prop :=
  ∀ (code : BitVec 4) (cond : Cond) (sr : Word), condOf code = some cond →
    condHolds sr cond =
      let c := sr.getLsbD 0
      let v := sr.getLsbD 1
      let n := sr.getLsbD 2
      let z := sr.getLsbD 3
      match code.toNat with
      | 0 => true
      | 1 => n
      | 2 => !n
      | 3 => c
      | 4 => !c
      | 5 => v
      | 6 => !v
      | 7 => z
      | 8 => !z
      | 9 => c || z
      | 10 => !c && !z
      | 11 => n != v
      | 12 => (n != v) || z
      | 13 => n == v
      | _ => (n == v) && !z

/-! ## Reset and the invariant -/

/-- R35 as the spec decides it (D18, notes/assumptions/20.md): registers, pc and SR are 0, IIF is 1, the machine
runs; memory lists nothing and no unit is attached (notes/assumptions/1.md, 3.md). -/
def Obligations.ResetLeavesTheStatedValues : Prop :=
  (∀ r : Reg, State.reset.reg r = 0#32) ∧ State.reset.pc = 0#32 ∧ State.reset.sr = 0#32 ∧
  State.reset.iif = true ∧ State.reset.run = .running ∧ State.reset.mem = [] ∧ State.reset.units = []

/-- The invariant holds at reset. -/
def Obligations.ResetIsWellFormed : Prop := State.reset.wf = true

/-- R25, R26, R37, R38, R39: from every state that meets the invariant, a step gives one that meets it: pc a
multiple of 4, SR[31:11] zero, memory canonical and inside MEM_SIZE, every unit's bytes inside its span, the unit
configuration legal. -/
def Obligations.StepKeepsWellFormed : Prop :=
  ∀ s t : State, s.wf = true → step s = .next t → t.wf = true

/-- R9, R162: no step changes a parameter, and no step attaches, detaches, moves or re-levels a unit. -/
def Obligations.StepKeepsTheConfiguration : Prop :=
  ∀ s t : State, step s = .next t → t.cfg = s.cfg ∧ t.units.map IoUnit.place = s.units.map IoUnit.place

/-! ## Arithmetic, logic, shifts -/

/-- R86 as R87 reads it: the add primitive is the sum modulo 2^32, its carry the unsigned verdict, its overflow the
signed one. -/
def Obligations.AddPrimitiveIsExact : Prop :=
  ∀ (a b : Word) (cin : Bool),
    (addC a b cin).r = a + b + (if cin then 1 else 0) ∧
    (addC a b cin).c = decide (2 ^ 32 ≤ a.toNat + b.toNat + cin.toNat) ∧
    (addC a b cin).v = signedOverflow (a.toInt + b.toInt + cin.toNat)

/-- R90, R91, R92: OR, AND and XOR, their words and their whole effect. -/
def Obligations.LogicInstructionsCompute : Prop :=
  (∀ w : Word,
    (opField w = 0b00001#5 → decode w = .ok (.or (destField w) (src1Field w) (src2Of w))) ∧
    (opField w = 0b00010#5 → decode w = .ok (.and (destField w) (src1Field w) (src2Of w))) ∧
    (opField w = 0b00011#5 → decode w = .ok (.xor (destField w) (src1Field w) (src2Of w)))) ∧
  ∀ (rd a : Reg) (b : Src2) (s : State),
    (∃ t, exec (.or rd a b) s = .next t ∧ aluEffect s t [rd] (s.reg a ||| s.src2 b) false false) ∧
    (∃ t, exec (.and rd a b) s = .next t ∧ aluEffect s t [rd] (s.reg a &&& s.src2 b) false false) ∧
    (∃ t, exec (.xor rd a b) s = .next t ∧ aluEffect s t [rd] (s.reg a ^^^ s.src2 b) false false)

/-- R93, R94: ADD and ADC, their words and their whole effect; C is the unsigned carry out, V signed overflow. -/
def Obligations.AddInstructionsCompute : Prop :=
  (∀ w : Word,
    (opField w = 0b00100#5 → decode w = .ok (.add (destField w) (src1Field w) (src2Of w))) ∧
    (opField w = 0b00101#5 → decode w = .ok (.adc (destField w) (src1Field w) (src2Of w)))) ∧
  ∀ (rd a : Reg) (b : Src2) (s : State),
    let x := s.reg a
    let y := s.src2 b
    let cin := s.flag .c
    (∃ t, exec (.add rd a b) s = .next t ∧
      aluEffect s t [rd] (x + y) (decide (2 ^ 32 ≤ x.toNat + y.toNat)) (signedOverflow (x.toInt + y.toInt))) ∧
    (∃ t, exec (.adc rd a b) s = .next t ∧
      aluEffect s t [rd] (x + y + (if cin then 1 else 0)) (decide (2 ^ 32 ≤ x.toNat + y.toNat + cin.toNat))
        (signedOverflow (x.toInt + y.toInt + cin.toNat)))

/-- R95, R96: SUB and SBC, their words and their whole effect; C = 1 exactly on a borrow, V signed overflow. -/
def Obligations.SubInstructionsCompute : Prop :=
  (∀ w : Word,
    (opField w = 0b00110#5 → decode w = .ok (.sub (destField w) (src1Field w) (src2Of w))) ∧
    (opField w = 0b00111#5 → decode w = .ok (.sbc (destField w) (src1Field w) (src2Of w)))) ∧
  ∀ (rd a : Reg) (b : Src2) (s : State),
    let x := s.reg a
    let y := s.src2 b
    let bin := s.flag .c
    (∃ t, exec (.sub rd a b) s = .next t ∧
      aluEffect s t [rd] (x - y) (decide (x.toNat < y.toNat)) (signedOverflow (x.toInt - y.toInt))) ∧
    (∃ t, exec (.sbc rd a b) s = .next t ∧
      aluEffect s t [rd] (x - y - (if bin then 1 else 0)) (decide (x.toNat < y.toNat + bin.toNat))
        (signedOverflow (x.toInt - y.toInt - bin.toNat)))

/-- R97: CMP, its words, its whole effect, and after it each named unsigned or signed relation as a condition. -/
def Obligations.CompareSetsTheRelations : Prop :=
  (∀ w : Word, opField w = 0b01101#5 → decode w = .ok (.cmp (src1Field w) (src2Of w))) ∧
  ∀ (a : Reg) (b : Src2) (s : State),
    let x := s.reg a
    let y := s.src2 b
    ∃ t, exec (.cmp a b) s = .next t ∧
      aluEffect s t [] (x - y) (decide (x.toNat < y.toNat)) (signedOverflow (x.toInt - y.toInt)) ∧
      condHolds t.sr .c = decide (x.toNat < y.toNat) ∧
      condHolds t.sr .ule = decide (x.toNat ≤ y.toNat) ∧
      condHolds t.sr .ugt = decide (y.toNat < x.toNat) ∧
      condHolds t.sr .nc = decide (y.toNat ≤ x.toNat) ∧
      condHolds t.sr .slt = decide (x.toInt < y.toInt) ∧
      condHolds t.sr .sle = decide (x.toInt ≤ y.toInt) ∧
      condHolds t.sr .sge = decide (y.toInt ≤ x.toInt) ∧
      condHolds t.sr .sgt = decide (y.toInt < x.toInt)

/-- R99, R101, R102: ROTL and ROTR, their words and their whole effect; the amount is modulo 32, C the last bit
rotated out, and 0 for amount 0. -/
def Obligations.RotateInstructionsCompute : Prop :=
  (∀ w : Word,
    (opField w = 0b01000#5 → decode w = .ok (.rotl (destField w) (src1Field w) (src2Of w))) ∧
    (opField w = 0b01001#5 → decode w = .ok (.rotr (destField w) (src1Field w) (src2Of w)))) ∧
  ∀ (rd a : Reg) (b : Src2) (s : State),
    let x := s.reg a
    let amt := (s.src2 b).toNat % 32
    (∃ t, exec (.rotl rd a b) s = .next t ∧
      aluEffect s t [rd] (x.rotateLeft amt) (if amt = 0 then false else x.getLsbD (32 - amt)) false) ∧
    (∃ t, exec (.rotr rd a b) s = .next t ∧
      aluEffect s t [rd] (x.rotateRight amt) (if amt = 0 then false else x.getLsbD (amt - 1)) false)

/-- R99, R103, R104, R105: SHL, SHR and ASHR, their words and their whole effect. -/
def Obligations.ShiftInstructionsCompute : Prop :=
  (∀ w : Word,
    (opField w = 0b01010#5 → decode w = .ok (.shl (destField w) (src1Field w) (src2Of w))) ∧
    (opField w = 0b01011#5 → decode w = .ok (.shr (destField w) (src1Field w) (src2Of w))) ∧
    (opField w = 0b01100#5 → decode w = .ok (.ashr (destField w) (src1Field w) (src2Of w)))) ∧
  ∀ (rd a : Reg) (b : Src2) (s : State),
    let x := s.reg a
    let amt := (s.src2 b).toNat % 32
    (∃ t, exec (.shl rd a b) s = .next t ∧
      aluEffect s t [rd] (x <<< amt) (if amt = 0 then false else x.getLsbD (32 - amt)) false) ∧
    (∃ t, exec (.shr rd a b) s = .next t ∧
      aluEffect s t [rd] (x >>> amt) (if amt = 0 then false else x.getLsbD (amt - 1)) false) ∧
    (∃ t, exec (.ashr rd a b) s = .next t ∧
      aluEffect s t [rd] (x.sshiftRight amt) (if amt = 0 then false else x.getLsbD (amt - 1)) false)

/-! ## MOVE -/

/-- R79, R80, R81, R85: the moves into a general register; N and Z by MOVE_SETS_NZ, C and V unchanged as the spec
decides (D7). MOVE SR, Rd moves SR as it was before the instruction, its low 8 bits. -/
def Obligations.MovesIntoARegister : Prop :=
  ∀ (rd rs : Reg) (imm : Word) (s : State),
    (∃ t, exec (.moveRegReg rd rs) s = .next t ∧ moveEffect s t rd (s.reg rs)) ∧
    (∃ t, exec (.moveImmReg rd imm) s = .next t ∧ moveEffect s t rd imm) ∧
    (∃ t, exec (.moveSrReg rd) s = .next t ∧ moveEffect s t rd ((s.sr.extractLsb' 0 8).setWidth 32))

/-- R82, R83, R84, R85: the moves into SR transfer the low 8 bits and clear the rest (D5, D34); a MOVE word with SR
as destination decodes so whatever Fn is (D6). -/
def Obligations.MovesIntoStatusRegister : Prop :=
  (∀ w : Word, opField w = 0b00000#5 → w.getLsbD 21 = true →
    decode w = .ok (if w.getLsbD 20 then .moveSrSr else .moveRegSr (src2Field w))) ∧
  ∀ (rs : Reg) (s : State),
    (∃ t, exec (.moveRegSr rs) s = .next t ∧ t.pc = s.pc + 4 ∧
      (∀ k, t.sr.getLsbD k = (decide (k < 8) && (s.reg rs).getLsbD k)) ∧
      sameRegsBut [] s t ∧ sameStore s t ∧ sameControl s t) ∧
    (∃ t, exec .moveSrSr s = .next t ∧ t.pc = s.pc + 4 ∧
      (∀ k, t.sr.getLsbD k = (decide (k < 8) && s.sr.getLsbD k)) ∧
      sameRegsBut [] s t ∧ sameStore s t ∧ sameControl s t)

/-! ## Stack, loads and stores -/

/-- R106: PUSH stores, below the old r7, the register as read after the decrement (D21), at the masked address (D22);
r7 keeps its low bits. -/
def Obligations.PushStoresBelowTheStackPointer : Prop :=
  ∀ (r : Reg) (s : State), s.writable (s.reg Reg.sp - 4) .word = true →
    ∃ t, exec (.push r) s = .next t ∧ t.reg Reg.sp = s.reg Reg.sp - 4 ∧
      stored (s.reg Reg.sp - 4) .word (if r = Reg.sp then s.reg Reg.sp - 4 else s.reg r) s t ∧
      t.pc = s.pc + 4 ∧ sameRegsBut [Reg.sp] s t ∧ sameSrBut [] s t ∧ sameControl s t

/-- R107: POP loads the word at r7, then adds 4 to r7; POP R7 leaves the loaded value plus 4 (D21). That a read of a
timer, parallel I/O or DMA slot leaves the units as they were is the model's choice (notes/assumptions/7.md). -/
def Obligations.PopLoadsAndRaisesTheStackPointer : Prop :=
  ∀ (r : Reg) (s : State), s.readable (s.reg Reg.sp) .word = true →
    ∃ t, exec (.pop r) s = .next t ∧
      (r ≠ Reg.sp → t.reg r = s.valueAt (s.reg Reg.sp) .word ∧ t.reg Reg.sp = s.reg Reg.sp + 4) ∧
      (r = Reg.sp → t.reg Reg.sp = s.valueAt (s.reg Reg.sp) .word + 4) ∧
      t.pc = s.pc + 4 ∧ onlyCore [r, Reg.sp] [] s t

/-- R108, R109, R111, R113: the loads, zero-extended (D9), from flat memory or a unit; from flat memory the register
holds the bytes at the aligned address, least significant first. That a read of a timer, parallel I/O or DMA slot
leaves the units as they were is the model's choice (notes/assumptions/7.md). -/
def Obligations.LoadsReadTheirWidth : Prop :=
  ∀ (r : Reg) (addr : Addr) (s : State),
    (s.readable (s.ea addr) .byte = true → ∃ t, exec (.loadb r addr) s = .next t ∧
      t.reg r = s.valueAt (s.ea addr) .byte ∧ (∀ k, 8 ≤ k → (t.reg r).getLsbD k = false) ∧
      (s.flatAt (s.ea addr) .byte = true → byteOf (t.reg r) 0 = s.byteAt (s.ea addr).toNat) ∧
      t.pc = s.pc + 4 ∧ onlyCore [r] [] s t) ∧
    (s.readable (s.ea addr) .half = true → ∃ t, exec (.loadh r addr) s = .next t ∧
      t.reg r = s.valueAt (s.ea addr) .half ∧ (∀ k, 16 ≤ k → (t.reg r).getLsbD k = false) ∧
      (s.flatAt (s.ea addr) .half = true →
        ∀ k, k < 2 → byteOf (t.reg r) k = s.byteAt ((s.ea addr).toNat / 2 * 2 + k)) ∧
      t.pc = s.pc + 4 ∧ onlyCore [r] [] s t) ∧
    (s.readable (s.ea addr) .word = true → ∃ t, exec (.load r addr) s = .next t ∧
      t.reg r = s.valueAt (s.ea addr) .word ∧
      (s.flatAt (s.ea addr) .word = true →
        ∀ k, k < 4 → byteOf (t.reg r) k = s.byteAt ((s.ea addr).toNat / 4 * 4 + k)) ∧
      t.pc = s.pc + 4 ∧ onlyCore [r] [] s t)

/-- R110, R112: STOREB and STOREH, their words, what they store and leave, and their fault on an unmapped address;
STORE (R114) likewise where it starts no halting DMA block (HaltingDmaCopiesItsBlock says what one that does start
it does). That a byte or half-word written to a DMA's start slot starts no block, and so changes no byte of memory, is
the model's choice (notes/assumptions/8.md). -/
def Obligations.StoresWriteTheirWidth : Prop :=
  (∀ w : Word,
    (opField w = 0b10011#5 → decode w = .ok (.storeb (destField w) (addrOf w))) ∧
    (opField w = 0b10101#5 → decode w = .ok (.storeh (destField w) (addrOf w))) ∧
    (opField w = 0b10111#5 → decode w = .ok (.store (destField w) (addrOf w)))) ∧
  ∀ (r : Reg) (addr : Addr) (s : State),
    (s.writable (s.ea addr) .byte = true → ∃ t, exec (.storeb r addr) s = .next t ∧
      stored (s.ea addr) .byte (s.reg r) s t ∧
      t.pc = s.pc + 4 ∧ sameRegsBut [] s t ∧ sameSrBut [] s t ∧ sameControl s t) ∧
    (s.unmappedAt (s.ea addr) .byte = true → ∃ left, exec (.storeb r addr) s =
      .fault (.stopped (.unmappedAccess (s.ea addr) .byte .write s.pc) left) ∧ sameStore s left) ∧
    (s.writable (s.ea addr) .half = true → ∃ t, exec (.storeh r addr) s = .next t ∧
      stored (s.ea addr) .half (s.reg r) s t ∧
      t.pc = s.pc + 4 ∧ sameRegsBut [] s t ∧ sameSrBut [] s t ∧ sameControl s t) ∧
    (s.unmappedAt (s.ea addr) .half = true → ∃ left, exec (.storeh r addr) s =
      .fault (.stopped (.unmappedAccess (s.ea addr &&& 0xFFFFFFFE#32) .half .write s.pc) left) ∧ sameStore s left) ∧
    (s.writable (s.ea addr) .word = true → ∃ t, exec (.store r addr) s = .next t ∧
      stored (s.ea addr) .word (s.reg r) s t ∧
      t.pc = s.pc + 4 ∧ sameRegsBut [] s t ∧ sameSrBut [] s t ∧ sameControl s t) ∧
    (s.unmappedAt (s.ea addr) .word = true → ∃ left, exec (.store r addr) s =
      .fault (.stopped (.unmappedAccess (s.ea addr &&& 0xFFFFFFFC#32) .word .write s.pc) left) ∧ sameStore s left)

/-- R40, R41, R54: after a STORE to flat memory every width reads the stored bytes, least significant first. -/
def Obligations.StoredWordReadsBackInEveryWidth : Prop :=
  ∀ (r : Reg) (addr : Addr) (s t : State), s.wf = true → s.flatAt (s.ea addr) .word = true →
    exec (.store r addr) s = .next t →
    let a := align (s.ea addr) .word
    let v := s.reg r
    t.valueAt a .word = v ∧
    t.valueAt a .half = (v.extractLsb' 0 16).setWidth 32 ∧
    t.valueAt (a + 2) .half = (v.extractLsb' 16 16).setWidth 32 ∧
    ∀ k, k < 4 → t.valueAt (a + BitVec.ofNat 32 k) .byte = (v.extractLsb' (8 * k) 8).setWidth 32

/-- R38, R47, R149: a STORE into a generic unit is read back from the unit and changes no byte of flat memory. -/
def Obligations.GenericUnitHoldsWhatIsStored : Prop :=
  ∀ (r : Reg) (addr : Addr) (s : State) (u : IoUnit) (g : Generic),
    s.hitsUnit (s.ea addr) .word u → u.device = .generic g →
    ∃ t, exec (.store r addr) s = .next t ∧ t.valueAt (s.ea addr) .word = s.reg r ∧ sameMemory s t ∧
      t.pc = s.pc + 4 ∧ sameRegsBut [] s t ∧ sameSrBut [] s t ∧ sameControl s t

/-- R46, R125, R127 as the spec decides (D10): an access to an address in no unit and at or above MEM_SIZE stops the
machine with the aligned address, the width, the kind and pc. The accesses are those of the loads and stores, of POP,
PUSH, CALL and the returns; the fetch (R157); the vector read of a maskable entry in Indirect mode (R135, D29; its push
is in EntryWithUnmappedStackStops); and each transfer of a DMA, at a tick or in a STORE that starts a block (R148; slot
4 is start by D31, any word starts by notes/assumptions/13.md). -/
def Obligations.UnmappedAccessStopsTheMachine : Prop :=
  (∀ (r : Reg) (addr : Addr) (cond : Cond) (target : Src2) (s : State),
    (s.unmappedAt (s.ea addr) .byte = true → ∃ left, exec (.loadb r addr) s =
      .fault (.stopped (.unmappedAccess (s.ea addr) .byte .read s.pc) left)) ∧
    (s.unmappedAt (s.ea addr) .half = true → ∃ left, exec (.loadh r addr) s =
      .fault (.stopped (.unmappedAccess (s.ea addr &&& 0xFFFFFFFE#32) .half .read s.pc) left)) ∧
    (s.unmappedAt (s.ea addr) .word = true → ∃ left, exec (.load r addr) s =
      .fault (.stopped (.unmappedAccess (s.ea addr &&& 0xFFFFFFFC#32) .word .read s.pc) left)) ∧
    (s.unmappedAt (s.ea addr) .byte = true → ∃ left, exec (.storeb r addr) s =
      .fault (.stopped (.unmappedAccess (s.ea addr) .byte .write s.pc) left)) ∧
    (s.unmappedAt (s.ea addr) .half = true → ∃ left, exec (.storeh r addr) s =
      .fault (.stopped (.unmappedAccess (s.ea addr &&& 0xFFFFFFFE#32) .half .write s.pc) left)) ∧
    (s.unmappedAt (s.ea addr) .word = true → ∃ left, exec (.store r addr) s =
      .fault (.stopped (.unmappedAccess (s.ea addr &&& 0xFFFFFFFC#32) .word .write s.pc) left)) ∧
    (s.unmappedAt (s.reg Reg.sp) .word = true → ∃ left, exec (.pop r) s =
      .fault (.stopped (.unmappedAccess (s.reg Reg.sp &&& 0xFFFFFFFC#32) .word .read s.pc) left)) ∧
    (s.unmappedAt (s.reg Reg.sp - 4) .word = true → ∃ left, exec (.push r) s =
      .fault (.stopped (.unmappedAccess ((s.reg Reg.sp - 4) &&& 0xFFFFFFFC#32) .word .write s.pc) left)) ∧
    (condHolds s.sr cond = true →
      (s.unmappedAt (s.reg Reg.sp - 4) .word = true → ∃ left, exec (.call cond target) s =
        .fault (.stopped (.unmappedAccess ((s.reg Reg.sp - 4) &&& 0xFFFFFFFC#32) .word .write s.pc) left)) ∧
      (s.unmappedAt (s.reg Reg.sp) .word = true → ∀ i, i = .ret cond ∨ i = .reti cond ∨ i = .retn cond →
        ∃ left, exec i s =
          .fault (.stopped (.unmappedAccess (s.reg Reg.sp &&& 0xFFFFFFFC#32) .word .read s.pc) left)))) ∧
  (∀ s : State, s.run = .running → s.schedule = [] → s.unmappedAt s.pc .word = true →
    ∃ left, step s = .fault (.stopped (.unmappedAccess (s.pc &&& 0xFFFFFFFC#32) .word .read s.pc) left)) ∧
  (∀ (s : State) (a : Word), s.iif = true → s.nmiUnit = none → s.flag .gie = true → s.acceptable = true →
    s.cfg.intVector = .indirect a → s.writable (s.reg Reg.sp - 4) .word = true → s.unmappedAt a .word = true →
    ∃ left, poll s = .fault (.stopped (.unmappedAccess (a &&& 0xFFFFFFFC#32) .word .read s.pc) left)) ∧
  (∀ (r : Reg) (addr : Addr) (s : State) (u : IoUnit) (d : Dma), u ∈ s.units → u.device = .dma d →
    (s.units.map IoUnit.id).Nodup → d.counter ≠ 0#32 →
    ∀ run : Res State,
      (d.started = true ∧ d.halting = false ∧ run = tickUnit u.id s) ∨
      (d.halting = true ∧ s.hitsUnit (s.ea addr) .word u ∧ u.offset (s.ea addr) .word / 4 = 4 ∧
        run = exec (.store r addr) s) →
      (s.unmappedAt d.source .word = true → ∃ left, run =
        .fault (.stopped (.unmappedAccess (d.source &&& 0xFFFFFFFC#32) .word .read s.pc) left)) ∧
      (s.readable d.source .word = true → s.unmappedAt d.destination .word = true → ∃ left, run =
        .fault (.stopped (.unmappedAccess (d.destination &&& 0xFFFFFFFC#32) .word .write s.pc) left)))

/-! ## Control transfer -/

/-- R117, R119, R116: a taken JP goes to its absolute target, a taken JR to pc + 4 + off, each to the word that
contains it, and nothing else changes. -/
def Obligations.TakenJumpsGoToTheirTarget : Prop :=
  ∀ (cond : Cond) (target : Src2) (off : Word) (s : State), condHolds s.sr cond = true →
    (s.targetOk (s.src2 target) = true → ∃ t, exec (.jp cond target) s = .next t ∧
      t.pc = wordOf (s.src2 target) ∧ onlyCore [] [] s t) ∧
    (s.targetOk (s.pc + 4 + off) = true → ∃ t, exec (.jr cond off) s = .next t ∧
      t.pc = wordOf (s.pc + 4 + off) ∧ onlyCore [] [] s t)

/-- R118: a taken CALL pushes the address of the next instruction and goes to its target as read before r7 changed
(D13, D36). -/
def Obligations.TakenCallPushesTheReturnAddress : Prop :=
  ∀ (cond : Cond) (target : Src2) (s : State), condHolds s.sr cond = true →
    s.writable (s.reg Reg.sp - 4) .word = true → s.targetOk (s.src2 target) = true →
    ∃ t, exec (.call cond target) s = .next t ∧ t.pc = wordOf (s.src2 target) ∧
      t.reg Reg.sp = s.reg Reg.sp - 4 ∧ stored (s.reg Reg.sp - 4) .word (s.pc + 4) s t ∧
      sameRegsBut [Reg.sp] s t ∧ sameSrBut [] s t ∧ sameControl s t

/-- R120, R121, R122: a taken RET, RETI or RETN pops pc; RET restores neither GIE nor IIF, RETI sets GIE, RETN sets
IIF. That a read of a timer, parallel I/O or DMA slot leaves the units as they were is the model's choice
(notes/assumptions/7.md). -/
def Obligations.TakenReturnsPopThePc : Prop :=
  ∀ (cond : Cond) (s : State), condHolds s.sr cond = true → s.readable (s.reg Reg.sp) .word = true →
    s.targetOk (s.valueAt (s.reg Reg.sp) .word) = true →
    let v := s.valueAt (s.reg Reg.sp) .word
    (∃ t, exec (.ret cond) s = .next t ∧ t.pc = wordOf v ∧ t.reg Reg.sp = s.reg Reg.sp + 4 ∧
      onlyCore [Reg.sp] [] s t) ∧
    (∃ t, exec (.reti cond) s = .next t ∧ t.pc = wordOf v ∧ t.reg Reg.sp = s.reg Reg.sp + 4 ∧
      t.flag .gie = true ∧ onlyCore [Reg.sp] [SrBit.gie.pos] s t) ∧
    (∃ t, exec (.retn cond) s = .next t ∧ t.pc = wordOf v ∧ t.reg Reg.sp = s.reg Reg.sp + 4 ∧
      t.iif = true ∧ sameRegsBut [Reg.sp] s t ∧ sameSrBut [] s t ∧ sameStore s t ∧
      t.run = s.run ∧ t.cfg = s.cfg ∧ t.schedule = s.schedule)

/-- R123: a taken HALT advances pc, stops the run, and keeps all else (D16). -/
def Obligations.TakenHaltStopsTheRun : Prop :=
  ∀ (cond : Cond) (s : State), condHolds s.sr cond = true →
    ∃ t, exec (.halt cond) s = .next t ∧ t.run = .halted ∧ t.pc = s.pc + 4 ∧
      sameRegsBut [] s t ∧ sameSrBut [] s t ∧ sameStore s t ∧ t.iif = s.iif ∧ t.cfg = s.cfg ∧
      t.schedule = s.schedule

/-- 44_control's opening and R24: a condition that is false makes the instruction a no-op apart from pc + 4. -/
def Obligations.FalseConditionOnlyAdvances : Prop :=
  ∀ (cond : Cond) (target : Src2) (off : Word) (s : State) (i : Instr), condHolds s.sr cond = false →
    (i = .jp cond target ∨ i = .call cond target ∨ i = .jr cond off ∨ i = .ret cond ∨ i = .reti cond ∨
      i = .retn cond ∨ i = .halt cond) →
    exec i s = .next { s with pc := s.pc + 4 }

/-- R116, R125 under MISALIGNED_TARGET = fault (D11): a target with low bits set stops the machine. -/
def Obligations.MisalignedTargetStopsTheMachine : Prop :=
  ∀ (cond : Cond) (target : Src2) (off : Word) (s : State), condHolds s.sr cond = true →
    s.cfg.target = .fault →
    ((s.src2 target).toNat % 4 ≠ 0 → ∃ left, exec (.jp cond target) s =
      .fault (.stopped (.misalignedTarget (s.src2 target) s.pc) left)) ∧
    ((s.pc + 4 + off).toNat % 4 ≠ 0 → ∃ left, exec (.jr cond off) s =
      .fault (.stopped (.misalignedTarget (s.pc + 4 + off) s.pc) left)) ∧
    ((s.src2 target).toNat % 4 ≠ 0 → s.writable (s.reg Reg.sp - 4) .word = true →
      ∃ left, exec (.call cond target) s =
        .fault (.stopped (.misalignedTarget (s.src2 target) s.pc) left)) ∧
    (s.readable (s.reg Reg.sp) .word = true → (s.valueAt (s.reg Reg.sp) .word).toNat % 4 ≠ 0 →
      ∀ i, i = .ret cond ∨ i = .reti cond ∨ i = .retn cond → ∃ left, exec i s =
        .fault (.stopped (.misalignedTarget (s.valueAt (s.reg Reg.sp) .word) s.pc) left))

/-! ## The step -/

/-- R157, R160: a running machine first runs the events of the interval before the step; then it fetches at pc,
decodes, executes, and polls unless the instruction halted it. -/
def Obligations.StepRunsTheDecodedInstruction : Prop :=
  (∀ s : State, s.run = .running → s.schedule = [] → step s = cycle s) ∧
  (∀ (s s0 : State) (es : List Event) (rest : List (List Event)), s.run = .running → s.schedule = es :: rest →
    runEvents es { s with schedule := rest } = .next s0 → step s = cycle s0) ∧
  (∀ (s s1 : State) (w : Word) (i : Instr), busRead s s.pc .word = .next (w, s1) → decode w = .ok i →
    cycle s = match exec i s1 with
      | .next t => if t.run = .halted then .next t else poll t
      | .fault e => .fault e
      | .refused e => .refused e)

/-- R126: a word that fails to decode stops the machine with nothing changed and pc at the word (D17 for pc). -/
def Obligations.DecodeFailureStopsUnchanged : Prop :=
  ∀ s : State, s.run = .running → s.schedule = [] → s.flatAt s.pc .word = true →
    reservedWord (s.flatValue s.pc .word) = true →
    step s = .fault (.stopped (.decodeFailure (s.flatValue s.pc .word) s.pc)
      { s with run := .faulted (.decodeFailure (s.flatValue s.pc .word) s.pc) })

/-- R158: a step on a stopped machine gives the same outcome and changes nothing. -/
def Obligations.StoppedMachineStaysStopped : Prop :=
  ∀ s : State, (s.run = .halted → step s = .next s) ∧
    ∀ reason, s.run = .faulted reason → step s = .fault (.stopped reason s)

/-- R156, R157: on the machine after reset, the next step runs the instruction of the word placed at pc, then polls
(notes/assumptions/3.md). -/
def Obligations.PlacedWordRunsFirstAfterReset : Prop :=
  ∀ (w : Nat) (i : Instr), decodeTableWord 32 w = some i →
    step (State.reset.withFetchWord 32 w) =
      Res.andThen (exec i (State.reset.withFetchWord 32 w)) afterExec

/-! ## Interrupts -/

/-- R132: the poll recomputes INT0-2 and accepts nothing while IIF = 0, or with no level-3 request while GIE = 0 or no
level is both signalling and enabled. -/
def Obligations.PollWithNothingToAcceptOnlySetsPending : Prop :=
  ∀ s : State,
    (s.iif = false ∨ (s.nmiUnit = none ∧ (s.flag .gie = false ∨ s.acceptable = false))) →
    ∃ t, poll s = .next t ∧ pendingAre s t ∧ t.pc = s.pc ∧ onlyCore [] intBits s t

/-- R134, R137: with IIF = 1 a signalling level-3 unit is accepted before any maskable level: its signal and IIF are
cleared, the resume pc is pushed, pc goes to NMI_VECTOR; GIE, EINT0-2 and the flags stay. -/
def Obligations.NonMaskableEntrySavesAndVectors : Prop :=
  ∀ (s : State) (u : IoUnit), s.iif = true → s.nmiUnit = some u →
    (s.mapUnit u.id IoUnit.acknowledge).writable (s.reg Reg.sp - 4) .word = true →
    s.targetOk s.cfg.nmiVector = true →
    ∃ t, poll s = .next t ∧ t.iif = false ∧ t.reg Reg.sp = s.reg Reg.sp - 4 ∧ t.pc = wordOf s.cfg.nmiVector ∧
      stored (s.reg Reg.sp - 4) .word s.pc (s.mapUnit u.id IoUnit.acknowledge) t ∧
      pendingAre s t ∧ sameSrBut intBits s t ∧ sameRegsBut [Reg.sp] s t ∧
      t.run = s.run ∧ t.cfg = s.cfg ∧ t.schedule = s.schedule

/-- R135, R137: with IIF = 1, no level-3 request, GIE = 1 and a level signalling and enabled, one maskable entry: GIE is
cleared, the resume pc is pushed, pc goes to the vector (Direct), or to the word at it as it stands after the push
(Indirect, stack and vector word in flat memory); no signal is cleared, IIF, EINT0-2 and the flags stay. -/
def Obligations.MaskableEntrySavesAndVectors : Prop :=
  ∀ (s : State) (a : Word), s.iif = true → s.nmiUnit = none → s.flag .gie = true → s.acceptable = true →
    (s.cfg.intVector = .direct a → s.writable (s.reg Reg.sp - 4) .word = true → s.targetOk a = true →
      ∃ t, poll s = .next t ∧ t.pc = wordOf a ∧ t.flag .gie = false ∧ t.reg Reg.sp = s.reg Reg.sp - 4 ∧
        stored (s.reg Reg.sp - 4) .word s.pc s t ∧ pendingAre s t ∧ sameSrBut (SrBit.gie.pos :: intBits) s t ∧
        sameRegsBut [Reg.sp] s t ∧ sameControl s t) ∧
    (s.cfg.intVector = .indirect a → s.flatAt (s.reg Reg.sp - 4) .word = true → s.flatAt a .word = true →
      let handler := leRead (Memory.byte (Memory.write s.mem (align (s.reg Reg.sp - 4) .word).toNat .word s.pc))
        (align a .word).toNat .word
      s.targetOk handler = true →
      ∃ t, poll s = .next t ∧ t.pc = wordOf handler ∧ t.flag .gie = false ∧ t.reg Reg.sp = s.reg Reg.sp - 4 ∧
        stored (s.reg Reg.sp - 4) .word s.pc s t ∧ pendingAre s t ∧ sameSrBut (SrBit.gie.pos :: intBits) s t ∧
        sameRegsBut [Reg.sp] s t ∧ sameControl s t)

/-- R127 for an entry, R134, R135 (D29): an accepted interrupt whose push is unmapped stops the machine at the resume
pc. -/
def Obligations.EntryWithUnmappedStackStops : Prop :=
  ∀ s : State, s.iif = true → s.unmappedAt (s.reg Reg.sp - 4) .word = true →
    (s.nmiUnit.isSome = true ∨ (s.flag .gie = true ∧ s.acceptable = true)) →
    ∃ left, poll s =
      .fault (.stopped (.unmappedAccess ((s.reg Reg.sp - 4) &&& 0xFFFFFFFC#32) .word .write s.pc) left)

/-- R135, R136, R138: a maskable interrupt accepted with its stack word in flat memory, then RETI: back at the resume
pc with every register, IIF and every SR bit but INT0-2 as before the poll, and all memory but the stack word. Where
the Indirect vector word is a timer, parallel I/O or DMA slot, that its read leaves the units as they were is the
model's choice (notes/assumptions/7.md). -/
def Obligations.RetiUndoesTheMaskableEntry : Prop :=
  ∀ s t : State, s.pcAligned = true → s.flatAt (s.reg Reg.sp - 4) .word = true → s.iif = true →
    s.nmiUnit = none → s.flag .gie = true → s.acceptable = true → poll s = .next t →
    ∃ r, exec (.reti .always) t = .next r ∧ r.pc = s.pc ∧ sameRegsBut [] s r ∧ sameSrBut intBits s r ∧
      r.iif = s.iif ∧ r.run = s.run ∧ r.units = s.units ∧
      ∀ a, ¬ touches (s.reg Reg.sp - 4) .word a → r.byteAt a = s.byteAt a

/-- R134, R136, R138: a non-maskable interrupt accepted with its stack word in flat memory, then RETN: back at the
resume pc with every register, IIF and every SR bit but INT0-2 as before the poll. -/
def Obligations.RetnUndoesTheNonMaskableEntry : Prop :=
  ∀ (s t : State) (u : IoUnit), s.pcAligned = true → s.flatAt (s.reg Reg.sp - 4) .word = true → s.iif = true →
    s.nmiUnit = some u → poll s = .next t →
    ∃ r, exec (.retn .always) t = .next r ∧ r.pc = s.pc ∧ sameRegsBut [] s r ∧ sameSrBut intBits s r ∧
      r.iif = s.iif ∧ r.run = s.run ∧ r.units = (s.mapUnit u.id IoUnit.acknowledge).units ∧
      ∀ a, ¬ touches (s.reg Reg.sp - 4) .word a → r.byteAt a = s.byteAt a

/-- R163, R130: a signal the host forces on an attached unit is seen by the next poll: its level's line is 1, and at
level 3 a non-maskable request stands. -/
def Obligations.ForcedSignalIsSeenByThePoll : Prop :=
  ∀ (s : State) (u : IoUnit), u ∈ s.units →
    (hostForce u.id s).line u.level = true ∧ (u.level = .level3 → (hostForce u.id s).nmiUnit.isSome = true)

/-- R131, D23: the host clears the maskable request of an attached unit, of any level but 3, whose request clears only
by the acknowledge (as the model reads R131, notes/assumptions/29.md); the clear is an event between two steps. Once no
other unit of its level signals, the level's line is 0. -/
def Obligations.HostClearLowersTheRequest : Prop :=
  ∀ (s : State) (u : IoUnit), u ∈ s.units → (s.units.map IoUnit.id).Nodup →
    runEvent (.clear u.id) s = .next (hostClear u.id s) ∧
    (u.level ≠ .level3 →
      { u with signal := false } ∈ (hostClear u.id s).units ∧
      (∀ x ∈ s.units, x.id ≠ u.id → x ∈ (hostClear u.id s).units) ∧
      ((∀ x ∈ s.units, x.id ≠ u.id → x.level = u.level → x.signal = false) →
        (hostClear u.id s).line u.level = false)) ∧
    (u.level = .level3 → hostClear u.id s = s)

/-! ## Rules of the whole machine -/

/-- R31: among the instructions only a taken RETN changes IIF, and sets it; the poll changes IIF only by the
non-maskable entry, which clears it. -/
def Obligations.OnlyRetnAndNmiChangeTheEnableFlipFlop : Prop :=
  (∀ (i : Instr) (s t : State), exec i s = .next t → t.iif ≠ s.iif →
    t.iif = true ∧ ∃ cond, i = .retn cond ∧ condHolds s.sr cond = true) ∧
  (∀ s t : State, poll s = .next t → t.iif ≠ s.iif →
    t.iif = false ∧ ∃ u ∈ s.units, u.level = .level3 ∧ u.signal = true)

/-- R26, R30: no instruction changes an SR bit that the tables do not let it write. -/
def Obligations.OnlyListedStatusBitsChange : Prop :=
  ∀ (i : Instr) (s t : State) (bits : List Nat), exec i s = .next t → i.writtenSr = some bits →
    sameSrBut bits s t

/-- R22: no instruction changes a general register that the table does not let it write. -/
def Obligations.OnlyListedRegistersChange : Prop :=
  ∀ (i : Instr) (s t : State), exec i s = .next t → sameRegsBut i.writtenRegs s t

/-- R49, R51: an instruction that makes no write access changes no byte of memory and no unit. That a load, POP or
return which reads a timer, parallel I/O or DMA slot leaves the units as they were is the model's choice, not a rule's
(notes/assumptions/7.md). -/
def Obligations.OnlyStoringInstructionsWrite : Prop :=
  ∀ (i : Instr) (s t : State), exec i s = .next t → i.stores = false → sameStore s t

/-- R33, R123: a running machine is stopped by an instruction that completes exactly if it is a taken HALT. -/
def Obligations.OnlyATakenHaltHalts : Prop :=
  ∀ (i : Instr) (s t : State), s.run = .running → exec i s = .next t →
    (t.run = .halted ↔ ∃ cond, i = .halt cond ∧ condHolds s.sr cond = true) ∧
    (t.run = .halted ∨ t.run = .running)

/-! ## Devices -/

/-- R144, R145: an enabled timer with reload and countdown `n` and a clear latch raises ready, and its signal when
interrupts are enabled, on the n-th tick and not before; once latched, no later tick changes ready or the signal. -/
def Obligations.TimerRaisesReadyOnTheNthTick : Prop :=
  (∀ (n k : Nat) (tm : Timer) (signal : Bool), tm.countEnable = true → tm.endLatch = false →
    tm.reload.toNat = n → tm.countdown.toNat = n → 0 < n →
    (k < n → (tm.ticks k signal).1.ready = tm.ready ∧ (tm.ticks k signal).2 = signal ∧
      (tm.ticks k signal).1.countdown.toNat = n - k) ∧
    (tm.ticks n signal).1.ready = true ∧ (tm.ticks n signal).2 = (signal || tm.intEnable) ∧
    (tm.ticks n signal).1.endLatch = true ∧ (tm.ticks n signal).1.countdown.toNat = n) ∧
  (∀ (k : Nat) (tm : Timer) (signal : Bool), tm.endLatch = true →
    (tm.ticks k signal).1.ready = tm.ready ∧ (tm.ticks k signal).2 = signal ∧
    (tm.ticks k signal).1.endLatch = true)

/-- R144, R51: a STORE to a timer's slot 0 loads reload and countdown and clears the latch (D32), one to its slot 2
clears ready and the signal. -/
def Obligations.TimerSlotStores : Prop :=
  ∀ (r : Reg) (addr : Addr) (s : State) (u : IoUnit) (tm : Timer),
    s.hitsUnit (s.ea addr) .word u → u.device = .timer tm → (s.units.map IoUnit.id).Nodup →
    ∃ t, exec (.store r addr) s = .next t ∧ sameMemory s t ∧
      (∀ x ∈ s.units, x.id ≠ u.id → x ∈ t.units) ∧
      (u.offset (s.ea addr) .word / 4 = 0 →
        { u with device := .timer { tm with
          reload := s.reg r, countdown := s.reg r, endLatch := false } } ∈ t.units) ∧
      (u.offset (s.ea addr) .word / 4 = 2 →
        { u with signal := false, device := .timer { tm with ready := false } } ∈ t.units)

/-- R146: a parallel I/O whose end latch is set does nothing at a tick, and a tick that does anything sets it; a tick
leaves the modes, the policy and the mask. In conditional-input mode the match of the incoming data, a free word, alone
makes it ready, and a match latches it as the data; the match is the AND or the OR of the masked bits. That work sets
the latch, and these readings of readiness and match, are the model's (notes/assumptions/11.md and 12.md). -/
def Obligations.PioReadinessFollowsTheMask : Prop :=
  (∀ (n : Nat) (p : Pio) (signal : Bool), p.endLatch = true → p.tick n signal = (p, signal)) ∧
  (∀ (n : Nat) (p : Pio) (signal : Bool), p.tick n signal ≠ (p, signal) → (p.tick n signal).1.endLatch = true) ∧
  (∀ (n : Nat) (p : Pio) (signal : Bool),
    (p.tick n signal).1.input = p.input ∧ (p.tick n signal).1.conditional = p.conditional ∧
    (p.tick n signal).1.matchAll = p.matchAll ∧ (p.tick n signal).1.mask = p.mask) ∧
  (∀ (n : Nat) (p : Pio) (signal : Bool), p.endLatch = false → p.input = true → p.conditional = true →
    let incoming := Config.freeWord n
    (p.tick n signal).1.ready = (p.ready || p.matched incoming) ∧
    (p.matched incoming = true → (p.tick n signal).1.data = incoming ∧ (p.tick n signal).1.endLatch = true)) ∧
  (∀ (p : Pio) (d : Word), p.matchAll = true →
    (p.matched d = true ↔ ∀ k, p.mask.getLsbD k = true → d.getLsbD k = true)) ∧
  (∀ (p : Pio) (d : Word), p.matchAll = false →
    (p.matched d = true ↔ ∃ k, p.mask.getLsbD k = true ∧ d.getLsbD k = true))

/-- R146, R142: a STORE to the control/mask slot of a parallel I/O selects its modes, policy and mask by the word, one
to its data slot leaves them, one to its clear-status slot clears ready and the signal. Which bits select what is open
(notes/assumptions/10.md), slot 0 being control/mask is D31, and that a data write leaves the modes is the model's
reading (notes/assumptions/11.md). -/
def Obligations.PioSlotStores : Prop :=
  ∀ (r : Reg) (addr : Addr) (s : State) (u : IoUnit) (p : Pio),
    s.hitsUnit (s.ea addr) .word u → u.device = .pio p → (s.units.map IoUnit.id).Nodup →
    let v := s.reg r
    let slot := u.offset (s.ea addr) .word / 4
    ∃ t, exec (.store r addr) s = .next t ∧ sameMemory s t ∧
      (∀ x ∈ s.units, x.id ≠ u.id → x ∈ t.units) ∧
      (slot = 0 → ∃ (q : Pio) (signal : Bool), { u with signal := signal, device := .pio q } ∈ t.units ∧
        q.input = Config.pioInput p.input v ∧ q.conditional = Config.pioConditional p.conditional v ∧
        q.matchAll = Config.pioMatchAll p.matchAll v ∧ q.mask = Config.pioMask p.mask v) ∧
      (slot = 1 → ∃ (q : Pio) (signal : Bool), { u with signal := signal, device := .pio q } ∈ t.units ∧
        q.input = p.input ∧ q.conditional = p.conditional ∧ q.matchAll = p.matchAll ∧ q.mask = p.mask) ∧
      (slot = 2 → { u with signal := false, device := .pio { p with ready := false } } ∈ t.units) ∧
      t.pc = s.pc + 4 ∧ sameRegsBut [] s t ∧ sameSrBut [] s t ∧ sameControl s t

/-- R148: a STORE to the start slot of a halting DMA makes all its transfers, from flat memory to flat memory, within
the instruction: one word after the other, each address incrementing or not, ranges that overlap included; counter,
addresses, ready and the signal end as the rule says. Where both addresses increment and the ranges are aligned and
disjoint, the block is copied byte by byte. Transfers that reach a unit are left out. That slot 4 is start is D31; that
word writes load the registers, that any word starts, and that counter 0 runs the end of the pseudocode are
notes/assumptions/13.md. -/
def Obligations.HaltingDmaCopiesItsBlock : Prop :=
  ∀ (r : Reg) (addr : Addr) (s : State) (u : IoUnit) (d : Dma) (n : Nat),
    s.hitsUnit (s.ea addr) .word u → u.device = .dma d → (s.units.map IoUnit.id).Nodup →
    u.offset (s.ea addr) .word / 4 = 4 → d.halting = true → d.counter.toNat = n →
    (∀ k, k < n → s.flatAt (blockAddr d.source d.srcInc k) .word = true ∧
      s.flatAt (blockAddr d.destination d.dstInc k) .word = true) →
    ∃ t, exec (.store r addr) s = .next t ∧
      (∀ a, t.byteAt a = copyWords n d.source d.destination d.srcInc d.dstInc s.byteAt a) ∧
      (d.srcInc = true → d.dstInc = true → d.source.toNat % 4 = 0 → d.destination.toNat % 4 = 0 →
        d.source.toNat + 4 * n ≤ 2 ^ 32 → d.destination.toNat + 4 * n ≤ 2 ^ 32 →
        (d.source.toNat + 4 * n ≤ d.destination.toNat ∨ d.destination.toNat + 4 * n ≤ d.source.toNat) →
        (∀ k, k < 4 * n → t.byteAt (d.destination.toNat + k) = s.byteAt (d.source.toNat + k)) ∧
        (∀ a, ¬ (d.destination.toNat ≤ a ∧ a < d.destination.toNat + 4 * n) → t.byteAt a = s.byteAt a)) ∧
      { u with
        signal := u.signal || (d.haltSignals && u.hasLevel)
        device := .dma { d with
          counter := 0#32
          source := blockAddr d.source d.srcInc n
          destination := blockAddr d.destination d.dstInc n
          ready := d.ready || d.haltSignals } } ∈ t.units ∧
      (∀ x ∈ s.units, x.id ≠ u.id → x ∈ t.units) ∧
      t.pc = s.pc + 4 ∧ sameRegsBut [] s t ∧ sameSrBut [] s t ∧ sameControl s t

/-- R148: a tick of a started cycle-stealing DMA with words left copies one word, counts down, and raises ready and, if
the unit has a level, the signal when the counter reaches 0. -/
def Obligations.CycleStealingTickCopiesOneWord : Prop :=
  ∀ (s : State) (u : IoUnit) (d : Dma), u ∈ s.units → u.device = .dma d → (s.units.map IoUnit.id).Nodup →
    d.started = true → d.halting = false → d.counter ≠ 0#32 →
    s.flatAt d.source .word = true → s.flatAt d.destination .word = true →
    ∃ t, tickUnit u.id s = .next t ∧ storedFlat d.destination .word (s.flatValue d.source .word) s t ∧
      { u with
        signal := u.signal || (decide (d.counter = 1#32) && u.hasLevel)
        device := .dma { d with
          counter := d.counter - 1
          source := if d.srcInc then d.source + 4 else d.source
          destination := if d.dstInc then d.destination + 4 else d.destination
          ready := d.ready || decide (d.counter = 1#32) } } ∈ t.units ∧
      (∀ x ∈ s.units, x.id ≠ u.id → x ∈ t.units) ∧
      t.pc = s.pc ∧ sameRegsBut [] s t ∧ sameSrBut [] s t ∧ sameControl s t

/-! ## The host -/

/-- R154, R35 as the spec decides (D18): from any state, a host reset zeroes r0-r7, pc and SR, sets IIF, leaves the
machine running, keeps memory and the parameters, and keeps every unit attached where it is. -/
def Obligations.HostResetKeepsMemoryAndUnits : Prop :=
  ∀ s : State,
    (∀ r, (hostReset s).reg r = 0#32) ∧ (hostReset s).pc = 0#32 ∧ (hostReset s).sr = 0#32 ∧
    (hostReset s).iif = true ∧ (hostReset s).run = .running ∧ sameMemory s (hostReset s) ∧
    (hostReset s).cfg = s.cfg ∧ (hostReset s).units.map IoUnit.place = s.units.map IoUnit.place

/-- R39, R162, C6, C12: a registration succeeds exactly if its spans are legal and the attached units with the new ones
make a legal configuration, and is a configuration error otherwise; one that succeeds adds its units whole, in order,
each with its id, start, count and level, and changes nothing else but the index of free values. One that shares a byte
with an attached unit, or two units of one list that share a byte, is a configuration error. -/
def Obligations.AttachChecksTheConfiguration : Prop :=
  (∀ (specs : List UnitSpec) (s : State),
    (specs.all fun v => v.kind.spanOk) = true → unitsOk (s.units ++ specs.map (UnitSpec.unit 0)) = true →
    ∃ t, hostAttach specs s = .ok t) ∧
  (∀ (specs : List UnitSpec) (s : State),
    (specs.all fun v => v.kind.spanOk) = false ∨ unitsOk (s.units ++ specs.map (UnitSpec.unit 0)) = false →
    hostAttach specs s = .error .configuration) ∧
  (∀ (specs : List UnitSpec) (s t : State), hostAttach specs s = .ok t →
    unitsOk t.units = true ∧
    ∃ new, t = { s with units := s.units ++ new, draws := t.draws } ∧
      new.map IoUnit.place = specs.map fun v => (v.unit 0).place) ∧
  (∀ (specs : List UnitSpec) (s : State) (u : IoUnit) (v : UnitSpec) (b : Nat), u ∈ s.units → v ∈ specs →
    u.start.toNat ≤ b → b < u.stop → v.start.toNat ≤ b → b < (v.unit 0).stop →
    hostAttach specs s = .error .configuration) ∧
  (∀ (s : State) (u v : UnitSpec) (l1 l2 l3 : List UnitSpec) (b : Nat), u.start.toNat ≤ b → b < (u.unit 0).stop →
    v.start.toNat ≤ b → b < (v.unit 0).stop →
    hostAttach (l1 ++ u :: (l2 ++ v :: l3)) s = .error .configuration)

/-- R162, R38: after a detach the unit's range, shared with no other unit, goes back to flat memory, and no other unit
changes. -/
def Obligations.DetachGivesTheRangeBack : Prop :=
  ∀ (s : State) (u : IoUnit) (addr : Word) (w : Width), unitsOk s.units = true → s.hitsUnit addr w u →
    (hostDetach u.id s).unitAt (align addr w) = none ∧
    (∀ x ∈ s.units, x.id ≠ u.id → x ∈ (hostDetach u.id s).units) ∧
    (∀ x ∈ (hostDetach u.id s).units, x ∈ s.units ∧ x.id ≠ u.id)

/-- R156: an image that fits is copied to address 0 on, bytes past it keep their values, and nothing but memory
changes; a longer one is a capacity error. -/
def Obligations.ImageLoadCopiesTheBytes : Prop :=
  ∀ (bs : List Byte) (s : State),
    (s.cfg.memSize < bs.length → hostLoad (.bytes bs) s = .error .capacity) ∧
    (bs.length ≤ s.cfg.memSize → ∃ t, hostLoad (.bytes bs) s = .ok t ∧
      (∀ (k : Nat) (h : k < bs.length), t.byteAt k = bs[k]) ∧
      (∀ a, bs.length ≤ a → t.byteAt a = s.byteAt a) ∧ t = { s with mem := t.mem })

/-- R161: a raw byte, half-word or word written below MEM_SIZE reads back, touches only its aligned bytes of flat memory
and no unit; at or above MEM_SIZE both are refused. -/
def Obligations.RawAccessReadsBackWhatItWrote : Prop :=
  ∀ (s : State) (a : Word) (w : Width) (v : Word),
    (a.toNat < s.cfg.memSize → ∃ t, hostWrite s a w v = .ok t ∧ hostRead t a w = .ok (lowBytes w v) ∧
      storedFlat a w v s t ∧ t = { s with mem := t.mem }) ∧
    (s.cfg.memSize ≤ a.toNat → hostWrite s a w v = .error .range ∧ hostRead s a w = .error .range)
end

