-- ==== Sys2Proof/Laws/Memory.lean ====
section
/-! SUPPORT. The laws of memory: read after write, other places alone, canonical form kept. -/

namespace Sys2Proof.Machine

theorem Memory.lookup_put (m : Memory) (a : Nat) (b : Byte) (x : Nat) :
    Memory.lookup (Memory.put m a b) x = if a = x then some b else Memory.lookup m x := by
  induction m with
  | nil => rfl
  | cons c m ih =>
    obtain ⟨k, y⟩ := c
    unfold Memory.put
    by_cases h1 : a < k
    · simp only [h1, if_true, Memory.lookup]
    · by_cases h2 : a = k
      · subst h2
        simp only [Nat.lt_irrefl, if_false, if_true, Memory.lookup]
        split <;> rfl
      · simp only [h1, h2, if_false, Memory.lookup, ih]
        by_cases h3 : k = x
        · have : a ≠ x := by omega
          simp [h3, this]
        · simp [h3]

/-- Read after one byte was written. -/
theorem Memory.byte_put (m : Memory) (a : Nat) (b : Byte) (x : Nat) :
    Memory.byte (Memory.put m a b) x = if a = x then b else Memory.byte m x := by
  unfold Memory.byte
  rw [Memory.lookup_put]
  split <;> simp

theorem Generic.byte_put (g : Generic) (a : Nat) (b : Byte) (x : Nat) :
    ({ g with cells := Memory.put g.cells a b } : Generic).byte x = if a = x then b else g.byte x := by
  unfold Generic.byte
  rw [Memory.lookup_put]
  split <;> simp

theorem Memory.mem_put {m : Memory} {a : Nat} {b : Byte} {x : Host.Cell} (h : x ∈ Memory.put m a b) :
    x = (a, b) ∨ x ∈ m := by
  induction m with
  | nil => left; simpa [Memory.put] using h
  | cons c m ih =>
    unfold Memory.put at h
    split at h
    · simpa using h
    · split at h
      · rcases List.mem_cons.1 h with h | h
        · exact .inl h
        · exact .inr (List.mem_cons_of_mem _ h)
      · rcases List.mem_cons.1 h with h | h
        · exact .inr (h ▸ List.mem_cons_self)
        · exact (ih h).imp_right (List.mem_cons_of_mem _)

theorem Memory.wf_iff (m : Memory) : Memory.wf m = true ↔ m.Pairwise fun x y => x.1 < y.1 := by
  unfold Memory.wf; exact decide_eq_true_iff

/-- Writing a byte keeps the canonical form. -/
theorem Memory.wf_put {m : Memory} (h : Memory.wf m = true) (a : Nat) (b : Byte) :
    Memory.wf (Memory.put m a b) = true := by
  rw [Memory.wf_iff] at h ⊢
  induction m with
  | nil => exact List.pairwise_singleton _ _
  | cons c m ih =>
    obtain ⟨k, y⟩ := c
    obtain ⟨hk, hm⟩ := List.pairwise_cons.1 h
    unfold Memory.put
    by_cases h1 : a < k
    · rw [if_pos h1]
      refine List.pairwise_cons.2 ⟨fun x hx => ?_, h⟩
      rcases List.mem_cons.1 hx with rfl | hx
      · exact h1
      · exact Nat.lt_trans h1 (hk x hx)
    · rw [if_neg h1]
      by_cases h2 : a = k
      · rw [if_pos h2]
        exact List.pairwise_cons.2 ⟨fun x hx => h2 ▸ hk x hx, hm⟩
      · rw [if_neg h2]
        refine List.pairwise_cons.2 ⟨fun x hx => ?_, ih hm⟩
        rcases Memory.mem_put hx with rfl | hx
        · show k < a; omega
        · exact hk x hx

theorem Memory.below_put {m : Memory} {n : Nat} (h : Memory.below n m = true) {a : Nat} (ha : a < n) (b : Byte) :
    Memory.below n (Memory.put m a b) = true := by
  unfold Memory.below at h ⊢
  rw [List.all_eq_true] at h ⊢
  intro x hx
  rcases Memory.mem_put hx with rfl | hx
  · exact decide_eq_true ha
  · exact h x hx

/-- Writing keeps the canonical form. -/
theorem Memory.wf_write {m : Memory} (h : Memory.wf m = true) (a : Nat) (w : Width) (v : Word) :
    Memory.wf (Memory.write m a w v) = true := by
  cases w
  · exact Memory.wf_put h a _
  · exact Memory.wf_put (Memory.wf_put h a _) _ _
  · exact Memory.wf_put (Memory.wf_put (Memory.wf_put (Memory.wf_put h a _) _ _) _ _) _ _

theorem Memory.below_write {m : Memory} {n : Nat} (h : Memory.below n m = true) {a : Nat} {w : Width}
    (ha : a + w.bytes ≤ n) (v : Word) : Memory.below n (Memory.write m a w v) = true := by
  cases w <;> simp only [Width.bytes] at ha <;> unfold Memory.write
  · exact Memory.below_put h (by omega) _
  · exact Memory.below_put (Memory.below_put h (by omega) _) (by omega) _
  · exact Memory.below_put (Memory.below_put (Memory.below_put (Memory.below_put h (by omega) _)
      (by omega) _) (by omega) _) (by omega) _

/-- The bytes a write stores, and every other byte. -/
theorem Memory.byte_write (m : Memory) (a : Nat) (w : Width) (v : Word) (x : Nat) :
    Memory.byte (Memory.write m a w v) x =
      if a ≤ x ∧ x < a + w.bytes then byteOf v (x - a) else Memory.byte m x := by
  by_cases hx : a ≤ x ∧ x < a + w.bytes
  · obtain ⟨k, rfl⟩ : ∃ k, x = a + k := ⟨x - a, by omega⟩
    rw [if_pos hx, Nat.add_sub_cancel_left]
    have hk : k < w.bytes := by omega
    cases w <;> simp only [Width.bytes] at hk <;> interval_cases k <;> simp [Memory.write, Memory.byte_put]
  · rw [if_neg hx]
    have hn : ∀ k, k < w.bytes → a + k ≠ x := by omega
    have h0 : a ≠ x := hn 0 (by cases w <;> decide)
    cases w
    · simp [Memory.write, Memory.byte_put, h0]
    · simp [Memory.write, Memory.byte_put, h0, hn 1 (by decide)]
    · simp [Memory.write, Memory.byte_put, h0, hn 1 (by decide), hn 2 (by decide), hn 3 (by decide)]

/-- The four bytes of a word, put together, are the word. -/
theorem leWord_byteOf (v : Word) : leWord (byteOf v 0) (byteOf v 1) (byteOf v 2) (byteOf v 3) = v := by
  unfold leWord byteOf
  ext k hk
  simp only [BitVec.getElem_append, BitVec.getElem_extractLsb']
  split
  · simp [BitVec.getLsbD_eq_getElem, hk]
  · split
    · rw [← BitVec.getLsbD_eq_getElem]; congr 1; omega
    · split
      · rw [← BitVec.getLsbD_eq_getElem]; congr 1; omega
      · rw [← BitVec.getLsbD_eq_getElem]; congr 1; omega

/-- A word read where the word was written. -/
theorem Memory.read_write_word (m : Memory) (a : Nat) (v : Word) :
    leRead (Memory.byte (Memory.write m a .word v)) a .word = v := by
  unfold leRead
  simp [Memory.byte_write, Width.bytes, leWord_byteOf]

/-- A read depends only on the bytes it touches. -/
theorem leRead_congr {f g : Nat → Byte} {a : Nat} {w : Width}
    (h : ∀ k, k < w.bytes → f (a + k) = g (a + k)) : leRead f a w = leRead g a w := by
  have h0 : f a = g a := h 0 (by cases w <;> decide)
  cases w <;> simp only [leRead, h0]
  · rw [h 1 (by decide)]
  · rw [h 1 (by decide), h 2 (by decide), h 3 (by decide)]

/-- `Memory.putAll` keeps the canonical form. -/
theorem Memory.wf_putAll {m : Memory} (h : Memory.wf m = true) (a : Nat) (bs : List Byte) :
    Memory.wf (Memory.putAll m a bs) = true := by
  induction bs generalizing m a with
  | nil => exact h
  | cons b bs ih => exact ih (Memory.wf_put h a b) (a + 1)

/-- Reset memory has the canonical form. -/
theorem State.reset_mem_wf : Memory.wf State.reset.mem = true := (Memory.wf_iff _).2 List.Pairwise.nil

end Sys2Proof.Machine
end

