-- ==== Sys2Proof/Laws/State.lean ====
section
/-! SUPPORT. The small lemmas of the state's updates: one per field and update, and what the accessors read after
each update. -/

namespace Sys2Proof.Machine

variable (s : State)

/-! ### setReg -/

@[simp] theorem State.setReg_regs (r : Reg) (v : Word) : (s.setReg r v).regs = s.regs.set r.val v := rfl
@[simp] theorem State.setReg_pc (r : Reg) (v : Word) : (s.setReg r v).pc = s.pc := rfl
@[simp] theorem State.setReg_sr (r : Reg) (v : Word) : (s.setReg r v).sr = s.sr := rfl
@[simp] theorem State.setReg_iif (r : Reg) (v : Word) : (s.setReg r v).iif = s.iif := rfl
@[simp] theorem State.setReg_run (r : Reg) (v : Word) : (s.setReg r v).run = s.run := rfl
@[simp] theorem State.setReg_mem (r : Reg) (v : Word) : (s.setReg r v).mem = s.mem := rfl
@[simp] theorem State.setReg_units (r : Reg) (v : Word) : (s.setReg r v).units = s.units := rfl
@[simp] theorem State.setReg_cfg (r : Reg) (v : Word) : (s.setReg r v).cfg = s.cfg := rfl
@[simp] theorem State.setReg_schedule (r : Reg) (v : Word) : (s.setReg r v).schedule = s.schedule := rfl
@[simp] theorem State.setReg_draws (r : Reg) (v : Word) : (s.setReg r v).draws = s.draws := rfl

/-! ### advance -/

@[simp] theorem State.advance_regs : (s.advance).regs = s.regs := rfl
@[simp] theorem State.advance_pc : (s.advance).pc = s.pc + 4 := rfl
@[simp] theorem State.advance_sr : (s.advance).sr = s.sr := rfl
@[simp] theorem State.advance_iif : (s.advance).iif = s.iif := rfl
@[simp] theorem State.advance_run : (s.advance).run = s.run := rfl
@[simp] theorem State.advance_mem : (s.advance).mem = s.mem := rfl
@[simp] theorem State.advance_units : (s.advance).units = s.units := rfl
@[simp] theorem State.advance_cfg : (s.advance).cfg = s.cfg := rfl
@[simp] theorem State.advance_schedule : (s.advance).schedule = s.schedule := rfl
@[simp] theorem State.advance_draws : (s.advance).draws = s.draws := rfl

/-! ### setFlag -/

@[simp] theorem State.setFlag_regs (f : SrBit) (b : Bool) : (s.setFlag f b).regs = s.regs := rfl
@[simp] theorem State.setFlag_pc (f : SrBit) (b : Bool) : (s.setFlag f b).pc = s.pc := rfl
@[simp] theorem State.setFlag_sr (f : SrBit) (b : Bool) : (s.setFlag f b).sr = srSet s.sr f b := rfl
@[simp] theorem State.setFlag_iif (f : SrBit) (b : Bool) : (s.setFlag f b).iif = s.iif := rfl
@[simp] theorem State.setFlag_run (f : SrBit) (b : Bool) : (s.setFlag f b).run = s.run := rfl
@[simp] theorem State.setFlag_mem (f : SrBit) (b : Bool) : (s.setFlag f b).mem = s.mem := rfl
@[simp] theorem State.setFlag_units (f : SrBit) (b : Bool) : (s.setFlag f b).units = s.units := rfl
@[simp] theorem State.setFlag_cfg (f : SrBit) (b : Bool) : (s.setFlag f b).cfg = s.cfg := rfl
@[simp] theorem State.setFlag_schedule (f : SrBit) (b : Bool) : (s.setFlag f b).schedule = s.schedule := rfl
@[simp] theorem State.setFlag_draws (f : SrBit) (b : Bool) : (s.setFlag f b).draws = s.draws := rfl

/-! ### setNZ -/

@[simp] theorem State.setNZ_regs (r : Word) : (s.setNZ r).regs = s.regs := rfl
@[simp] theorem State.setNZ_pc (r : Word) : (s.setNZ r).pc = s.pc := rfl
@[simp] theorem State.setNZ_iif (r : Word) : (s.setNZ r).iif = s.iif := rfl
@[simp] theorem State.setNZ_run (r : Word) : (s.setNZ r).run = s.run := rfl
@[simp] theorem State.setNZ_mem (r : Word) : (s.setNZ r).mem = s.mem := rfl
@[simp] theorem State.setNZ_units (r : Word) : (s.setNZ r).units = s.units := rfl
@[simp] theorem State.setNZ_cfg (r : Word) : (s.setNZ r).cfg = s.cfg := rfl
@[simp] theorem State.setNZ_schedule (r : Word) : (s.setNZ r).schedule = s.schedule := rfl
@[simp] theorem State.setNZ_draws (r : Word) : (s.setNZ r).draws = s.draws := rfl

/-! ### setAluFlags -/

@[simp] theorem State.setAluFlags_regs (o : AluOut) : (s.setAluFlags o).regs = s.regs := rfl
@[simp] theorem State.setAluFlags_pc (o : AluOut) : (s.setAluFlags o).pc = s.pc := rfl
@[simp] theorem State.setAluFlags_iif (o : AluOut) : (s.setAluFlags o).iif = s.iif := rfl
@[simp] theorem State.setAluFlags_run (o : AluOut) : (s.setAluFlags o).run = s.run := rfl
@[simp] theorem State.setAluFlags_mem (o : AluOut) : (s.setAluFlags o).mem = s.mem := rfl
@[simp] theorem State.setAluFlags_units (o : AluOut) : (s.setAluFlags o).units = s.units := rfl
@[simp] theorem State.setAluFlags_cfg (o : AluOut) : (s.setAluFlags o).cfg = s.cfg := rfl
@[simp] theorem State.setAluFlags_schedule (o : AluOut) : (s.setAluFlags o).schedule = s.schedule := rfl
@[simp] theorem State.setAluFlags_draws (o : AluOut) : (s.setAluFlags o).draws = s.draws := rfl

/-! ### mapUnit -/

@[simp] theorem State.mapUnit_regs (id : Nat) (f : IoUnit → IoUnit) : (s.mapUnit id f).regs = s.regs := rfl
@[simp] theorem State.mapUnit_pc (id : Nat) (f : IoUnit → IoUnit) : (s.mapUnit id f).pc = s.pc := rfl
@[simp] theorem State.mapUnit_sr (id : Nat) (f : IoUnit → IoUnit) : (s.mapUnit id f).sr = s.sr := rfl
@[simp] theorem State.mapUnit_iif (id : Nat) (f : IoUnit → IoUnit) : (s.mapUnit id f).iif = s.iif := rfl
@[simp] theorem State.mapUnit_run (id : Nat) (f : IoUnit → IoUnit) : (s.mapUnit id f).run = s.run := rfl
@[simp] theorem State.mapUnit_mem (id : Nat) (f : IoUnit → IoUnit) : (s.mapUnit id f).mem = s.mem := rfl
@[simp] theorem State.mapUnit_units (id : Nat) (f : IoUnit → IoUnit) : (s.mapUnit id f).units = s.units.map fun u => if u.id = id then f u else u := rfl
@[simp] theorem State.mapUnit_cfg (id : Nat) (f : IoUnit → IoUnit) : (s.mapUnit id f).cfg = s.cfg := rfl
@[simp] theorem State.mapUnit_schedule (id : Nat) (f : IoUnit → IoUnit) : (s.mapUnit id f).schedule = s.schedule := rfl
@[simp] theorem State.mapUnit_draws (id : Nat) (f : IoUnit → IoUnit) : (s.mapUnit id f).draws = s.draws := rfl

/-! ### drawn -/

@[simp] theorem State.drawn_regs : (s.drawn).regs = s.regs := rfl
@[simp] theorem State.drawn_pc : (s.drawn).pc = s.pc := rfl
@[simp] theorem State.drawn_sr : (s.drawn).sr = s.sr := rfl
@[simp] theorem State.drawn_iif : (s.drawn).iif = s.iif := rfl
@[simp] theorem State.drawn_run : (s.drawn).run = s.run := rfl
@[simp] theorem State.drawn_mem : (s.drawn).mem = s.mem := rfl
@[simp] theorem State.drawn_units : (s.drawn).units = s.units := rfl
@[simp] theorem State.drawn_cfg : (s.drawn).cfg = s.cfg := rfl
@[simp] theorem State.drawn_schedule : (s.drawn).schedule = s.schedule := rfl
@[simp] theorem State.drawn_draws : (s.drawn).draws = s.draws + Config.drawStride := rfl

/-! ### decSp -/

@[simp] theorem State.decSp_pc : (s.decSp).pc = s.pc := rfl
@[simp] theorem State.decSp_sr : (s.decSp).sr = s.sr := rfl
@[simp] theorem State.decSp_iif : (s.decSp).iif = s.iif := rfl
@[simp] theorem State.decSp_run : (s.decSp).run = s.run := rfl
@[simp] theorem State.decSp_mem : (s.decSp).mem = s.mem := rfl
@[simp] theorem State.decSp_units : (s.decSp).units = s.units := rfl
@[simp] theorem State.decSp_cfg : (s.decSp).cfg = s.cfg := rfl
@[simp] theorem State.decSp_schedule : (s.decSp).schedule = s.schedule := rfl
@[simp] theorem State.decSp_draws : (s.decSp).draws = s.draws := rfl

/-! ### incSp -/

@[simp] theorem State.incSp_pc : (s.incSp).pc = s.pc := rfl
@[simp] theorem State.incSp_sr : (s.incSp).sr = s.sr := rfl
@[simp] theorem State.incSp_iif : (s.incSp).iif = s.iif := rfl
@[simp] theorem State.incSp_run : (s.incSp).run = s.run := rfl
@[simp] theorem State.incSp_mem : (s.incSp).mem = s.mem := rfl
@[simp] theorem State.incSp_units : (s.incSp).units = s.units := rfl
@[simp] theorem State.incSp_cfg : (s.incSp).cfg = s.cfg := rfl
@[simp] theorem State.incSp_schedule : (s.incSp).schedule = s.schedule := rfl
@[simp] theorem State.incSp_draws : (s.incSp).draws = s.draws := rfl

/-! ### recomputePending -/

@[simp] theorem State.recomputePending_regs : (s.recomputePending).regs = s.regs := rfl
@[simp] theorem State.recomputePending_pc : (s.recomputePending).pc = s.pc := rfl
@[simp] theorem State.recomputePending_iif : (s.recomputePending).iif = s.iif := rfl
@[simp] theorem State.recomputePending_run : (s.recomputePending).run = s.run := rfl
@[simp] theorem State.recomputePending_mem : (s.recomputePending).mem = s.mem := rfl
@[simp] theorem State.recomputePending_units : (s.recomputePending).units = s.units := rfl
@[simp] theorem State.recomputePending_cfg : (s.recomputePending).cfg = s.cfg := rfl
@[simp] theorem State.recomputePending_schedule : (s.recomputePending).schedule = s.schedule := rfl
@[simp] theorem State.recomputePending_draws : (s.recomputePending).draws = s.draws := rfl

/-! ### finishAlu -/

@[simp] theorem State.finishAlu_regs (rd : Reg) (o : AluOut) : (s.finishAlu rd o).regs = s.regs.set rd.val o.r := rfl
@[simp] theorem State.finishAlu_pc (rd : Reg) (o : AluOut) : (s.finishAlu rd o).pc = s.pc + 4 := rfl
@[simp] theorem State.finishAlu_sr (rd : Reg) (o : AluOut) : (s.finishAlu rd o).sr = (s.setAluFlags o).sr := rfl
@[simp] theorem State.finishAlu_iif (rd : Reg) (o : AluOut) : (s.finishAlu rd o).iif = s.iif := rfl
@[simp] theorem State.finishAlu_run (rd : Reg) (o : AluOut) : (s.finishAlu rd o).run = s.run := rfl
@[simp] theorem State.finishAlu_mem (rd : Reg) (o : AluOut) : (s.finishAlu rd o).mem = s.mem := rfl
@[simp] theorem State.finishAlu_units (rd : Reg) (o : AluOut) : (s.finishAlu rd o).units = s.units := rfl
@[simp] theorem State.finishAlu_cfg (rd : Reg) (o : AluOut) : (s.finishAlu rd o).cfg = s.cfg := rfl
@[simp] theorem State.finishAlu_schedule (rd : Reg) (o : AluOut) : (s.finishAlu rd o).schedule = s.schedule := rfl
@[simp] theorem State.finishAlu_draws (rd : Reg) (o : AluOut) : (s.finishAlu rd o).draws = s.draws := rfl

/-! ### finishMoveSr -/

@[simp] theorem State.finishMoveSr_regs (v : Word) : (s.finishMoveSr v).regs = s.regs := rfl
@[simp] theorem State.finishMoveSr_pc (v : Word) : (s.finishMoveSr v).pc = s.pc + 4 := rfl
@[simp] theorem State.finishMoveSr_sr (v : Word) : (s.finishMoveSr v).sr = srLow v := rfl
@[simp] theorem State.finishMoveSr_iif (v : Word) : (s.finishMoveSr v).iif = s.iif := rfl
@[simp] theorem State.finishMoveSr_run (v : Word) : (s.finishMoveSr v).run = s.run := rfl
@[simp] theorem State.finishMoveSr_mem (v : Word) : (s.finishMoveSr v).mem = s.mem := rfl
@[simp] theorem State.finishMoveSr_units (v : Word) : (s.finishMoveSr v).units = s.units := rfl
@[simp] theorem State.finishMoveSr_cfg (v : Word) : (s.finishMoveSr v).cfg = s.cfg := rfl
@[simp] theorem State.finishMoveSr_schedule (v : Word) : (s.finishMoveSr v).schedule = s.schedule := rfl
@[simp] theorem State.finishMoveSr_draws (v : Word) : (s.finishMoveSr v).draws = s.draws := rfl

/-! ### finishMove -/

theorem State.finishMove_eq (rd : Reg) (v : Word) :
    s.finishMove rd v = (if s.cfg.moveSetsNz then (s.setReg rd v).setNZ v else s.setReg rd v).advance := rfl

@[simp] theorem State.finishMove_iif (rd : Reg) (v : Word) : (s.finishMove rd v).iif = s.iif := by
  unfold State.finishMove; cases s.cfg.moveSetsNz <;> rfl

@[simp] theorem State.finishMove_run (rd : Reg) (v : Word) : (s.finishMove rd v).run = s.run := by
  unfold State.finishMove; cases s.cfg.moveSetsNz <;> rfl

@[simp] theorem State.finishMove_mem (rd : Reg) (v : Word) : (s.finishMove rd v).mem = s.mem := by
  unfold State.finishMove; cases s.cfg.moveSetsNz <;> rfl

@[simp] theorem State.finishMove_units (rd : Reg) (v : Word) : (s.finishMove rd v).units = s.units := by
  unfold State.finishMove; cases s.cfg.moveSetsNz <;> rfl

@[simp] theorem State.finishMove_cfg (rd : Reg) (v : Word) : (s.finishMove rd v).cfg = s.cfg := by
  unfold State.finishMove; cases s.cfg.moveSetsNz <;> rfl

@[simp] theorem State.finishMove_schedule (rd : Reg) (v : Word) : (s.finishMove rd v).schedule = s.schedule := by
  unfold State.finishMove; cases s.cfg.moveSetsNz <;> rfl

@[simp] theorem State.finishMove_draws (rd : Reg) (v : Word) : (s.finishMove rd v).draws = s.draws := by
  unfold State.finishMove; cases s.cfg.moveSetsNz <;> rfl

@[simp] theorem State.finishMove_pc (rd : Reg) (v : Word) : (s.finishMove rd v).pc = s.pc + 4 := by
  unfold State.finishMove; cases s.cfg.moveSetsNz <;> rfl

/-! ### Registers -/

theorem State.reg_congr {s t : State} (h : t.regs = s.regs) (x : Reg) : t.reg x = s.reg x := by
  unfold State.reg; rw [h]

theorem State.reg_setReg (r : Reg) (v : Word) (x : Reg) :
    (s.setReg r v).reg x = if x = r then v else s.reg x := by
  unfold State.reg State.setReg
  simp only [Vector.getElem_set, Fin.ext_iff, eq_comm]

@[simp] theorem State.reg_setReg_same (r : Reg) (v : Word) : (s.setReg r v).reg r = v := by
  simp [State.reg_setReg]

theorem State.reg_setReg_ne {r x : Reg} (v : Word) (h : x ≠ r) : (s.setReg r v).reg x = s.reg x := by
  simp [State.reg_setReg, h]

@[simp] theorem State.reg_advance (x : Reg) : s.advance.reg x = s.reg x := rfl
@[simp] theorem State.reg_setFlag (f : SrBit) (b : Bool) (x : Reg) : (s.setFlag f b).reg x = s.reg x := rfl
@[simp] theorem State.reg_setNZ (r : Word) (x : Reg) : (s.setNZ r).reg x = s.reg x := rfl
@[simp] theorem State.reg_setAluFlags (o : AluOut) (x : Reg) : (s.setAluFlags o).reg x = s.reg x := rfl
@[simp] theorem State.reg_mapUnit (id : Nat) (f : IoUnit → IoUnit) (x : Reg) :
    (s.mapUnit id f).reg x = s.reg x := rfl
@[simp] theorem State.reg_drawn (x : Reg) : s.drawn.reg x = s.reg x := rfl
@[simp] theorem State.reg_recomputePending (x : Reg) : s.recomputePending.reg x = s.reg x := rfl
@[simp] theorem State.reg_finishMoveSr (v : Word) (x : Reg) : (s.finishMoveSr v).reg x = s.reg x := rfl

theorem State.reg_finishAlu (rd : Reg) (o : AluOut) (x : Reg) :
    (s.finishAlu rd o).reg x = if x = rd then o.r else s.reg x := State.reg_setReg s rd o.r x

theorem State.reg_finishMove (rd : Reg) (v : Word) (x : Reg) :
    (s.finishMove rd v).reg x = if x = rd then v else s.reg x := by
  rw [← State.reg_setReg s rd v x]
  unfold State.finishMove; cases s.cfg.moveSetsNz <;> rfl

theorem State.reg_decSp (x : Reg) : s.decSp.reg x = if x = Reg.sp then s.reg Reg.sp - 4 else s.reg x :=
  State.reg_setReg s _ _ x

theorem State.reg_incSp (x : Reg) : s.incSp.reg x = if x = Reg.sp then s.reg Reg.sp + 4 else s.reg x :=
  State.reg_setReg s _ _ x

@[simp] theorem State.reg_decSp_sp : s.decSp.reg Reg.sp = s.reg Reg.sp - 4 := by simp [State.reg_decSp]
@[simp] theorem State.reg_incSp_sp : s.incSp.reg Reg.sp = s.reg Reg.sp + 4 := by simp [State.reg_incSp]

/-! ### Status register bits -/

theorem SrBit.pos_lt (f : SrBit) : f.pos < 11 := by cases f <;> decide

theorem SrBit.pos_inj {f g : SrBit} : f.pos = g.pos ↔ f = g := by
  constructor
  · intro h; cases f <;> cases g <;> first | rfl | (exact absurd h (by decide))
  · intro h; rw [h]

/-- What `srSet` does, bit by bit. -/
theorem getLsbD_srSet (sr : Word) (f : SrBit) (b : Bool) (k : Nat) :
    (srSet sr f b).getLsbD k = if k = f.pos then b else sr.getLsbD k := by
  have h32 : f.pos < 32 := Nat.lt_trans f.pos_lt (by decide)
  by_cases hb : k < 32
  · by_cases hk : k = f.pos
    · subst hk; cases b <;> simp [srSet, h32]
    · cases b <;> simp [srSet, hk, hb] <;> intros <;> omega
  · have hz : ∀ w : Word, w.getLsbD k = false := fun w => BitVec.getLsbD_of_ge w k (by omega)
    have hk : k ≠ f.pos := by omega
    rw [hz, hz, if_neg hk]

theorem srGet_srSet (sr : Word) (f g : SrBit) (b : Bool) :
    srGet (srSet sr f b) g = if g = f then b else srGet sr g := by
  unfold srGet
  rw [getLsbD_srSet]
  simp only [SrBit.pos_inj]

@[simp] theorem srGet_srSet_same (sr : Word) (f : SrBit) (b : Bool) : srGet (srSet sr f b) f = b := by
  simp [srGet_srSet]

theorem State.flag_setFlag (f g : SrBit) (b : Bool) :
    (s.setFlag f b).flag g = if g = f then b else s.flag g := srGet_srSet s.sr f g b

/-- SR after the four ALU flags were written, bit by bit. -/
theorem State.getLsbD_sr_setAluFlags (o : AluOut) (k : Nat) :
    (s.setAluFlags o).sr.getLsbD k =
      if k = 1 then o.v else if k = 0 then o.c else if k = 3 then (o.r == 0#32)
      else if k = 2 then o.r.msb else s.sr.getLsbD k := by
  simp only [State.setAluFlags, State.setNZ, State.setFlag_sr, getLsbD_srSet, SrBit.pos]
  rfl

/-- What MOVE to SR leaves, bit by bit (R27). -/
theorem getLsbD_srLow (v : Word) (k : Nat) : (srLow v).getLsbD k = (decide (k < 8) && v.getLsbD k) := by
  simp only [srLow, BitVec.getLsbD_setWidth, BitVec.getLsbD_extractLsb', Nat.zero_add]
  by_cases h : k < 8
  · have : k < 32 := by omega
    simp [h, this]
  · simp [h]

/-- SR after the poll recomputed INT0-2 (R132 step 1), bit by bit. -/
theorem State.getLsbD_sr_recomputePending (k : Nat) :
    s.recomputePending.sr.getLsbD k =
      if k = 10 then s.line .level2 else if k = 9 then s.line .level1
      else if k = 8 then s.line .level0 else s.sr.getLsbD k := by
  simp only [State.recomputePending, State.setFlag_sr, getLsbD_srSet, SrBit.pos]
  rfl

end Sys2Proof.Machine
end

