-- ==== Sys2Proof/Laws/Bus.lean ====
section
/-! SUPPORT. What each shared operation can do, said once: sequencing, the bus, DMA transfers, the stack, writing
pc, the interrupt entries and the poll. -/

namespace Sys2Proof.Machine

/-! ## Sequencing -/

@[simp] theorem Res.andThen_next {α β : Type} (a : α) (f : α → Res β) : Res.andThen (.next a) f = f a := rfl
@[simp] theorem Res.andThen_fault {α β : Type} (e : Fault) (f : α → Res β) :
    Res.andThen (.fault e : Res α) f = .fault e := rfl
@[simp] theorem Res.andThen_refused {α β : Type} (e : Refusal) (f : α → Res β) :
    Res.andThen (.refused e : Res α) f = .refused e := rfl

theorem Res.andThen_eq_next {α β : Type} {r : Res α} {f : α → Res β} {b : β} :
    r.andThen f = .next b ↔ ∃ a, r = .next a ∧ f a = .next b := by
  cases r <;> simp

theorem raise_ne_next {α : Type} {s : State} {r : FaultReason} {a : α} : raise s r ≠ (.next a : Res α) :=
  fun h => nomatch h

/-! ## Where an access goes -/

theorem align_toNat_le (a : Word) (w : Width) : (align a w).toNat ≤ a.toNat := by
  cases w
  · exact Nat.le_refl _
  · show (a &&& _).toNat ≤ _; rw [BitVec.toNat_and]; exact Nat.and_le_left
  · show (a &&& _).toNat ≤ _; rw [BitVec.toNat_and]; exact Nat.and_le_left

/-- Clearing the low two bits, on numbers. -/
theorem and_mask_word (a : Word) : (a &&& 0xFFFFFFFC#32).toNat = a.toNat / 4 * 4 := by
  have h : a &&& 0xFFFFFFFC#32 = (a >>> 2) <<< 2 := by
    ext k hk
    interval_cases k <;> simp [BitVec.getElem_shiftLeft]
  rw [h, BitVec.toNat_shiftLeft, BitVec.toNat_ushiftRight, Nat.shiftRight_eq_div_pow, Nat.shiftLeft_eq]
  have := a.isLt
  omega

/-- Clearing the low bit, on numbers. -/
theorem and_mask_half (a : Word) : (a &&& 0xFFFFFFFE#32).toNat = a.toNat / 2 * 2 := by
  have h : a &&& 0xFFFFFFFE#32 = (a >>> 1) <<< 1 := by
    ext k hk
    interval_cases k <;> simp [BitVec.getElem_shiftLeft]
  rw [h, BitVec.toNat_shiftLeft, BitVec.toNat_ushiftRight, Nat.shiftRight_eq_div_pow, Nat.shiftLeft_eq]
  have := a.isLt
  omega

/-- R42 on numbers: an aligned address is the address rounded down to a multiple of the width. -/
theorem align_toNat (a : Word) (w : Width) : (align a w).toNat = a.toNat / w.bytes * w.bytes := by
  cases w
  · show a.toNat = _; simp [Width.bytes]
  · exact and_mask_half a
  · exact and_mask_word a

theorem align_mod (a : Word) (w : Width) : (align a w).toNat % w.bytes = 0 := by
  rw [align_toNat]; exact Nat.mul_mod_left _ _

/-- The three places an access can go exclude each other and leave nothing out. -/
theorem State.access_cases (s : State) (addr : Word) (w : Width) :
    (∃ u, s.hitsUnit addr w u) ∨ s.flatAt addr w = true ∨ s.unmappedAt addr w = true := by
  unfold State.hitsUnit State.flatAt State.unmappedAt
  cases h : s.unitAt (align addr w) with
  | some u => exact .inl ⟨u, rfl⟩
  | none =>
    rcases Nat.lt_or_ge s.cfg.memSize ((align addr w).toNat + w.bytes) with h1 | h1
    · exact .inr (.inr (by simp [h1]))
    · exact .inr (.inl (by simp [h1]))

theorem State.flatAt_iff (s : State) (addr : Word) (w : Width) :
    s.flatAt addr w = true ↔
      s.unitAt (align addr w) = none ∧ (align addr w).toNat + w.bytes ≤ s.cfg.memSize := by
  unfold State.flatAt; simp

theorem State.unmappedAt_iff (s : State) (addr : Word) (w : Width) :
    s.unmappedAt addr w = true ↔
      s.unitAt (align addr w) = none ∧ s.cfg.memSize < (align addr w).toNat + w.bytes := by
  unfold State.unmappedAt; simp

/-- The unit an access hits is attached and covers the aligned address. -/
theorem State.hitsUnit_mem {s : State} {addr : Word} {w : Width} {u : IoUnit} (h : s.hitsUnit addr w u) :
    u ∈ s.units ∧ u.start.toNat ≤ (align addr w).toNat ∧ (align addr w).toNat < u.stop := by
  have h1 := List.find?_some h
  have h2 := List.mem_of_find?_eq_some h
  simp only [IoUnit.covers, Bool.and_eq_true, decide_eq_true_eq] at h1
  exact ⟨h2, h1⟩

/-! ## Reads -/

theorem busRead_flat {s : State} {addr : Word} {w : Width} (h : s.flatAt addr w = true) :
    busRead s addr w = .next (s.flatValue addr w, s) := by
  obtain ⟨h1, h2⟩ := (State.flatAt_iff s addr w).1 h
  simp only [busRead, h1, h2, if_true, State.flatValue]

theorem busRead_unit {s : State} {addr : Word} {w : Width} {u : IoUnit} (h : s.hitsUnit addr w u) :
    busRead s addr w = .next (u.read s.draws (u.offset addr w) w, s.drawn) := by
  unfold State.hitsUnit at h
  simp only [busRead, h, IoUnit.offset]

theorem busRead_unmapped {s : State} {addr : Word} {w : Width} (h : s.unmappedAt addr w = true) :
    busRead s addr w = raise s (.unmappedAccess (align addr w) w .read s.pc) := by
  obtain ⟨h1, h2⟩ := (State.unmappedAt_iff s addr w).1 h
  have : ¬ (align addr w).toNat + w.bytes ≤ s.cfg.memSize := by omega
  simp only [busRead, h1, this, if_false]

/-- Everything a read that succeeds can do (R44). -/
theorem busRead_cases {s t : State} {addr : Word} {w : Width} {v : Word}
    (h : busRead s addr w = .next (v, t)) :
    (∃ u, s.hitsUnit addr w u ∧ v = u.read s.draws (u.offset addr w) w ∧ t = s.drawn) ∨
    (s.flatAt addr w = true ∧ v = s.flatValue addr w ∧ t = s) := by
  rcases s.access_cases addr w with ⟨u, hu⟩ | hf | hu
  · rw [busRead_unit hu] at h
    injection h with h; injection h with h1 h2
    exact .inl ⟨u, hu, h1.symm, h2.symm⟩
  · rw [busRead_flat hf] at h
    injection h with h; injection h with h1 h2
    exact .inr ⟨hf, h1.symm, h2.symm⟩
  · rw [busRead_unmapped hu] at h
    exact absurd h raise_ne_next

/-! ## Writes -/

/-- The state after a write reached flat memory. -/
def State.putFlat (s : State) (addr : Word) (w : Width) (v : Word) : State :=
  { s with mem := Memory.write s.mem (align addr w).toNat w v }

/-- The state after a write reached a unit, before any block transfer it starts. -/
def State.putUnit (s : State) (u : IoUnit) (addr : Word) (w : Width) (v : Word) : State :=
  (s.mapUnit u.id fun x => x.write s.draws (u.offset addr w) w v).drawn

theorem busWriteWith_flat {k : Nat → State → Res State} {s : State} {addr : Word} {w : Width} {v : Word}
    (h : s.flatAt addr w = true) : busWriteWith k s addr w v = .next (s.putFlat addr w v) := by
  obtain ⟨h1, h2⟩ := (State.flatAt_iff s addr w).1 h
  simp only [busWriteWith, h1, h2, if_true, State.putFlat]

theorem busWriteWith_unit {k : Nat → State → Res State} {s : State} {addr : Word} {w : Width} {v : Word}
    {u : IoUnit} (h : s.hitsUnit addr w u) :
    busWriteWith k s addr w v =
      if u.startsBlock (u.offset addr w) w then k u.id (s.putUnit u addr w v)
      else .next (s.putUnit u addr w v) := by
  unfold State.hitsUnit at h
  simp only [busWriteWith, h, IoUnit.offset, State.putUnit]
  rfl

theorem busWriteWith_unmapped {k : Nat → State → Res State} {s : State} {addr : Word} {w : Width} {v : Word}
    (h : s.unmappedAt addr w = true) :
    busWriteWith k s addr w v = raise s (.unmappedAccess (align addr w) w .write s.pc) := by
  obtain ⟨h1, h2⟩ := (State.unmappedAt_iff s addr w).1 h
  have : ¬ (align addr w).toNat + w.bytes ≤ s.cfg.memSize := by omega
  simp only [busWriteWith, h1, this, if_false]

theorem busWrite_flat {s : State} {addr : Word} {w : Width} {v : Word} (h : s.flatAt addr w = true) :
    busWrite s addr w v = .next (s.putFlat addr w v) := busWriteWith_flat h

theorem busWrite_unmapped {s : State} {addr : Word} {w : Width} {v : Word} (h : s.unmappedAt addr w = true) :
    busWrite s addr w v = raise s (.unmappedAccess (align addr w) w .write s.pc) := busWriteWith_unmapped h

theorem busWrite_unit {s : State} {addr : Word} {w : Width} {v : Word} {u : IoUnit} (h : s.hitsUnit addr w u)
    (hb : u.startsBlock (u.offset addr w) w = false) :
    busWrite s addr w v = .next (s.putUnit u addr w v) := by
  unfold busWrite; rw [busWriteWith_unit h, hb]; rfl

/-- A read that reaches a unit or flat memory gives the value there; only `draws` may move on. -/
theorem busRead_readable {s : State} {addr : Word} {w : Width} (h : s.readable addr w = true) :
    ∃ t, busRead s addr w = .next (s.valueAt addr w, t) ∧ (t = s ∨ t = s.drawn) := by
  unfold State.readable State.valueAt at *
  cases hu : s.unitAt (align addr w) with
  | some u => exact ⟨_, busRead_unit hu, .inr rfl⟩
  | none =>
    rw [hu] at h
    exact ⟨_, busRead_flat (by simpa using h), .inl rfl⟩

/-- A write that is done at once stores its bytes and leaves everything but memory, units and `draws`. -/
theorem busWrite_writable {s : State} {addr : Word} {w : Width} {v : Word} (h : s.writable addr w = true) :
    ∃ t, busWrite s addr w v = .next t ∧ stored addr w v s t ∧ t.regs = s.regs ∧ t.pc = s.pc ∧ t.sr = s.sr ∧
      sameControl s t := by
  unfold State.writable at h
  split at h
  · rename_i u hu
    refine ⟨_, busWrite_unit (u := u) hu (by simpa using h), ⟨fun hn => ?_, fun x hx => ?_⟩, rfl, rfl, rfl, rfl, rfl,
      rfl, rfl⟩
    · rw [hu] at hn; cases hn
    · have : x = u := Option.some.inj (hx.symm.trans hu)
      subst this
      exact ⟨fun _ => rfl, rfl⟩
  · rename_i hu
    refine ⟨_, busWrite_flat h, ⟨fun _ => ⟨⟨fun k hk => ?_, fun a ha => ?_⟩, rfl⟩, fun x hx => ?_⟩, rfl, rfl, rfl, rfl,
      rfl, rfl, rfl⟩
    · simp only [State.byteAt, State.putFlat, Memory.byte_write]
      rw [if_pos (by omega), Nat.add_sub_cancel_left]
    · simp only [State.byteAt, State.putFlat, Memory.byte_write, touches] at *
      rw [if_neg ha]
    · exact absurd (hx.symm.trans hu) (by simp)

/-- A property that every part of a bus access keeps. -/
structure BusInv (P : State → Prop) : Prop where
  flat : ∀ s addr w v, P s → s.flatAt addr w = true → P (s.putFlat addr w v)
  unit : ∀ s addr w v u, P s → s.hitsUnit addr w u → P (s.putUnit u addr w v)
  drawn : ∀ s, P s → P s.drawn
  advance : ∀ s id, P s → P (s.mapUnit id IoUnit.advanceDma)
  finish : ∀ s id, P s → P (s.mapUnit id IoUnit.finishBlock)

section
variable {P : State → Prop} (hP : BusInv P)
include hP

theorem BusInv.read {s t : State} {addr : Word} {w : Width} {v : Word} (hs : P s)
    (h : busRead s addr w = .next (v, t)) : P t := by
  rcases busRead_cases h with ⟨_, _, _, rfl⟩ | ⟨_, _, rfl⟩
  · exact hP.drawn s hs
  · exact hs

theorem BusInv.writeWith {k : Nat → State → Res State} (hk : ∀ id s t, P s → k id s = .next t → P t)
    {s t : State} {addr : Word} {w : Width} {v : Word} (hs : P s)
    (h : busWriteWith k s addr w v = .next t) : P t := by
  rcases s.access_cases addr w with ⟨u, hu⟩ | hf | hu
  · rw [busWriteWith_unit hu] at h
    have h1 := hP.unit s addr w v u hs hu
    split at h
    · exact hk _ _ _ h1 h
    · injection h with h; exact h ▸ h1
  · rw [busWriteWith_flat hf] at h
    injection h with h; exact h ▸ hP.flat s addr w v hs hf
  · rw [busWriteWith_unmapped hu] at h
    exact absurd h raise_ne_next

theorem BusInv.transfer {k : Nat → State → Res State} (hk : ∀ id s t, P s → k id s = .next t → P t)
    {id : Nat} {d : Dma} {s t : State} (hs : P s) (h : dmaTransferWith k id d s = .next t) : P t := by
  obtain ⟨⟨v, s1⟩, h1, h⟩ := Res.andThen_eq_next.1 h
  obtain ⟨s2, h2, h⟩ := Res.andThen_eq_next.1 h
  injection h with h
  exact h ▸ hP.advance _ _ (hP.writeWith hk (hP.read hs h1) h2)

theorem BusInv.block {fuel id : Nat} {s t : State} (hs : P s) (h : dmaBlock fuel id s = .next t) : P t := by
  induction fuel generalizing id s t with
  | zero => exact nomatch h
  | succ fuel ih =>
    unfold dmaBlock at h
    split at h
    · injection h with h; exact h ▸ hs
    · split at h
      · injection h with h; exact h ▸ hP.finish s id hs
      · obtain ⟨s1, h1, h2⟩ := Res.andThen_eq_next.1 h
        exact ih (hP.transfer (fun _ _ _ => ih) hs h1) h2

/-- A property kept by every part of a bus access is kept by a bus write, block transfers and all. -/
theorem BusInv.write {s t : State} {addr : Word} {w : Width} {v : Word} (hs : P s)
    (h : busWrite s addr w v = .next t) : P t :=
  hP.writeWith (fun _ _ _ => hP.block) hs h

end

/-! ## The bound of a block transfer -/

/-- A bus write whose block transfers answer as `k`'s do answers as it does. -/
theorem busWriteWith_mono {k k' : Nat → State → Res State}
    (hk : ∀ id s t, k id s = .next t → k' id s = .next t) {s t : State} {addr : Word} {w : Width} {v : Word}
    (h : busWriteWith k s addr w v = .next t) : busWriteWith k' s addr w v = .next t := by
  rcases s.access_cases addr w with ⟨u, hu⟩ | hf | hu
  · rw [busWriteWith_unit hu] at h ⊢
    split at h
    · rw [if_pos ‹_›]; exact hk _ _ _ h
    · rw [if_neg ‹_›]; exact h
  · rw [busWriteWith_flat hf] at h ⊢; exact h
  · rw [busWriteWith_unmapped hu] at h
    exact absurd h raise_ne_next

theorem dmaTransferWith_mono {k k' : Nat → State → Res State}
    (hk : ∀ id s t, k id s = .next t → k' id s = .next t) {id : Nat} {d : Dma} {s t : State}
    (h : dmaTransferWith k id d s = .next t) : dmaTransferWith k' id d s = .next t := by
  obtain ⟨p, h1, h⟩ := Res.andThen_eq_next.1 h
  obtain ⟨s2, h2, h⟩ := Res.andThen_eq_next.1 h
  exact Res.andThen_eq_next.2 ⟨p, h1, Res.andThen_eq_next.2 ⟨s2, busWriteWith_mono hk h2, h⟩⟩

/-- A block transfer that ends within a bound ends alike within every larger one: the bound decides no answer. -/
theorem dmaBlock_mono {m n id : Nat} {s t : State} (hmn : m ≤ n) (h : dmaBlock m id s = .next t) :
    dmaBlock n id s = .next t := by
  induction m generalizing n id s t with
  | zero => exact nomatch h
  | succ m ih =>
    obtain ⟨n, rfl⟩ : ∃ k, n = k + 1 := ⟨n - 1, by omega⟩
    have hmn : m ≤ n := by omega
    unfold dmaBlock at h ⊢
    split at h
    · exact h
    · split at h
      · rw [if_pos ‹_›]; exact h
      · rw [if_neg ‹_›]
        obtain ⟨s1, h1, h2⟩ := Res.andThen_eq_next.1 h
        exact Res.andThen_eq_next.2 ⟨s1, dmaTransferWith_mono (fun _ _ _ => ih hmn) h1, ih hmn h2⟩

/-! ## Writing pc -/

/-- Everything a pc write that succeeds can do (R116). -/
theorem writePC_cases {s t : State} {a : Word} (h : writePC s a = .next t) :
    t = { s with pc := a &&& 0xFFFFFFFC#32 } ∧
      (s.cfg.target = .mask ∨ s.cfg.target = .fault ∧ a &&& 0xFFFFFFFC#32 = a) := by
  unfold writePC at h
  split at h
  · rename_i hc
    injection h with h; exact ⟨h.symm, .inl hc⟩
  · rename_i hc
    split at h
    · rename_i ha
      injection h with h
      have hm : a &&& 0xFFFFFFFC#32 = a := by
        apply BitVec.eq_of_toNat_eq
        rw [and_mask_word]
        have := congrArg BitVec.toNat ha
        simp at this
        omega
      rw [hm]
      exact ⟨h.symm, .inr ⟨hc, rfl⟩⟩
    · exact absurd h raise_ne_next

theorem writePC_mask {s : State} (h : s.cfg.target = .mask) (a : Word) :
    writePC s a = .next { s with pc := a &&& 0xFFFFFFFC#32 } := by
  unfold writePC; rw [h]

/-- A pc write that goes through puts pc at the word that contains the target. -/
theorem writePC_ok {s : State} {a : Word} (h : s.targetOk a = true) :
    writePC s a = .next { s with pc := wordOf a } := by
  have hw : (wordOf a).toNat = a.toNat / 4 * 4 := by
    have := a.isLt
    simp [wordOf]; omega
  have ha : a &&& 0xFFFFFFFC#32 = wordOf a := BitVec.eq_of_toNat_eq (by rw [and_mask_word, hw])
  unfold State.targetOk at h
  unfold writePC
  cases hc : s.cfg.target with
  | mask => simp only [ha]
  | fault =>
    have h4 : a.toNat % 4 = 0 := by simpa [hc] using h
    have : a.extractLsb' 0 2 = 0#2 := by apply BitVec.eq_of_toNat_eq; simp; omega
    have he : a = wordOf a := BitVec.eq_of_toNat_eq (by omega)
    simp only [this, if_true]
    rw [← he]

/-- A pc write that does not go through stops the machine (R116). -/
theorem writePC_misaligned {s : State} {a : Word} (hc : s.cfg.target = .fault) (h : a.toNat % 4 ≠ 0) :
    writePC s a = raise s (.misalignedTarget a s.pc) := by
  unfold writePC
  have : ¬ a.extractLsb' 0 2 = 0#2 := by
    intro h2
    have := congrArg BitVec.toNat h2
    simp at this
    omega
  simp only [hc, this, if_false]

/-! ## What the poll sees -/

/-- The poll's first step makes INT0-2 the level lines. -/
theorem State.recomputePending_pendingAre (s : State) : pendingAre s s.recomputePending := by
  unfold pendingAre State.flag srGet
  simp only [State.getLsbD_sr_recomputePending, SrBit.pos]
  simp

/-- The poll's first step keeps every other bit of SR. -/
theorem State.recomputePending_sameSr (s : State) : sameSrBut intBits s s.recomputePending := by
  intro k h
  simp only [intBits, SrBit.pos, List.mem_cons, List.not_mem_nil, or_false, not_or] at h
  rw [State.getLsbD_sr_recomputePending]
  simp [h]

/-- What is pending and enabled after it is what signals and is enabled before it. -/
theorem State.recomputePending_pendingEnabled (s : State) :
    s.recomputePending.pendingEnabled = s.acceptable := by
  have h := s.recomputePending_pendingAre
  have e0 : s.recomputePending.flag .eint0 = s.flag .eint0 := s.recomputePending_sameSr 5 (by decide)
  have e1 : s.recomputePending.flag .eint1 = s.flag .eint1 := s.recomputePending_sameSr 6 (by decide)
  have e2 : s.recomputePending.flag .eint2 = s.flag .eint2 := s.recomputePending_sameSr 7 (by decide)
  unfold State.pendingEnabled State.acceptable
  rw [h.1, h.2.1, h.2.2, e0, e1, e2]

/-! ## The whole step -/

/-- A property that every part of an instruction, an entry and an event keeps. -/
structure StepInv (P : State → Prop) : Prop extends BusInv P where
  setReg : ∀ s r v, P s → P (s.setReg r v)
  setFlag : ∀ s f b, P s → P (s.setFlag f b)
  moveSr : ∀ s v, P s → P { s with sr := srLow v }
  next : ∀ s, P s → P s.advance
  target : ∀ s (a : Word), P s → P { s with pc := a &&& 0xFFFFFFFC#32 }
  iif : ∀ s b, P s → P { s with iif := b }
  halt : ∀ s, P s → P { s with run := .halted }
  acknowledge : ∀ s id, P s → P (s.mapUnit id IoUnit.acknowledge)
  steal : ∀ s id, P s → P (s.mapUnit id IoUnit.finishSteal)
  tick : ∀ s id n, P s → P (s.mapUnit id (IoUnit.tick n))
  force : ∀ s id, P s → P (s.mapUnit id IoUnit.request)
  clear : ∀ s id, P s → P (s.mapUnit id IoUnit.clearRequest)
  inject : ∀ s id off b, P s → P (s.mapUnit id (IoUnit.inject off b))
  schedule : ∀ s es, P s → P { s with schedule := es }

section
variable {P : State → Prop} (hP : StepInv P)
include hP

theorem StepInv.writePC {s t : State} {a : Word} (hs : P s) (h : writePC s a = .next t) : P t :=
  (writePC_cases h).1 ▸ hP.target s a hs

theorem StepInv.push {s t : State} {v : Word} (hs : P s) (h : pushWord s v = .next t) : P t :=
  hP.write (hP.setReg s _ _ hs) h

theorem StepInv.popPC {s t : State} (hs : P s) (h : popPC s = .next t) : P t := by
  obtain ⟨⟨v, s1⟩, h1, h⟩ := Res.andThen_eq_next.1 h
  exact hP.writePC (hP.setReg _ _ _ (hP.read hs h1)) h

theorem StepInv.setNZ {s : State} (r : Word) (hs : P s) : P (s.setNZ r) :=
  hP.setFlag _ _ _ (hP.setFlag _ _ _ hs)

theorem StepInv.setAluFlags {s : State} (o : AluOut) (hs : P s) : P (s.setAluFlags o) :=
  hP.setFlag _ _ _ (hP.setFlag _ _ _ (hP.setNZ _ hs))

theorem StepInv.finishAlu {s : State} (rd : Reg) (o : AluOut) (hs : P s) : P (s.finishAlu rd o) :=
  hP.next _ (hP.setAluFlags _ (hP.setReg _ _ _ hs))

theorem StepInv.finishMove {s : State} (rd : Reg) (v : Word) (hs : P s) : P (s.finishMove rd v) := by
  rw [State.finishMove_eq]
  refine hP.next _ ?_
  split
  · exact hP.setNZ _ (hP.setReg _ _ _ hs)
  · exact hP.setReg _ _ _ hs

theorem StepInv.finishMoveSr {s : State} (v : Word) (hs : P s) : P (s.finishMoveSr v) :=
  hP.next _ (hP.moveSr _ _ hs)

theorem StepInv.loadReg {w : Width} {r : Reg} {a : Addr} {s t : State} (hs : P s)
    (h : loadReg w r a s = .next t) : P t := by
  obtain ⟨⟨v, s1⟩, h1, h⟩ := Res.andThen_eq_next.1 h
  injection h with h
  exact h ▸ hP.next _ (hP.setReg _ _ _ (hP.read hs h1))

theorem StepInv.storeReg {w : Width} {r : Reg} {a : Addr} {s t : State} (hs : P s)
    (h : storeReg w r a s = .next t) : P t := by
  obtain ⟨s1, h1, h⟩ := Res.andThen_eq_next.1 h
  injection h with h
  exact h ▸ hP.next _ (hP.write hs h1)

theorem StepInv.whenCond {cond : Cond} {s t : State} {r : Res State} (hs : P s) (hr : r = .next t → P t)
    (h : whenCond cond s r = .next t) : P t := by
  unfold Machine.whenCond at h
  split at h
  · exact hr h
  · injection h with h; exact h ▸ hP.next s hs

/-- A property kept by every part of an instruction is kept by every instruction. -/
theorem StepInv.exec {i : Instr} {s t : State} (hs : P s) (h : exec i s = .next t) : P t := by
  cases i with
  | moveRegReg => injection h with h; exact h ▸ hP.finishMove _ _ hs
  | moveImmReg => injection h with h; exact h ▸ hP.finishMove _ _ hs
  | moveSrReg => injection h with h; exact h ▸ hP.finishMove _ _ hs
  | moveRegSr => injection h with h; exact h ▸ hP.finishMoveSr _ hs
  | moveSrSr => injection h with h; exact h ▸ hP.finishMoveSr _ hs
  | or => injection h with h; exact h ▸ hP.finishAlu _ _ hs
  | and => injection h with h; exact h ▸ hP.finishAlu _ _ hs
  | xor => injection h with h; exact h ▸ hP.finishAlu _ _ hs
  | add => injection h with h; exact h ▸ hP.finishAlu _ _ hs
  | adc => injection h with h; exact h ▸ hP.finishAlu _ _ hs
  | sub => injection h with h; exact h ▸ hP.finishAlu _ _ hs
  | sbc => injection h with h; exact h ▸ hP.finishAlu _ _ hs
  | rotl => injection h with h; exact h ▸ hP.finishAlu _ _ hs
  | rotr => injection h with h; exact h ▸ hP.finishAlu _ _ hs
  | shl => injection h with h; exact h ▸ hP.finishAlu _ _ hs
  | shr => injection h with h; exact h ▸ hP.finishAlu _ _ hs
  | ashr => injection h with h; exact h ▸ hP.finishAlu _ _ hs
  | cmp => injection h with h; exact h ▸ hP.next _ (hP.setAluFlags _ hs)
  | pop =>
    obtain ⟨⟨v, s1⟩, h1, h⟩ := Res.andThen_eq_next.1 h
    injection h with h
    exact h ▸ hP.next _ (hP.setReg _ _ _ (hP.setReg _ _ _ (hP.read hs h1)))
  | push =>
    obtain ⟨s1, h1, h⟩ := Res.andThen_eq_next.1 h
    injection h with h
    exact h ▸ hP.next _ (hP.push hs h1)
  | loadb => exact hP.loadReg hs h
  | storeb => exact hP.storeReg hs h
  | loadh => exact hP.loadReg hs h
  | storeh => exact hP.storeReg hs h
  | load => exact hP.loadReg hs h
  | store => exact hP.storeReg hs h
  | jp => exact hP.whenCond hs (hP.writePC hs) h
  | call =>
    refine hP.whenCond hs (fun h => ?_) h
    obtain ⟨s1, h1, h⟩ := Res.andThen_eq_next.1 h
    exact hP.writePC (hP.push hs h1) h
  | jr => exact hP.whenCond hs (hP.writePC hs) h
  | ret => exact hP.whenCond hs (hP.popPC hs) h
  | reti =>
    refine hP.whenCond hs (fun h => ?_) h
    obtain ⟨s1, h1, h⟩ := Res.andThen_eq_next.1 h
    injection h with h
    exact h ▸ hP.setFlag _ _ _ (hP.popPC hs h1)
  | retn =>
    refine hP.whenCond hs (fun h => ?_) h
    obtain ⟨s1, h1, h⟩ := Res.andThen_eq_next.1 h
    injection h with h
    exact h ▸ hP.iif _ _ (hP.popPC hs h1)
  | halt =>
    refine hP.whenCond hs (fun h => ?_) h
    injection h with h
    exact h ▸ hP.halt _ (hP.next _ hs)

theorem StepInv.nmiEntry {id : Nat} {s t : State} (hs : P s) (h : nmiEntry id s = .next t) : P t := by
  obtain ⟨s1, h1, h⟩ := Res.andThen_eq_next.1 h
  exact hP.writePC (hP.push (hP.iif _ _ (hP.acknowledge _ _ hs)) h1) h

theorem StepInv.vectorPC {s t : State} (hs : P s) (h : vectorPC s = .next t) : P t := by
  unfold Machine.vectorPC at h
  split at h
  · obtain ⟨⟨v, s1⟩, h1, h⟩ := Res.andThen_eq_next.1 h
    exact hP.writePC (hP.read hs h1) h
  · exact hP.writePC hs h

theorem StepInv.maskableEntry {s t : State} (hs : P s) (h : maskableEntry s = .next t) : P t := by
  obtain ⟨s1, h1, h⟩ := Res.andThen_eq_next.1 h
  exact hP.vectorPC (hP.push (hP.setFlag _ _ _ hs) h1) h

theorem StepInv.recomputePending {s : State} (hs : P s) : P s.recomputePending :=
  hP.setFlag _ _ _ (hP.setFlag _ _ _ (hP.setFlag _ _ _ hs))

theorem StepInv.poll {s t : State} (hs : P s) (h : poll s = .next t) : P t := by
  unfold Machine.poll at h
  dsimp only at h
  split at h
  · split at h
    · exact hP.nmiEntry (hP.recomputePending hs) h
    · split at h
      · exact hP.maskableEntry (hP.recomputePending hs) h
      · injection h with h; exact h ▸ hP.recomputePending hs
  · injection h with h; exact h ▸ hP.recomputePending hs

theorem StepInv.afterExec {s t : State} (hs : P s) (h : afterExec s = .next t) : P t := by
  unfold Machine.afterExec at h
  split at h
  · injection h with h; exact h ▸ hs
  · exact hP.poll hs h

theorem StepInv.cycle {s t : State} (hs : P s) (h : cycle s = .next t) : P t := by
  obtain ⟨⟨w, s1⟩, h1, h⟩ := Res.andThen_eq_next.1 h
  obtain ⟨i, _, h⟩ := Res.andThen_eq_next.1 h
  obtain ⟨s2, h2, h⟩ := Res.andThen_eq_next.1 h
  exact hP.afterExec (hP.exec (hP.read hs h1) h2) h

theorem StepInv.tickUnit {id : Nat} {s t : State} (hs : P s) (h : tickUnit id s = .next t) : P t := by
  unfold Machine.tickUnit at h
  split at h
  · split at h
    · split at h
      · injection h with h; exact h ▸ hP.steal _ _ hs
      · obtain ⟨s1, h1, h⟩ := Res.andThen_eq_next.1 h
        injection h with h
        exact h ▸ hP.steal _ _ (hP.transfer (fun _ _ _ => hP.block) hs h1)
    · injection h with h; exact h ▸ hs
  · injection h with h; exact h ▸ hP.drawn _ (hP.tick _ _ _ hs)

theorem StepInv.tickTimes {k id : Nat} {s t : State} (hs : P s) (h : tickTimes k id s = .next t) : P t := by
  induction k generalizing s with
  | zero => injection h with h; exact h ▸ hs
  | succ k ih =>
    obtain ⟨s1, h1, h⟩ := Res.andThen_eq_next.1 h
    exact ih (hP.tickUnit hs h1) h

theorem StepInv.runEvent {e : Event} {s t : State} (hs : P s) (h : runEvent e s = .next t) : P t := by
  cases e with
  | tick => exact hP.tickTimes hs h
  | force => injection h with h; exact h ▸ hP.force _ _ hs
  | clear => injection h with h; exact h ▸ hP.clear _ _ hs
  | inject => injection h with h; exact h ▸ hP.inject _ _ _ _ hs

theorem StepInv.runEvents {es : List Event} {s t : State} (hs : P s) (h : runEvents es s = .next t) : P t := by
  induction es generalizing s with
  | nil => injection h with h; exact h ▸ hs
  | cons e es ih =>
    obtain ⟨s1, h1, h⟩ := Res.andThen_eq_next.1 h
    exact ih (hP.runEvent hs h1) h

theorem StepInv.interval {s t : State} (hs : P s) (h : interval s = .next t) : P t := by
  unfold Machine.interval at h
  split at h
  · injection h with h; exact h ▸ hs
  · exact hP.runEvents (hP.schedule _ _ hs) h

/-- A property kept by every part of a step is kept by the step. -/
theorem StepInv.step {s t : State} (hs : P s) (h : step s = .next t) : P t := by
  unfold Machine.step at h
  split at h
  · obtain ⟨s1, h1, h⟩ := Res.andThen_eq_next.1 h
    exact hP.cycle (hP.interval hs h1) h
  · injection h with h; exact h ▸ hs
  · exact nomatch h

end

end Sys2Proof.Machine
end

