-- ==== Sys2Proof/Laws/Devices.lean ====
section
/-! SUPPORT. What the operations on a unit leave alone: its place on the bus, and the form of its bytes. -/

namespace Sys2Proof.Machine

/-! ## A unit's place: id, start, count and level -/

theorem IoUnit.place_write (n off : Nat) (w : Width) (v : Word) (u : IoUnit) : (u.write n off w v).place = u.place := by
  unfold IoUnit.write
  split <;> simp_all [IoUnit.place, IoUnit.count, Device.count, Generic.write]

theorem IoUnit.place_advanceDma (u : IoUnit) : u.advanceDma.place = u.place := by
  unfold IoUnit.advanceDma
  split <;> simp_all [IoUnit.place, IoUnit.count, Device.count]

theorem IoUnit.place_raiseReady (u : IoUnit) : u.raiseReady.place = u.place := by
  unfold IoUnit.raiseReady
  split <;> simp_all [IoUnit.place, IoUnit.count, Device.count]

theorem IoUnit.place_finishBlock (u : IoUnit) : u.finishBlock.place = u.place := by
  unfold IoUnit.finishBlock
  split
  · split
    · exact u.place_raiseReady
    · rfl
  all_goals rfl

theorem IoUnit.place_finishSteal (u : IoUnit) : u.finishSteal.place = u.place := by
  unfold IoUnit.finishSteal
  split
  · split
    · exact u.place_raiseReady
    · rfl
  all_goals rfl

theorem IoUnit.place_tick (n : Nat) (u : IoUnit) : (u.tick n).place = u.place := by
  unfold IoUnit.tick
  split <;> simp_all [IoUnit.place, IoUnit.count, Device.count]

theorem IoUnit.place_inject (off : Nat) (b : Byte) (u : IoUnit) : (u.inject off b).place = u.place := by
  unfold IoUnit.inject
  split
  · split
    · simp_all [IoUnit.place, IoUnit.count, Device.count]
    · rfl
  all_goals rfl

theorem IoUnit.place_clearRequest (u : IoUnit) : u.clearRequest.place = u.place := by
  unfold IoUnit.clearRequest; split <;> rfl

theorem IoUnit.place_afterReset (n : Nat) (u : IoUnit) : (u.afterReset n).place = u.place := by
  unfold IoUnit.afterReset Device.afterReset
  cases h : u.device <;> simp [IoUnit.place, IoUnit.count, Device.count, h]

/-- A change of one unit that keeps its place keeps every place. -/
theorem State.place_mapUnit (s : State) (id : Nat) {f : IoUnit → IoUnit} (hf : ∀ u, (f u).place = u.place) :
    (s.mapUnit id f).units.map IoUnit.place = s.units.map IoUnit.place := by
  simp only [State.mapUnit, List.map_map]
  refine List.map_congr_left fun u _ => ?_
  simp only [Function.comp]
  split
  · exact hf u
  · rfl

/-! ## What a unit's place decides -/

theorem IoUnit.covers_congr {u v : IoUnit} (h : u.place = v.place) (a : Word) : u.covers a = v.covers a := by
  simp only [IoUnit.place, Prod.mk.injEq] at h
  unfold IoUnit.covers IoUnit.stop
  rw [h.2.1, h.2.2.1]

/-- R39 is about places alone: units of the same places make a legal configuration or none. -/
theorem unitsOk_congr {us vs : List IoUnit} (h : us.map IoUnit.place = vs.map IoUnit.place) :
    unitsOk us = unitsOk vs := by
  let ok (ps : List (Nat × Word × Nat × IrqLevel)) : Bool :=
    decide (ps.Pairwise fun p q =>
      p.2.1.toNat + 4 * p.2.2.1 ≤ q.2.1.toNat ∨ q.2.1.toNat + 4 * q.2.2.1 ≤ p.2.1.toNat) &&
    decide ((ps.map Prod.fst).Nodup) && decide ((ps.filter fun p => p.2.2.2 == .level3).length ≤ 1) &&
    ps.all fun p => p.2.1.toNat % 4 == 0 && decide (1 ≤ p.2.2.1)
  have hok : ∀ ws : List IoUnit, unitsOk ws = ok (ws.map IoUnit.place) := by
    intro ws
    rw [Bool.eq_iff_iff]
    simp only [ok, unitsOk, IoUnit.disjoint, List.pairwise_map, List.filter_map, List.length_map, List.map_map,
      List.all_map, Function.comp_def, Bool.and_eq_true, Bool.or_eq_true, decide_eq_true_eq, List.all_eq_true,
      beq_iff_eq]
    exact Iff.rfl
  rw [hok, hok, h]

section
variable (s : State) (id : Nat) {f : IoUnit → IoUnit} (hf : ∀ u, (f u).place = u.place)
include hf

/-- After a change of one unit that keeps its place, an address reaches the same unit, changed. -/
theorem State.unitAt_mapUnit (a : Word) :
    (s.mapUnit id f).unitAt a = (s.unitAt a).map fun u => if u.id = id then f u else u := by
  unfold State.unitAt State.mapUnit
  rw [List.find?_map]
  congr 2
  funext u
  simp only [Function.comp]
  split
  · exact IoUnit.covers_congr (hf u) a
  · rfl

theorem State.flatAt_mapUnit (addr : Word) (w : Width) : (s.mapUnit id f).flatAt addr w = s.flatAt addr w := by
  unfold State.flatAt
  rw [s.unitAt_mapUnit id hf, Option.isNone_map]
  rfl

theorem State.unmappedAt_mapUnit (addr : Word) (w : Width) :
    (s.mapUnit id f).unmappedAt addr w = s.unmappedAt addr w := by
  unfold State.unmappedAt
  rw [s.unitAt_mapUnit id hf, Option.isNone_map]
  rfl

theorem State.readable_mapUnit (addr : Word) (w : Width) :
    (s.mapUnit id f).readable addr w = s.readable addr w := by
  unfold State.readable
  rw [s.flatAt_mapUnit id hf, s.unitAt_mapUnit id hf]
  simp

end

/-- Where ids name one unit each, the unit of an attached unit's id is that unit. -/
theorem State.unitOf_mem {s : State} {u : IoUnit} (hn : (s.units.map IoUnit.id).Nodup) (hu : u ∈ s.units) :
    s.unitOf u.id = some u := by
  unfold State.unitOf
  cases h : s.units.find? (·.id == u.id) with
  | none => exact absurd (List.find?_eq_none.1 h u hu) (by simp)
  | some v =>
    have h1 : v.id = u.id := by simpa using List.find?_some h
    rw [List.inj_on_of_nodup_map hn (List.mem_of_find?_eq_some h) hu h1]

theorem State.dmaOf_mem {s : State} {u : IoUnit} {d : Dma} (hn : (s.units.map IoUnit.id).Nodup) (hu : u ∈ s.units)
    (hd : u.device = .dma d) : s.dmaOf u.id = some d := by
  unfold State.dmaOf
  rw [State.unitOf_mem hn hu]
  cases u
  cases hd
  rfl

/-! ## A generic unit's bytes keep the canonical form -/

theorem Generic.wf_write {g : Generic} (h : Memory.wf g.cells = true) (off : Nat) (w : Width) (v : Word) :
    Memory.wf (g.write off w v).cells = true := Memory.wf_write h off w v

/-- A byte of a generic unit after a write (R149). -/
theorem Generic.byte_write (g : Generic) (off : Nat) (w : Width) (v : Word) (x : Nat) :
    (g.write off w v).byte x = if off ≤ x ∧ x < off + w.bytes then byteOf v (x - off) else g.byte x := by
  by_cases hx : off ≤ x ∧ x < off + w.bytes
  · obtain ⟨k, rfl⟩ : ∃ k, x = off + k := ⟨x - off, by omega⟩
    rw [if_pos hx, Nat.add_sub_cancel_left]
    have hk : k < w.bytes := by omega
    cases w <;> simp only [Width.bytes] at hk <;> interval_cases k <;>
      simp [Generic.write, Generic.byte, Memory.write, Memory.lookup_put]
  · rw [if_neg hx]
    have hn : ∀ k, k < w.bytes → off + k ≠ x := by omega
    have h0 : off ≠ x := hn 0 (by cases w <;> decide)
    cases w
    · simp [Generic.write, Generic.byte, Memory.write, Memory.lookup_put, h0]
    · simp [Generic.write, Generic.byte, Memory.write, Memory.lookup_put, h0, hn 1 (by decide)]
    · simp [Generic.write, Generic.byte, Memory.write, Memory.lookup_put, h0, hn 1 (by decide), hn 2 (by decide),
        hn 3 (by decide)]

end Sys2Proof.Machine
end

