-- ==== Sys2Proof/Laws/PerInstr.lean ====
section
/-! SUPPORT. The opcode field of every instruction's canonical word (30_encoding R60), one lemma per constructor. -/

namespace Sys2Proof

/-- R60: the opcode of each instruction. -/
def Instr.opcode : Instr → BitVec 5
  | .moveRegReg _ _ => 0b00000#5
  | .moveImmReg _ _ => 0b00000#5
  | .moveSrReg _ => 0b00000#5
  | .moveRegSr _ => 0b00000#5
  | .moveSrSr => 0b00000#5
  | .or _ _ _ => 0b00001#5
  | .and _ _ _ => 0b00010#5
  | .xor _ _ _ => 0b00011#5
  | .add _ _ _ => 0b00100#5
  | .adc _ _ _ => 0b00101#5
  | .sub _ _ _ => 0b00110#5
  | .sbc _ _ _ => 0b00111#5
  | .rotl _ _ _ => 0b01000#5
  | .rotr _ _ _ => 0b01001#5
  | .shl _ _ _ => 0b01010#5
  | .shr _ _ _ => 0b01011#5
  | .ashr _ _ _ => 0b01100#5
  | .cmp _ _ => 0b01101#5
  | .pop _ => 0b10000#5
  | .push _ => 0b10001#5
  | .loadb _ _ => 0b10010#5
  | .storeb _ _ => 0b10011#5
  | .loadh _ _ => 0b10100#5
  | .storeh _ _ => 0b10101#5
  | .load _ _ => 0b10110#5
  | .store _ _ => 0b10111#5
  | .jp _ _ => 0b11000#5
  | .call _ _ => 0b11001#5
  | .jr _ _ => 0b11010#5
  | .ret _ => 0b11011#5
  | .reti _ => 0b11011#5
  | .retn _ => 0b11011#5
  | .halt _ => 0b11111#5

theorem opField_encAlu (op : BitVec 5) (rd a : Reg) (b : Src2) : opField (encAlu op rd a b) = op := by
  unfold opField encAlu
  ext k hk
  simp only [BitVec.getElem_extractLsb', BitVec.getLsbD_append]
  interval_cases k <;> simp [BitVec.getLsbD_eq_getElem]

theorem opField_encCmp (op : BitVec 5) (a : Reg) (b : Src2) : opField (encCmp op a b) = op := by
  unfold opField encCmp
  ext k hk
  simp only [BitVec.getElem_extractLsb', BitVec.getLsbD_append]
  interval_cases k <;> simp [BitVec.getLsbD_eq_getElem]

theorem opField_encStk (op : BitVec 5) (r : Reg) : opField (encStk op r) = op := by
  unfold opField encStk
  ext k hk
  simp only [BitVec.getElem_extractLsb', BitVec.getLsbD_append]
  interval_cases k <;> simp [BitVec.getLsbD_eq_getElem]

theorem opField_encJmp (op : BitVec 5) (cond : Cond) (fn : BitVec 1) (low : BitVec 20) : opField (encJmp op cond fn low) = op := by
  unfold opField encJmp
  ext k hk
  simp only [BitVec.getElem_extractLsb', BitVec.getLsbD_append]
  interval_cases k <;> simp [BitVec.getLsbD_eq_getElem]

theorem opField_encMem (op : BitVec 5) (r : Reg) (a : Addr) : opField (encMem op r a) = op := by
  cases a <;>
  · unfold opField encMem
    ext k hk
    simp only [BitVec.getElem_extractLsb', BitVec.getLsbD_append]
    interval_cases k <;> simp [BitVec.getLsbD_eq_getElem]

theorem opField_encMove (fn : BitVec 1) (rd : Reg) (srd srs : BitVec 1) (low : BitVec 20) : opField (encMove fn rd srd srs low) = 0b00000#5 := by
  unfold opField encMove
  ext k hk
  simp only [BitVec.getElem_extractLsb', BitVec.getLsbD_append]
  interval_cases k <;> simp

theorem opField_encRet (cond : Cond) (type : BitVec 2) : opField (encRet cond type) = 0b11011#5 := by
  unfold opField encRet
  ext k hk
  simp only [BitVec.getElem_extractLsb', BitVec.getLsbD_append]
  interval_cases k <;> simp

theorem opField_encHalt (cond : Cond) : opField (encHalt cond) = 0b11111#5 := by
  unfold opField encHalt
  ext k hk
  simp only [BitVec.getElem_extractLsb', BitVec.getLsbD_append]
  interval_cases k <;> simp

end Sys2Proof

namespace Sys2Proof.Laws

/-- R60: the canonical word of `i` carries the opcode of `i`. -/
def OpcodeField.Statement (i : Instr) : Prop := opField (encode i) = i.opcode

theorem OpcodeField.moveRegReg (rd rs : Reg) : OpcodeField.Statement (.moveRegReg rd rs) :=
  opField_encMove _ _ _ _ _

theorem OpcodeField.moveImmReg (rd : Reg) (imm : Word) : OpcodeField.Statement (.moveImmReg rd imm) :=
  opField_encMove _ _ _ _ _

theorem OpcodeField.moveSrReg (rd : Reg) : OpcodeField.Statement (.moveSrReg rd) :=
  opField_encMove _ _ _ _ _

theorem OpcodeField.moveRegSr (rs : Reg) : OpcodeField.Statement (.moveRegSr rs) :=
  opField_encMove _ _ _ _ _

theorem OpcodeField.moveSrSr : OpcodeField.Statement (.moveSrSr) :=
  opField_encMove _ _ _ _ _

theorem OpcodeField.or (rd src1 : Reg) (src2 : Src2) : OpcodeField.Statement (.or rd src1 src2) :=
  opField_encAlu _ _ _ _

theorem OpcodeField.and (rd src1 : Reg) (src2 : Src2) : OpcodeField.Statement (.and rd src1 src2) :=
  opField_encAlu _ _ _ _

theorem OpcodeField.xor (rd src1 : Reg) (src2 : Src2) : OpcodeField.Statement (.xor rd src1 src2) :=
  opField_encAlu _ _ _ _

theorem OpcodeField.add (rd src1 : Reg) (src2 : Src2) : OpcodeField.Statement (.add rd src1 src2) :=
  opField_encAlu _ _ _ _

theorem OpcodeField.adc (rd src1 : Reg) (src2 : Src2) : OpcodeField.Statement (.adc rd src1 src2) :=
  opField_encAlu _ _ _ _

theorem OpcodeField.sub (rd src1 : Reg) (src2 : Src2) : OpcodeField.Statement (.sub rd src1 src2) :=
  opField_encAlu _ _ _ _

theorem OpcodeField.sbc (rd src1 : Reg) (src2 : Src2) : OpcodeField.Statement (.sbc rd src1 src2) :=
  opField_encAlu _ _ _ _

theorem OpcodeField.rotl (rd src1 : Reg) (src2 : Src2) : OpcodeField.Statement (.rotl rd src1 src2) :=
  opField_encAlu _ _ _ _

theorem OpcodeField.rotr (rd src1 : Reg) (src2 : Src2) : OpcodeField.Statement (.rotr rd src1 src2) :=
  opField_encAlu _ _ _ _

theorem OpcodeField.shl (rd src1 : Reg) (src2 : Src2) : OpcodeField.Statement (.shl rd src1 src2) :=
  opField_encAlu _ _ _ _

theorem OpcodeField.shr (rd src1 : Reg) (src2 : Src2) : OpcodeField.Statement (.shr rd src1 src2) :=
  opField_encAlu _ _ _ _

theorem OpcodeField.ashr (rd src1 : Reg) (src2 : Src2) : OpcodeField.Statement (.ashr rd src1 src2) :=
  opField_encAlu _ _ _ _

theorem OpcodeField.cmp (src1 : Reg) (src2 : Src2) : OpcodeField.Statement (.cmp src1 src2) :=
  opField_encCmp _ _ _

theorem OpcodeField.pop (reg : Reg) : OpcodeField.Statement (.pop reg) :=
  opField_encStk _ _

theorem OpcodeField.push (reg : Reg) : OpcodeField.Statement (.push reg) :=
  opField_encStk _ _

theorem OpcodeField.loadb (reg : Reg) (addr : Addr) : OpcodeField.Statement (.loadb reg addr) :=
  opField_encMem _ _ _

theorem OpcodeField.storeb (reg : Reg) (addr : Addr) : OpcodeField.Statement (.storeb reg addr) :=
  opField_encMem _ _ _

theorem OpcodeField.loadh (reg : Reg) (addr : Addr) : OpcodeField.Statement (.loadh reg addr) :=
  opField_encMem _ _ _

theorem OpcodeField.storeh (reg : Reg) (addr : Addr) : OpcodeField.Statement (.storeh reg addr) :=
  opField_encMem _ _ _

theorem OpcodeField.load (reg : Reg) (addr : Addr) : OpcodeField.Statement (.load reg addr) :=
  opField_encMem _ _ _

theorem OpcodeField.store (reg : Reg) (addr : Addr) : OpcodeField.Statement (.store reg addr) :=
  opField_encMem _ _ _

theorem OpcodeField.jp (cond : Cond) (target : Src2) : OpcodeField.Statement (.jp cond target) :=
  opField_encJmp _ _ _ _

theorem OpcodeField.call (cond : Cond) (target : Src2) : OpcodeField.Statement (.call cond target) :=
  opField_encJmp _ _ _ _

theorem OpcodeField.jr (cond : Cond) (off : Word) : OpcodeField.Statement (.jr cond off) :=
  opField_encJmp _ _ _ _

theorem OpcodeField.ret (cond : Cond) : OpcodeField.Statement (.ret cond) :=
  opField_encRet _ _

theorem OpcodeField.reti (cond : Cond) : OpcodeField.Statement (.reti cond) :=
  opField_encRet _ _

theorem OpcodeField.retn (cond : Cond) : OpcodeField.Statement (.retn cond) :=
  opField_encRet _ _

theorem OpcodeField.halt (cond : Cond) : OpcodeField.Statement (.halt cond) :=
  opField_encHalt _

end Sys2Proof.Laws
end

