-- ==== Sys2Proof/Tests/Slice0.lean ====
section
/-! SUPPORT. Tests: ill-formed terms refused, a word of every instruction decoded, single steps with the results of
95_test_vectors.md, and a state that meets the hypotheses of each statement. -/

namespace Sys2Proof.Tests

/- One theorem at a time: the kernel evaluations would otherwise each hold a thread. -/
set_option Elab.async false

open Sys2Proof Sys2Proof.Machine

/-! ## Helpers -/

/-- The machine after reset with these registers, this SR and pc, and these words in flat memory. -/
def mk (regs : List (Nat × Word)) (sr pc : Word) (words : List (Nat × Word)) : State :=
  { State.reset with
    regs := regs.foldl (fun v p => v.setIfInBounds p.1 p.2) State.reset.regs
    sr := sr
    pc := pc
    mem := words.foldl (fun m p => Memory.write m p.1 .word p.2) [] }

/-- A fact about the next state, if there is one. -/
def after {α β : Type} (r : Res α) (f : α → β) : Option β :=
  match r with
  | .next t => some (f t)
  | .fault _ => none
  | .refused _ => none

/-- The reason and a fact about the state a fault leaves. -/
def faultOf {α β : Type} (r : Res α) (f : State → β) : Option (FaultReason × β) :=
  match r with
  | .next _ => none
  | .fault (.stopped reason left) => some (reason, f left)
  | .refused _ => none

/-- The word of flat memory at an address. -/
def wordAt (a : Nat) (t : State) : Word := leRead t.mem.byte a .word

/-- A register, SR and pc after one step that runs `w` at `pc`. -/
def regAfter (w pc : Word) (regs : List (Nat × Word)) (sr : Word) (words : List (Nat × Word)) (r : Reg) :
    Option (Word × Word × Word) :=
  after (step (mk regs sr pc ((pc.toNat, w) :: words))) fun t => (t.reg r, t.sr, t.pc)

/-- A word of memory, r7 and pc after one step that runs `w` at `pc`. -/
def wordAfter (w pc : Word) (regs : List (Nat × Word)) (words : List (Nat × Word)) (a : Nat) :
    Option (Word × Word × Word) :=
  after (step (mk regs 0#32 pc ((pc.toNat, w) :: words))) fun t => (wordAt a t, t.reg Reg.sp, t.pc)

theorem exists_next {α : Type} {r : Res α} (h : after r (fun _ => ()) = some ()) : ∃ t, r = .next t := by
  cases r with
  | next t => exact ⟨t, rfl⟩
  | fault e => cases h
  | refused e => cases h

/-! ## Well-formedness: each check refuses an ill-formed term (R70) -/

/-- The first value above the range and the last below it. -/
theorem test_immediate_range :
    fitsImm20 0x0007FFFF#32 = true ∧ fitsImm20 0xFFF80000#32 = true ∧
    fitsImm20 0x00080000#32 = false ∧ fitsImm20 0xFFF7FFFF#32 = false := by decide +kernel

theorem test_ill_formed_move : Instr.wellFormed (.moveImmReg 0 0x00080000#32) = false := by decide +kernel

theorem test_ill_formed_second_operand :
    [Instr.or 0 0 (.imm 0x00080000#32), .and 0 0 (.imm 0x00080000#32), .xor 0 0 (.imm 0x00080000#32),
      .add 0 0 (.imm 0x00080000#32), .adc 0 0 (.imm 0x00080000#32), .sub 0 0 (.imm 0x00080000#32),
      .sbc 0 0 (.imm 0x00080000#32), .rotl 0 0 (.imm 0x00080000#32), .rotr 0 0 (.imm 0x00080000#32),
      .shl 0 0 (.imm 0x00080000#32), .shr 0 0 (.imm 0x00080000#32), .ashr 0 0 (.imm 0x00080000#32),
      .cmp 0 (.imm 0x00080000#32)].all (fun i => !i.wellFormed) = true := by decide +kernel

theorem test_ill_formed_address :
    [Instr.loadb 0 (.abs 0xFFF7FFFF#32), .storeb 0 (.abs 0xFFF7FFFF#32), .loadh 0 (.abs 0xFFF7FFFF#32),
      .storeh 0 (.base 1 0xFFF7FFFF#32), .load 0 (.base 1 0xFFF7FFFF#32),
      .store 0 (.base 1 0xFFF7FFFF#32)].all (fun i => !i.wellFormed) = true := by decide +kernel

theorem test_ill_formed_target :
    [Instr.jp .always (.imm 0x00080000#32), .call .always (.imm 0x00080000#32),
      .jr .always 0x00080000#32].all (fun i => !i.wellFormed) = true := by decide +kernel

/-! ## Decoding: one word per instruction, written out from its rule -/

/-- R79. -/
theorem test_decode_moveRegReg : decodeTableWord 32 0x01020000 = some (.moveRegReg 2 1) := by decide +kernel

/-- R80. -/
theorem test_decode_moveImmReg : decodeTableWord 32 0x04000005 = some (.moveImmReg 0 5#32) := by decide +kernel

/-- R81. -/
theorem test_decode_moveSrReg : decodeTableWord 32 0x01900000 = some (.moveSrReg 3) := by decide +kernel

/-- R82. -/
theorem test_decode_moveRegSr : decodeTableWord 32 0x00200000 = some (.moveRegSr 0) := by decide +kernel

/-- R84. -/
theorem test_decode_moveSrSr : decodeTableWord 32 0x00300000 = some .moveSrSr := by decide +kernel

/-- R90. -/
theorem test_decode_or : decodeTableWord 32 0x09940000 = some (.or 3 1 (.reg 2)) := by decide +kernel

/-- R91. -/
theorem test_decode_and : decodeTableWord 32 0x151000FF = some (.and 2 1 (.imm 0xFF#32)) := by decide +kernel

/-- R92. -/
theorem test_decode_xor : decodeTableWord 32 0x18920000 = some (.xor 1 1 (.reg 1)) := by decide +kernel

/-- R93. -/
theorem test_decode_add : decodeTableWord 32 0x24000005 = some (.add 0 0 (.imm 5#32)) := by decide +kernel

/-- R94. -/
theorem test_decode_adc : decodeTableWord 32 0x29940000 = some (.adc 3 1 (.reg 2)) := by decide +kernel

/-- R95. -/
theorem test_decode_sub : decodeTableWord 32 0x31940000 = some (.sub 3 1 (.reg 2)) := by decide +kernel

/-- R96. -/
theorem test_decode_sbc : decodeTableWord 32 0x39940000 = some (.sbc 3 1 (.reg 2)) := by decide +kernel

/-- R101. -/
theorem test_decode_rotl : decodeTableWord 32 0x45100004 = some (.rotl 2 1 (.imm 4#32)) := by decide +kernel

/-- R102. -/
theorem test_decode_rotr : decodeTableWord 32 0x4D100004 = some (.rotr 2 1 (.imm 4#32)) := by decide +kernel

/-- R103. -/
theorem test_decode_shl : decodeTableWord 32 0x55100001 = some (.shl 2 1 (.imm 1#32)) := by decide +kernel

/-- R104. -/
theorem test_decode_shr : decodeTableWord 32 0x5D100004 = some (.shr 2 1 (.imm 4#32)) := by decide +kernel

/-- R105. -/
theorem test_decode_ashr : decodeTableWord 32 0x65100004 = some (.ashr 2 1 (.imm 4#32)) := by decide +kernel

/-- R97. -/
theorem test_decode_cmp : decodeTableWord 32 0x68140000 = some (.cmp 1 (.reg 2)) := by decide +kernel

/-- R107. -/
theorem test_decode_pop : decodeTableWord 32 0x80800000 = some (.pop 1) := by decide +kernel

/-- R106. -/
theorem test_decode_push : decodeTableWord 32 0x88000000 = some (.push 0) := by decide +kernel

/-- R109. -/
theorem test_decode_loadb : decodeTableWord 32 0x94A00001 = some (.loadb 1 (.base 2 1#32)) := by decide +kernel

/-- R110. -/
theorem test_decode_storeb : decodeTableWord 32 0x9CA00001 = some (.storeb 1 (.base 2 1#32)) := by decide +kernel

/-- R111. -/
theorem test_decode_loadh : decodeTableWord 32 0xA4A00002 = some (.loadh 1 (.base 2 2#32)) := by decide +kernel

/-- R112. -/
theorem test_decode_storeh : decodeTableWord 32 0xACA00002 = some (.storeh 1 (.base 2 2#32)) := by decide +kernel

/-- R113. -/
theorem test_decode_load : decodeTableWord 32 0xB4A00004 = some (.load 1 (.base 2 4#32)) := by decide +kernel

/-- R114. -/
theorem test_decode_store : decodeTableWord 32 0xBCA00004 = some (.store 1 (.base 2 4#32)) := by decide +kernel

/-- R117. -/
theorem test_decode_jp : decodeTableWord 32 0xC4000100 = some (.jp .always (.imm 0x100#32)) := by decide +kernel

/-- R118. -/
theorem test_decode_call : decodeTableWord 32 0xCC000200 = some (.call .always (.imm 0x200#32)) := by decide +kernel

/-- R119. -/
theorem test_decode_jr : decodeTableWord 32 0xD400001C = some (.jr .always 0x1C#32) := by decide +kernel

/-- R120. -/
theorem test_decode_ret : decodeTableWord 32 0xD8000000 = some (.ret .always) := by decide +kernel

/-- R121. -/
theorem test_decode_reti : decodeTableWord 32 0xD8000001 = some (.reti .always) := by decide +kernel

/-- R122. -/
theorem test_decode_retn : decodeTableWord 32 0xD8000003 = some (.retn .always) := by decide +kernel

/-- R123. -/
theorem test_decode_halt : decodeTableWord 32 0xF9C00000 = some (.halt .z) := by decide +kernel

/-- E10: words with unused bits set decode as their canonical words do. -/
theorem test_decode_non_canonical :
    decodeTableWord 32 0x09940001 = some (.or 3 1 (.reg 2)) ∧
    decodeTableWord 32 0xD0000010 = some (.jr .always 0x10#32) ∧
    decodeTableWord 32 0xD8000002 = some (.ret .always) ∧
    decodeTableWord 32 0x80FFFFFF = some (.pop 1) ∧
    decodeTableWord 32 0xF8000001 = some (.halt .always) := by decide +kernel

/-- 2.6 and R74: every reserved opcode, and COND = 1111 on every control opcode. -/
theorem test_decode_failures :
    [0x70000000, 0x78000000, 0xE0000000, 0xE8000000, 0xF0000000, 0xC7C00000, 0xCFC00100, 0xD7C00000, 0xDBC00000,
      0xFBC00000].all (fun w => decodeTableWord 32 w == none) = true := by decide +kernel

/-- 2.6: the bits [25:22] of an ADD are no condition. -/
theorem test_decode_add_with_ones : decodeTableWord 32 0x27C00001 = some (.add 7 4 (.imm 1#32)) := by decide +kernel

/-- E10: canonical words of R79 to R123. -/
theorem test_encode_examples :
    encode (.moveRegReg 2 1) = 0x01020000#32 ∧ encode (.moveRegSr 0) = 0x00200000#32 ∧
    encode (.or 3 1 (.reg 2)) = 0x09940000#32 ∧ encode (.cmp 1 (.imm 0xFFFFFFFF#32)) = 0x6C1FFFFF#32 ∧
    encode (.load 1 (.abs 0x104#32)) = 0xB0800104#32 ∧ encode (.storeb 1 (.base 2 1#32)) = 0x9CA00001#32 ∧
    encode (.jr .c 0xDC#32) = 0xD4C000DC#32 ∧ encode (.retn .always) = 0xD8000003#32 ∧
    encode (.halt .z) = 0xF9C00000#32 := by decide +kernel

/-! ## One step of each instruction (95_test_vectors) -/

/-- 2.1, MOVE R1, R2. -/
theorem test_move_reg_reg :
    regAfter 0x01020000#32 0x0#32 [(1, 0x00000000#32)] 0x3#32 [] 2 = some (0x00000000#32, 0xB#32, 0x4#32) := by
  decide +kernel

/-- 2.1, MOVE 80000, R0. -/
theorem test_move_imm_reg_sign_extends :
    regAfter 0x04080000#32 0x0#32 [] 0x0#32 [] 0 = some (0xFFF80000#32, 0x4#32, 0x4#32) := by
  decide +kernel

/-- 2.1, MOVE SR, R3. -/
theorem test_move_sr_reg :
    regAfter 0x01900000#32 0x0#32 [] 0x7F3#32 [] 3 = some (0x000000F3#32, 0xF3#32, 0x4#32) := by
  decide +kernel

/-- 2.1, MOVE R0, SR. -/
theorem test_move_reg_sr_clears_high_bits :
    regAfter 0x00200000#32 0x0#32 [(0, 0x00000100#32)] 0xFF#32 [] 0 = some (0x00000100#32, 0x0#32, 0x4#32) := by
  decide +kernel

/-- 2.1, non-canonical 0x04200010. -/
theorem test_move_reg_sr_ignores_fn :
    regAfter 0x04200010#32 0x0#32 [(0, 0x000000F0#32)] 0x0#32 [] 0 = some (0x000000F0#32, 0xF0#32, 0x4#32) := by
  decide +kernel

/-- 2.1, MOVE SR, SR. -/
theorem test_move_sr_sr :
    regAfter 0x00300000#32 0x0#32 [] 0x5F3#32 [] 0 = some (0x00000000#32, 0xF3#32, 0x4#32) := by
  decide +kernel

/-- 2.2, OR R1, 80000, R3. -/
theorem test_or_imm :
    regAfter 0x0D980000#32 0x0#32 [(1, 0x00000001#32)] 0x0#32 [] 3 = some (0xFFF80001#32, 0x4#32, 0x4#32) := by
  decide +kernel

/-- 2.2, AND R1, R2, R3. -/
theorem test_and_clears_c_and_v :
    regAfter 0x11940000#32 0x0#32 [(1, 0xF0F0F0F0#32), (2, 0x0F0F0F0F#32)] 0x3#32 [] 3 =
      some (0x00000000#32, 0x8#32, 0x4#32) := by
  decide +kernel

/-- 2.2, XOR R1, 0FFFFF, R1. -/
theorem test_xor_source_is_destination :
    regAfter 0x1C9FFFFF#32 0x0#32 [(1, 0x0000FFFF#32)] 0x0#32 [] 1 = some (0xFFFF0000#32, 0x4#32, 0x4#32) := by
  decide +kernel

/-- E1. -/
theorem test_add_signed_overflow :
    regAfter 0x24000005#32 0x0#32 [(0, 0x7FFFFFFF#32)] 0x0#32 [] 0 = some (0x80000004#32, 0x6#32, 0x4#32) := by
  decide +kernel

/-- 2.2, ADD R1, R2, R3. -/
theorem test_add_carry :
    regAfter 0x21940000#32 0x0#32 [(1, 0x80000000#32), (2, 0x80000000#32)] 0x0#32 [] 3 =
      some (0x00000000#32, 0xB#32, 0x4#32) := by
  decide +kernel

/-- 2.2, ADC R1, R2, R3. -/
theorem test_adc_uses_carry :
    regAfter 0x29940000#32 0x0#32 [(1, 0x7FFFFFFF#32), (2, 0x00000000#32)] 0x1#32 [] 3 =
      some (0x80000000#32, 0x6#32, 0x4#32) := by
  decide +kernel

/-- 2.2, SUB R1, R2, R3. -/
theorem test_sub_borrow_and_overflow :
    regAfter 0x31940000#32 0x0#32 [(1, 0x7FFFFFFF#32), (2, 0xFFFFFFFF#32)] 0x0#32 [] 3 =
      some (0x80000000#32, 0x7#32, 0x4#32) := by
  decide +kernel

/-- 2.2, SBC R1, R2, R3. -/
theorem test_sbc_uses_borrow :
    regAfter 0x39940000#32 0x0#32 [(1, 0x00000000#32), (2, 0xFFFFFFFF#32)] 0x1#32 [] 3 =
      some (0x00000000#32, 0x9#32, 0x4#32) := by
  decide +kernel

/-- 2.2, CMP R1, R2. -/
theorem test_cmp_sets_flags_only :
    regAfter 0x68140000#32 0x0#32 [(1, 0x80000000#32), (2, 0x00000001#32)] 0x0#32 [] 1 =
      some (0x80000000#32, 0x2#32, 0x4#32) := by
  decide +kernel

/-- 2.3, ROTL R1, 1, R2. -/
theorem test_rotl_by_one :
    regAfter 0x45100001#32 0x0#32 [(1, 0x80000000#32)] 0x0#32 [] 2 = some (0x00000001#32, 0x1#32, 0x4#32) := by
  decide +kernel

/-- 2.3, ROTR R1, 1, R2. -/
theorem test_rotr_clears_v :
    regAfter 0x4D100001#32 0x0#32 [(1, 0x00000002#32)] 0x3#32 [] 2 = some (0x00000001#32, 0x0#32, 0x4#32) := by
  decide +kernel

/-- 2.3, SHL R1, 20, R2. -/
theorem test_shl_amount_32_clears_c :
    regAfter 0x55100020#32 0x0#32 [(1, 0x00000003#32)] 0x1#32 [] 2 = some (0x00000003#32, 0x0#32, 0x4#32) := by
  decide +kernel

/-- 2.3, SHR R1, 1, R2. -/
theorem test_shr_by_one :
    regAfter 0x5D100001#32 0x0#32 [(1, 0x80000001#32)] 0x0#32 [] 2 = some (0x40000000#32, 0x1#32, 0x4#32) := by
  decide +kernel

/-- 2.3, ASHR R1, R2, R3. -/
theorem test_ashr_amount_mod_32 :
    regAfter 0x61940000#32 0x0#32 [(1, 0xFFFFFFFF#32), (2, 0x000001E5#32)] 0x0#32 [] 3 =
      some (0xFFFFFFFF#32, 0x5#32, 0x4#32) := by
  decide +kernel

/-- 2.4, POP R7. -/
theorem test_pop_into_r7 :
    regAfter 0x83800000#32 0x0#32 [(7, 0x00000FFC#32)] 0x0#32 [(0xFFC, 0x00002000#32)] 7 =
      some (0x00002004#32, 0x0#32, 0x4#32) := by
  decide +kernel

/-- 2.4, LOADB R1, (R2+3). -/
theorem test_loadb_zero_extends :
    regAfter 0x94A00003#32 0x0#32 [(2, 0x00000100#32)] 0x0#32 [(0x100, 0x80223344#32)] 1 =
      some (0x00000080#32, 0x0#32, 0x4#32) := by
  decide +kernel

/-- 2.4, LOADH R1, (R2+3). -/
theorem test_loadh_forces_alignment :
    regAfter 0xA4A00003#32 0x0#32 [(2, 0x00000100#32)] 0x0#32 [(0x100, 0x80223344#32)] 1 =
      some (0x00008022#32, 0x0#32, 0x4#32) := by
  decide +kernel

/-- 2.4, LOAD R1, (R2+0). -/
theorem test_load_at_top_of_memory :
    regAfter 0xB4A00000#32 0x0#32 [(2, 0x0003FFFF#32)] 0x0#32 [(0x3FFFC, 0x11223344#32)] 1 =
      some (0x11223344#32, 0x0#32, 0x4#32) := by
  decide +kernel

/-- 2.4, LOAD R1, (104). -/
theorem test_load_absolute :
    regAfter 0xB0800104#32 0x0#32 [] 0x0#32 [(0x104, 0xCAFEBABE#32)] 1 =
      some (0xCAFEBABE#32, 0x0#32, 0x4#32) := by
  decide +kernel

/-- 2.5, JP (R1). -/
theorem test_jp_masks_its_target :
    regAfter 0xC0020000#32 0x0#32 [(1, 0x00000203#32)] 0x0#32 [] 1 = some (0x00000203#32, 0x0#32, 0x200#32) := by
  decide +kernel

/-- 2.5, JP_SLT 300. -/
theorem test_jp_false_condition :
    regAfter 0xC6C00300#32 0x0#32 [] 0x6#32 [] 0 = some (0x00000000#32, 0x6#32, 0x4#32) := by
  decide +kernel

/-- 2.5, JR_C 100. -/
theorem test_jr_is_relative_to_the_next_instruction :
    regAfter 0xD4C000DC#32 0x20#32 [] 0x1#32 [] 0 = some (0x00000000#32, 0x1#32, 0x100#32) := by
  decide +kernel

/-- 2.5, RET. -/
theorem test_ret_pops_and_masks :
    regAfter 0xD8000000#32 0x0#32 [(7, 0x00000FFC#32)] 0x0#32 [(0xFFC, 0x00000045#32)] 7 =
      some (0x00001000#32, 0x0#32, 0x44#32) := by
  decide +kernel

/-- 2.5, RETI. -/
theorem test_reti_sets_gie :
    regAfter 0xD8000001#32 0x0#32 [(7, 0x00000FFC#32)] 0xE0#32 [(0xFFC, 0x00000088#32)] 7 =
      some (0x00001000#32, 0xF0#32, 0x88#32) := by
  decide +kernel

/-- 2.4, PUSH R7. -/
theorem test_push_r7_stores_the_decremented_value :
    wordAfter 0x8B800000#32 0x0#32 [(7, 0x00001000#32)] [] 0xFFC = some (0x00000FFC#32, 0xFFC#32, 0x4#32) := by
  decide +kernel

/-- 2.4, PUSH R1. -/
theorem test_push_masks_its_address :
    wordAfter 0x88800000#32 0x0#32 [(1, 0x00000005#32), (7, 0x00001002#32)] [] 0xFFC =
      some (0x00000005#32, 0xFFE#32, 0x4#32) := by
  decide +kernel

/-- 2.4, STOREB R2, (R2+0). -/
theorem test_storeb_stores_one_byte :
    wordAfter 0x9D200000#32 0x0#32 [(2, 0x00000101#32)] [(0x100, 0x00000000#32)] 0x100 =
      some (0x00000100#32, 0x0#32, 0x4#32) := by
  decide +kernel

/-- 2.4, STOREH R1, (R2+1). -/
theorem test_storeh_stores_two_bytes :
    wordAfter 0xACA00001#32 0x0#32 [(1, 0x12345678#32), (2, 0x00000100#32)] [(0x100, 0xAAAAAAAA#32)] 0x100 =
      some (0xAAAA5678#32, 0x0#32, 0x4#32) := by
  decide +kernel

/-- 2.4, STORE R1, (R2+3). -/
theorem test_store_forces_alignment :
    wordAfter 0xBCA00003#32 0x0#32 [(1, 0x12345678#32), (2, 0x00000100#32)] [] 0x100 =
      some (0x12345678#32, 0x0#32, 0x4#32) := by
  decide +kernel

/-- 2.5, CALL (R7). -/
theorem test_call_target_is_read_before_the_push :
    wordAfter 0xC80E0000#32 0x80#32 [(7, 0x00001000#32)] [] 0xFFC =
      some (0x00000084#32, 0xFFC#32, 0x1000#32) := by
  decide +kernel

/-- 2.5, RETN. -/
theorem test_retn_sets_iif :
    after (exec (.retn .always) { mk [(7, 0xFFC#32)] 0#32 0#32 [(0xFFC, 0x88#32)] with iif := false })
      (fun t => (t.iif, t.pc, t.reg Reg.sp)) = some (true, 0x88#32, 0x1000#32) := by decide +kernel

/-- 2.5, HALT_NE: taken. -/
theorem test_halt_stops_the_run :
    after (step (mk [] 0#32 0#32 [(0, 0xFA000000#32)])) (fun t => (t.run, t.pc)) = some (.halted, 4#32) := by
  decide +kernel

/-- 2.5, HALT_NE: not taken. -/
theorem test_halt_false_condition :
    after (step (mk [] 8#32 0#32 [(0, 0xFA000000#32)])) (fun t => (t.run, t.pc)) = some (.running, 4#32) := by
  decide +kernel

/-! ## Faults -/

/-- 2.4, PUSH R1 with r7 = 0: r7 keeps the decremented value. -/
theorem test_push_unmapped :
    faultOf (step (mk [(1, 5#32)] 0#32 0#32 [(0, 0x88800000#32)])) (fun t => (t.reg Reg.sp, t.pc)) =
      some (.unmappedAccess 0xFFFFFFFC#32 .word .write 0#32, 0xFFFFFFFC#32, 0#32) := by decide +kernel

/-- 2.4, LOAD at MEM_SIZE. -/
theorem test_load_unmapped :
    faultOf (step (mk [(2, 0x40000#32)] 0#32 0#32 [(0, 0xB4A00000#32)])) (fun t => t.pc) =
      some (.unmappedAccess 0x40000#32 .word .read 0#32, 0#32) := by decide +kernel

/-- 2.6: a decode failure leaves pc and r1. -/
theorem test_decode_failure_stops :
    faultOf (step (mk [(1, 1#32)] 0#32 0x40#32 [(0x40, 0x70000000#32)])) (fun t => (t.pc, t.reg 1)) =
      some (.decodeFailure 0x70000000#32 0x40#32, 0x40#32, 1#32) := by decide +kernel

/-! ## Units, devices and interrupts -/

/-- A generic unit of one slot at `start`, holding zero bytes. -/
def genericUnit (id : Nat) (start : Word) (level : IrqLevel) (signal : Bool) : IoUnit where
  id := id
  start := start
  level := level
  signal := signal
  device := .generic { count := 1, cells := [(0, 0#8), (1, 0#8), (2, 0#8), (3, 0#8)], epoch := 0 }

/-- E6's machine: a generic unit over flat memory. -/
def e6 : State :=
  { mk [(1, 0xAABBCCDD#32), (2, 0x1000#32)] 0#32 0#32 [(0x1000, 0x11111111#32), (0x1004, 0#32)] with
    units := [genericUnit 1 0x1000#32 .none false] }

/-- E6, step 1: the bus reads the unit, flat memory is untouched. -/
theorem test_store_into_a_unit :
    after (exec (.store 1 (.base 2 0#32)) e6) (fun t => (t.valueAt 0x1000#32 .word, wordAt 0x1000 t)) =
      some (0xAABBCCDD#32, 0x11111111#32) := by decide +kernel

/-- E6, step 2: a byte past the unit goes to flat memory. -/
theorem test_storeb_past_a_unit :
    after (exec (.storeb 1 (.base 2 5#32)) e6) (fun t => (t.valueAt 0x1000#32 .word, wordAt 0x1004 t)) =
      some (0#32, 0x0000DD00#32) := by decide +kernel

/-- E5's machine, with or without the level-3 unit. -/
def e5 (nmi : Bool) : State :=
  { mk [(7, 0x1000#32)] 0xB0#32 0x40#32
      [(8, 0x200#32), (0xC, 0x06800003#32), (0x40, 0x06800000#32), (0x44, 0x06800001#32), (0x200, 0x06800002#32)] with
    units := genericUnit 10 0x2000#32 .level0 true :: genericUnit 12 0x2100#32 .level2 true ::
      (if nmi then [genericUnit 13 0x2200#32 .level3 true] else []) }

/-- E5, levels 0 and 2, step 1. -/
theorem test_maskable_entry :
    after (step (e5 false)) (fun t => (t.pc, t.reg 5, t.reg Reg.sp, wordAt 0xFFC t, t.sr, t.iif)) =
      some (0x200#32, 0#32, 0xFFC#32, 0x44#32, 0x5A8#32, true) := by decide +kernel

/-- E5, levels 0, 2 and 3, step 1. -/
theorem test_nmi_entry :
    after (step (e5 true)) (fun t => (t.pc, t.reg Reg.sp, wordAt 0xFFC t, t.sr, t.iif, t.nmiUnit.isSome)) =
      some (0xC#32, 0xFFC#32, 0x44#32, 0x5B8#32, false, false) := by decide +kernel

/-- V3: no poll follows a taken HALT. -/
theorem test_no_poll_after_halt :
    after (step { mk [(7, 0x1000#32)] 0x30#32 0x40#32 [(0x40, 0xF8000000#32)] with
      units := [genericUnit 10 0x2000#32 .level0 true] }) (fun t => (t.run, t.pc, t.sr)) =
      some (.halted, 0x44#32, 0x30#32) := by decide +kernel

/-- V4: pending, not enabled. -/
def v4 : State :=
  { mk [(7, 0x1000#32)] 0x10#32 0x40#32 [(0x40, 0x00020000#32)] with
    units := [genericUnit 10 0x2000#32 .level0 true] }

/-- R131: a request the host has cleared causes no entry; a level-3 request stays. -/
theorem test_host_clear :
    after (poll (hostClear 10 { v4 with sr := 0x30#32 })) (fun t => (t.pc, t.sr)) = some (0x40#32, 0x30#32) ∧
    after (poll { v4 with sr := 0x30#32 }) (fun t => t.sr) = some 0x120#32 ∧
    after (runEvent (.clear 13) (e5 true)) (fun t => t.nmiUnit.isSome) = some true := by decide +kernel

/-- V5: the entry's push is unmapped; GIE is clear and r7 decremented, the MOVE's result stays. -/
theorem test_entry_push_unmapped :
    faultOf (step { mk [] 0x90#32 0x40#32 [(0x40, 0x04800001#32)] with
      units := [genericUnit 12 0x2000#32 .level2 true] }) (fun t => (t.pc, t.reg Reg.sp, t.sr, t.reg 1)) =
      some (.unmappedAccess 0xFFFFFFFC#32 .word .write 0x44#32, 0x44#32, 0xFFFFFFFC#32, 0x480#32, 1#32) := by
  decide +kernel

/-- E3's timer. -/
def e3 : Timer where
  reload := 3#32
  countdown := 3#32
  countEnable := true
  intEnable := true
  ready := false
  endLatch := false

/-- E3: ready and the signal rise on the third tick, and only a later write of slot 0 would raise them again. -/
theorem test_timer_ticks :
    [1, 2, 3, 4, 5].map (fun k => ((e3.ticks k false).1.countdown, (e3.ticks k false).1.ready, (e3.ticks k false).2,
      (e3.ticks k false).1.endLatch)) =
      [(2#32, false, false, false), (1#32, false, false, false), (3#32, true, true, true), (2#32, true, true, true),
        (1#32, true, true, true)] := by decide +kernel

/-- A machine with the timer `tm` at 0x2000, r1 = 7 to store. -/
def timerState (tm : Timer) : State :=
  { mk [(1, 7#32), (2, 0x2000#32)] 0#32 0#32 [] with
    units := [{ id := 4, start := 0x2000#32, level := .level1, signal := true, device := .timer tm }] }

/-- A DMA controller of two words from 0x100 to 0x200. -/
def dma2 (halting started : Bool) (count : Word) : Dma where
  source := 0x100#32
  destination := 0x200#32
  counter := count
  halting := halting
  srcInc := true
  dstInc := true
  started := started
  ready := false
  haltSignals := true

/-- A machine with that controller at 0x3000. -/
def dmaUnit (d : Dma) : IoUnit := { id := 5, start := 0x3000#32, level := .level1, signal := false, device := .dma d }

def dmaState (d : Dma) : State :=
  { mk [(2, 0x3000#32)] 0#32 0#32 [(0x100, 0x11223344#32), (0x104, 0x55667788#32)] with units := [dmaUnit d] }

/-- R148: a word written to the start slot runs the whole block. -/
theorem test_dma_halting_block :
    after (exec (.store 1 (.base 2 0x10#32)) (dmaState (dma2 true false 2#32)))
      (fun t => (wordAt 0x200 t, wordAt 0x204 t, t.units)) =
      some (0x11223344#32, 0x55667788#32,
        [{ dmaUnit { dma2 true false 0#32 with source := 0x108#32, destination := 0x208#32, ready := true } with
          signal := true }]) := by decide +kernel

/-- R148: a block whose transfer writes the start slot of another halting controller runs that block inside it. -/
theorem test_dma_nested_block :
    after (exec (.store 1 (.base 2 0x10#32))
      { dmaState (dma2 true false 2#32) with
        units := [dmaUnit (dma2 true false 2#32),
          { dmaUnit { dma2 true false 1#32 with destination := 0x3010#32 } with id := 6, start := 0x4000#32 }]
        regs := (mk [(2, 0x4000#32)] 0#32 0#32 []).regs })
      (fun t => (wordAt 0x200 t, wordAt 0x204 t, t.units.map fun u => (t.dmaOf u.id).map Dma.counter)) =
      some (0x11223344#32, 0x55667788#32, [some 0#32, some 0#32]) := by decide +kernel

/-- R148: one tick copies one word. -/
theorem test_dma_cycle_stealing_tick :
    after (tickUnit 5 (dmaState (dma2 false true 2#32))) (fun t => (wordAt 0x200 t, t.units)) =
      some (0x11223344#32,
        [dmaUnit { dma2 false true 1#32 with source := 0x104#32, destination := 0x204#32 }]) := by decide +kernel

/-- A generic registration for E4. -/
def spec (id : Nat) (start : Word) (span : Int) : UnitSpec :=
  { id := id, start := start, level := .none, kind := .generic span }

/-- E4: overlaps, in one call and against an attached unit, and a start that is no multiple of 4. -/
theorem test_attach_refusals :
    [hostAttach [spec 1 0x2000#32 16, spec 2 0x200C#32 16] State.reset,
      hostAttach [spec 1 0x2000#32 16, spec 2 0x200F#32 4] State.reset].all
      (fun r => match r with
        | .ok _ => false
        | .error e => e == .configuration) = true := by decide +kernel

/-- E4: adjacent units are both attached, a unit that contains another is refused. -/
theorem test_attach_adjacent :
    (match hostAttach [spec 1 0x2000#32 16] State.reset with
      | .ok s => (match hostAttach [spec 3 0x2010#32 4] s with
          | .ok t => t.units.length == 2
          | .error _ => false) &&
        (match hostAttach [spec 4 0x1000#32 0x2000] s with
          | .ok _ => false
          | .error e => e == .configuration)
      | .error _ => false) = true := by decide +kernel

/-! ## Placing a word, and memory's form -/

/-- Reset memory has the canonical form. -/
theorem test_reset_memory_canonical : Memory.wf State.reset.mem = true := by decide +kernel

/-- R156, R157: a word placed after reset is the first to run. -/
theorem test_placed_word_runs :
    after (step (State.reset.withFetchWord 32 0x24000005)) (fun t => (t.reg 0, t.pc)) = some (5#32, 4#32) := by
  decide +kernel

/-! ## Witnesses: states and operands that meet the hypotheses of each statement -/

theorem witness_DecodeOfEncodeIsIdentity :
    Instr.wellFormed (.add 7 0 (.imm 0x0007FFFF#32)) = true ∧
    Instr.wellFormed (.store 0 (.base 7 0xFFF80000#32)) = true ∧ Instr.wellFormed .moveSrSr = true := by
  decide +kernel

theorem witness_DecodedInstructionIsWellFormed :
    decode 0x0407FFFF#32 = .ok (.moveImmReg 0 0x0007FFFF#32) ∧
    decode 0x04080000#32 = .ok (.moveImmReg 0 0xFFF80000#32) := by decide +kernel

/-- A canonical word of each format. -/
theorem witness_CanonicalWordReencodesToItself :
    [0x01020000#32, 0x0407FFFF#32, 0x01900000#32, 0x00200000#32, 0x00300000#32, 0x09940000#32, 0x6C1FFFFF#32,
      0x80800000#32, 0xB88FFFFC#32, 0xCC000200#32, 0xD4C000DC#32, 0xDB800003#32, 0xF9C00000#32].all canonicalWord =
      true ∧
    decode 0x0407FFFF#32 = .ok (.moveImmReg 0 0x0007FFFF#32) ∧ decode 0xDB800003#32 = .ok (.retn .sgt) := by
  decide +kernel

/-- E10: none of the non-canonical words is canonical. -/
theorem test_non_canonical_words :
    [0x09940001#32, 0xD0000010#32, 0xD8000002#32, 0x04200010#32, 0x80FFFFFF#32, 0xF8000001#32].all
      (fun w => !canonicalWord w) = true := by decide +kernel

theorem witness_DecodeRefusesExactlyReservedWords :
    reservedWord 0x77FFFFFF#32 = true ∧ reservedWord 0xFFC00000#32 = true ∧ reservedWord 0x6FFFFFFF#32 = false ∧
    reservedWord 0xFF800000#32 = false := by decide +kernel

theorem witness_ConditionCodesTestTheFlags :
    condOf 0b0000#4 = some .always ∧ condOf 0b1110#4 = some .sgt := by decide +kernel

/-- One step of the DMA machine and one of the interrupt machine, both well-formed. -/
theorem witness_StepKeepsWellFormed : (e5 true).wf = true ∧ ∃ t, step (e5 true) = .next t :=
  ⟨by decide +kernel, exists_next (by decide +kernel)⟩

theorem witness_StepKeepsTheConfiguration : ∃ t, step (e5 false) = .next t := exists_next (by decide +kernel)

theorem witness_LogicInstructionsCompute :
    opField 0x09940000#32 = 0b00001#5 ∧ opField 0x11940000#32 = 0b00010#5 ∧ opField 0x1FFFFFFF#32 = 0b00011#5 := by
  decide +kernel

theorem witness_AddInstructionsCompute :
    opField 0x20000000#32 = 0b00100#5 ∧ opField 0x2FFFFFFF#32 = 0b00101#5 := by decide +kernel

theorem witness_SubInstructionsCompute :
    opField 0x30000000#32 = 0b00110#5 ∧ opField 0x3FFFFFFF#32 = 0b00111#5 := by decide +kernel

theorem witness_CompareSetsTheRelations : opField 0x6FFFFFFF#32 = 0b01101#5 := by decide +kernel

theorem witness_RotateInstructionsCompute :
    opField 0x40000000#32 = 0b01000#5 ∧ opField 0x4FFFFFFF#32 = 0b01001#5 := by decide +kernel

theorem witness_ShiftInstructionsCompute :
    opField 0x50000000#32 = 0b01010#5 ∧ opField 0x5FFFFFFF#32 = 0b01011#5 ∧ opField 0x67FFFFFF#32 = 0b01100#5 := by
  decide +kernel

theorem witness_MovesIntoStatusRegister :
    opField 0x04200010#32 = 0b00000#5 ∧ (0x04200010#32 : Word).getLsbD 21 = true ∧
    opField 0x07FFFFFF#32 = 0b00000#5 ∧ (0x07FFFFFF#32 : Word).getLsbD 21 = true := by decide +kernel

/-- The last word of flat memory, and a unit. -/
theorem witness_PushStoresBelowTheStackPointer :
    (mk [(7, 0x40000#32)] 0#32 0#32 []).writable ((mk [(7, 0x40000#32)] 0#32 0#32 []).reg Reg.sp - 4) .word = true ∧
    ({ e6 with regs := (mk [(7, 0x1004#32)] 0#32 0#32 []).regs }).writable (0x1004#32 - 4) .word = true := by
  decide +kernel

theorem witness_PopLoadsAndRaisesTheStackPointer :
    (mk [(7, 0x3FFFC#32)] 0#32 0#32 []).readable ((mk [(7, 0x3FFFC#32)] 0#32 0#32 []).reg Reg.sp) .word = true ∧
    e6.readable 0x1003#32 .word = true := by decide +kernel

/-- The last byte, half-word and word of flat memory, and each width in a unit. -/
theorem witness_LoadsReadTheirWidth :
    (let s := mk [] 0#32 0#32 []
     s.readable (s.ea (.abs 0x3FFFF#32)) .byte = true ∧ s.flatAt (s.ea (.abs 0x3FFFF#32)) .byte = true ∧
     s.readable (s.ea (.abs 0x3FFFF#32)) .half = true ∧ s.flatAt (s.ea (.abs 0x3FFFF#32)) .half = true ∧
     s.readable (s.ea (.abs 0x3FFFF#32)) .word = true ∧ s.flatAt (s.ea (.abs 0x3FFFF#32)) .word = true) ∧
    e6.readable 0x1003#32 .byte = true ∧ e6.readable 0x1003#32 .half = true ∧ e6.readable 0x1003#32 .word = true := by
  decide +kernel

theorem witness_StoresWriteTheirWidth :
    (let s := mk [] 0#32 0#32 []
     s.writable (s.ea (.abs 0x3FFFF#32)) .byte = true ∧ s.unmappedAt (s.ea (.abs 0x40000#32)) .byte = true ∧
     s.writable (s.ea (.abs 0x3FFFF#32)) .half = true ∧ s.unmappedAt (s.ea (.abs 0x40000#32)) .half = true ∧
     s.writable (s.ea (.abs 0x3FFFF#32)) .word = true ∧ s.unmappedAt (s.ea (.abs 0x40000#32)) .word = true) ∧
    e6.writable 0x1003#32 .byte = true ∧ e6.writable 0x1003#32 .half = true ∧ e6.writable 0x1003#32 .word = true ∧
    opField 0x9FFFFFFF#32 = 0b10011#5 ∧ opField 0xAFFFFFFF#32 = 0b10101#5 ∧ opField 0xB8000000#32 = 0b10111#5 := by
  decide +kernel

theorem witness_StoredWordReadsBackInEveryWidth :
    (let s := mk [(1, 0x12345678#32)] 0#32 0#32 []
     s.wf = true ∧ s.flatAt (s.ea (.abs 0x3FFFF#32)) .word = true) ∧
    ∃ t, exec (.store 1 (.abs 0x3FFFF#32)) (mk [(1, 0x12345678#32)] 0#32 0#32 []) = .next t :=
  ⟨by decide +kernel, exists_next (by decide +kernel)⟩

theorem witness_GenericUnitHoldsWhatIsStored :
    e6.hitsUnit (e6.ea (.base 2 3#32)) .word (genericUnit 1 0x1000#32 .none false) ∧
    ∃ g, (genericUnit 1 0x1000#32 .none false).device = .generic g :=
  ⟨by unfold State.hitsUnit; decide +kernel, ⟨_, rfl⟩⟩

/-- Each access of the first clause at its boundary, a pc at and past MEM_SIZE, an Indirect vector there, and a DMA with
its source or its destination there, at a tick and in a block. -/
theorem witness_UnmappedAccessStopsTheMachine :
    (let s := mk [(7, 0x40000#32)] 0#32 0#32 []
     s.unmappedAt (s.ea (.abs 0x40000#32)) .byte = true ∧ s.unmappedAt (s.ea (.abs 0x40001#32)) .half = true ∧
     s.unmappedAt (s.ea (.abs 0x40003#32)) .word = true ∧ s.unmappedAt (s.reg Reg.sp) .word = true ∧
     condHolds s.sr .always = true) ∧
    (let s := mk [] 0#32 0#32 []
     s.unmappedAt (s.reg Reg.sp - 4) .word = true ∧ condHolds s.sr .nz = true) ∧
    (let s := mk [] 0#32 0x40000#32 []
     s.run = .running ∧ s.schedule = [] ∧ s.unmappedAt s.pc .word = true) ∧
    (let s := { e5 false with cfg := { Config.defaults with intVector := .indirect 0x40003#32 } }
     s.iif = true ∧ s.nmiUnit = none ∧ s.flag .gie = true ∧ s.acceptable = true ∧
     s.cfg.intVector = .indirect 0x40003#32 ∧ s.writable (s.reg Reg.sp - 4) .word = true ∧
     s.unmappedAt 0x40003#32 .word = true) ∧
    [true, false].all (fun halting =>
      let d := { dma2 halting true 1#32 with source := 0x40000#32 }
      let s := dmaState d
      s.unitAt (align (s.ea (.base 2 0x10#32)) .word) == some (dmaUnit d) &&
      (dmaUnit d).offset (s.ea (.base 2 0x10#32)) .word / 4 == 4 &&
      s.unmappedAt d.source .word && d.counter != 0#32 && s.units == [dmaUnit d]) = true ∧
    [true, false].all (fun halting =>
      let d := { dma2 halting true 1#32 with source := 0x3000#32, destination := 0xFFFFFFFF#32 }
      let s := dmaState d
      s.readable d.source .word && s.unmappedAt d.destination .word && s.units == [dmaUnit d]) = true := by
  decide +kernel

/-- Under both policies, an odd target under mask. -/
theorem witness_TakenJumpsGoToTheirTarget :
    (let s := mk [] 0#32 0xFFFFFFFC#32 []
     condHolds s.sr .sge = true ∧ s.targetOk (s.src2 (.imm 3#32)) = true ∧ s.targetOk (s.pc + 4 + 3#32) = true) ∧
    (let s := { mk [] 8#32 0#32 [] with cfg := { Config.defaults with target := .fault } }
     condHolds s.sr .z = true ∧ s.targetOk (s.src2 (.imm 0xFFFFFFFC#32)) = true ∧
     s.targetOk (s.pc + 4 + 0xFFFFFFFC#32) = true) := by decide +kernel

theorem witness_TakenCallPushesTheReturnAddress :
    let s := mk [(7, 0x40000#32)] 0#32 0#32 []
    condHolds s.sr .always = true ∧ s.writable (s.reg Reg.sp - 4) .word = true ∧
    s.targetOk (s.src2 (.reg 7)) = true := by decide +kernel

/-- The return address in flat memory, and in a unit. -/
theorem witness_TakenReturnsPopThePc :
    (let s := mk [(7, 0x3FFFC#32)] 0#32 0#32 [(0x3FFFC, 0x88#32)]
     condHolds s.sr .always = true ∧ s.readable (s.reg Reg.sp) .word = true ∧
     s.targetOk (s.valueAt (s.reg Reg.sp) .word) = true) ∧
    (let s := { e6 with regs := (mk [(7, 0x1000#32)] 0#32 0#32 []).regs }
     condHolds s.sr .always = true ∧ (s.unitAt (s.reg Reg.sp)).isSome = true ∧
     s.readable (s.reg Reg.sp) .word = true ∧ s.targetOk (s.valueAt (s.reg Reg.sp) .word) = true) := by
  decide +kernel

theorem witness_TakenHaltStopsTheRun : condHolds (mk [] 8#32 0#32 []).sr .z = true := by decide +kernel

theorem witness_FalseConditionOnlyAdvances : condHolds (mk [] 8#32 0#32 []).sr .nz = false := by decide +kernel

theorem witness_MisalignedTargetStopsTheMachine :
    let s := { mk [(7, 0x3FFFC#32)] 0#32 0#32 [(0x3FFFC, 0x45#32)] with
      cfg := { Config.defaults with target := .fault } }
    condHolds s.sr .always = true ∧ s.cfg.target = .fault ∧ (s.src2 (.imm 1#32)).toNat % 4 ≠ 0 ∧
    (s.pc + 4 + 0xFFFFFFFF#32).toNat % 4 ≠ 0 ∧ s.writable (s.reg Reg.sp - 4) .word = true ∧
    s.readable (s.reg Reg.sp) .word = true ∧ (s.valueAt (s.reg Reg.sp) .word).toNat % 4 ≠ 0 := by decide +kernel

/-- An empty schedule, an interval with a forced signal, and a fetched word that decodes. -/
theorem witness_StepRunsTheDecodedInstruction :
    ((e5 false).run = .running ∧ (e5 false).schedule = []) ∧
    (let s := { e5 false with schedule := [[.force 10], []] }
     s.run = .running ∧ s.schedule = [.force 10] :: [[]] ∧
     ∃ s0, runEvents [.force 10] { s with schedule := [[]] } = .next s0) ∧
    busRead (e5 false) (e5 false).pc .word = .next (0x06800000#32, e5 false) ∧
    decode 0x06800000#32 = .ok (.moveImmReg 5 0#32) :=
  ⟨by decide +kernel, ⟨rfl, rfl, exists_next (by decide +kernel)⟩,
    (busRead_flat (by decide +kernel)).trans
      (by rw [show (e5 false).flatValue (e5 false).pc .word = 0x06800000#32 by decide +kernel]),
    by decide +kernel⟩

theorem witness_DecodeFailureStopsUnchanged :
    let s := mk [(1, 1#32)] 0#32 0x3FFFC#32 [(0x3FFFC, 0xFFC00000#32)]
    s.run = .running ∧ s.schedule = [] ∧ s.flatAt s.pc .word = true ∧
    reservedWord (s.flatValue s.pc .word) = true := by decide +kernel

theorem witness_StoppedMachineStaysStopped :
    ({ e6 with run := .halted }).run = .halted ∧
    ({ e6 with run := .faulted (.misalignedTarget 1#32 0#32) }).run = .faulted (.misalignedTarget 1#32 0#32) :=
  ⟨rfl, rfl⟩

theorem witness_PlacedWordRunsFirstAfterReset : decodeTableWord 32 0x24000005 = some (.add 0 0 (.imm 5#32)) := by
  decide +kernel

/-- IIF = 0 with a level-3 request, GIE = 0, and a level that signals but is not enabled. -/
theorem witness_PollWithNothingToAcceptOnlySetsPending :
    ({ e5 true with iif := false }).iif = false ∧
    ((mk [] 0#32 0#32 []).nmiUnit = none ∧ (mk [] 0#32 0#32 []).flag .gie = false) ∧
    (v4.nmiUnit = none ∧ v4.flag .gie = true ∧ v4.acceptable = false) := by decide +kernel

theorem witness_NonMaskableEntrySavesAndVectors :
    let s := e5 true
    let u := genericUnit 13 0x2200#32 .level3 true
    s.iif = true ∧ s.nmiUnit = some u ∧
    (s.mapUnit u.id IoUnit.acknowledge).writable (s.reg Reg.sp - 4) .word = true ∧
    s.targetOk s.cfg.nmiVector = true := by decide +kernel

/-- Direct and Indirect vectors. -/
theorem witness_MaskableEntrySavesAndVectors :
    (let s := { e5 false with cfg := { Config.defaults with intVector := .direct 0x300#32 } }
     s.iif = true ∧ s.nmiUnit = none ∧ s.flag .gie = true ∧ s.acceptable = true ∧
     s.cfg.intVector = .direct 0x300#32 ∧ s.writable (s.reg Reg.sp - 4) .word = true ∧ s.targetOk 0x300#32 = true) ∧
    (let s := e5 false
     s.iif = true ∧ s.nmiUnit = none ∧ s.flag .gie = true ∧ s.acceptable = true ∧
     s.cfg.intVector = .indirect 8#32 ∧ s.flatAt (s.reg Reg.sp - 4) .word = true ∧ s.flatAt 8#32 .word = true ∧
     s.targetOk (leRead (Memory.byte (Memory.write s.mem (align (s.reg Reg.sp - 4) .word).toNat .word s.pc))
       (align 8#32 .word).toNat .word) = true) := by decide +kernel

/-- At level 3 and at a maskable level, r7 = 0 and r7 = MEM_SIZE + 4. -/
theorem witness_EntryWithUnmappedStackStops :
    (let s := { e5 true with regs := (mk [] 0#32 0#32 []).regs }
     s.iif = true ∧ s.unmappedAt (s.reg Reg.sp - 4) .word = true ∧ s.nmiUnit.isSome = true) ∧
    (let s := { e5 false with regs := (mk [(7, 0x40004#32)] 0#32 0#32 []).regs }
     s.iif = true ∧ s.unmappedAt (s.reg Reg.sp - 4) .word = true ∧ s.flag .gie = true ∧ s.acceptable = true) := by
  decide +kernel

/-- The vector word in flat memory, and in a unit. -/
theorem witness_RetiUndoesTheMaskableEntry :
    ((let s := e5 false
      s.pcAligned = true ∧ s.flatAt (s.reg Reg.sp - 4) .word = true ∧ s.iif = true ∧ s.nmiUnit = none ∧
      s.flag .gie = true ∧ s.acceptable = true) ∧ ∃ t, poll (e5 false) = .next t) ∧
    ∃ t, poll { e5 false with cfg := { Config.defaults with intVector := .indirect 0x2000#32 } } = .next t :=
  ⟨⟨by decide +kernel, exists_next (by decide +kernel)⟩, exists_next (by decide +kernel)⟩

theorem witness_RetnUndoesTheNonMaskableEntry :
    (let s := e5 true
     s.pcAligned = true ∧ s.flatAt (s.reg Reg.sp - 4) .word = true ∧ s.iif = true ∧
     s.nmiUnit = some (genericUnit 13 0x2200#32 .level3 true)) ∧ ∃ t, poll (e5 true) = .next t :=
  ⟨by decide +kernel, exists_next (by decide +kernel)⟩

theorem witness_ForcedSignalIsSeenByThePoll :
    genericUnit 13 0x2200#32 .level3 true ∈ (e5 true).units := by decide +kernel

/-- A maskable unit that alone signals at its level, and a level-3 unit. -/
theorem witness_HostClearLowersTheRequest :
    genericUnit 12 0x2100#32 .level2 true ∈ (e5 true).units ∧ ((e5 true).units.map IoUnit.id).Nodup ∧
    (∀ x ∈ (e5 true).units, x.id ≠ 12 → x.level = .level2 → x.signal = false) ∧
    genericUnit 13 0x2200#32 .level3 true ∈ (e5 true).units := by decide +kernel

/-- A RETN that sets IIF, and a poll that clears it. -/
theorem witness_OnlyRetnAndNmiChangeTheEnableFlipFlop :
    after (exec (.retn .always) { mk [(7, 0xFFC#32)] 0#32 0#32 [(0xFFC, 0x88#32)] with iif := false })
      (fun t => t.iif) = some true ∧
    after (poll (e5 true)) (fun t => t.iif) = some false := by decide +kernel

theorem witness_OnlyListedStatusBitsChange :
    (∃ t, exec (.reti .always) (mk [(7, 0xFFC#32)] 0#32 0#32 [(0xFFC, 0x88#32)]) = .next t) ∧
    Instr.writtenSr (.reti .always) = some [SrBit.gie.pos] :=
  ⟨exists_next (by decide +kernel), rfl⟩

theorem witness_OnlyListedRegistersChange :
    ∃ t, exec (.store 1 (.base 2 0x10#32)) (dmaState (dma2 true false 2#32)) = .next t :=
  exists_next (by decide +kernel)

theorem witness_OnlyStoringInstructionsWrite :
    (∃ t, exec (.load 1 (.base 2 0#32)) e6 = .next t) ∧ Instr.stores (.load 1 (.base 2 0#32)) = false :=
  ⟨exists_next (by decide +kernel), rfl⟩

theorem witness_OnlyATakenHaltHalts :
    e6.run = .running ∧ (∃ t, exec (.halt .always) e6 = .next t) ∧ ∃ t, exec (.halt .z) e6 = .next t :=
  ⟨rfl, exists_next (by decide +kernel), exists_next (by decide +kernel)⟩

/-- The first clause at both ends of its range, the second with the latch set. -/
theorem witness_TimerRaisesReadyOnTheNthTick :
    (e3.countEnable = true ∧ e3.endLatch = false ∧ e3.reload.toNat = 3 ∧ e3.countdown.toNat = 3 ∧ 0 < 3 ∧ 0 < 3 ∧
      2 < 3) ∧ ({ e3 with endLatch := true }).endLatch = true := by decide +kernel

/-- Slots 0 and 2. -/
theorem witness_TimerSlotStores :
    ∃ u, (timerState e3).hitsUnit ((timerState e3).ea (.base 2 0#32)) .word u ∧
      (timerState e3).hitsUnit ((timerState e3).ea (.base 2 11#32)) .word u ∧ u.device = .timer e3 ∧
      ((timerState e3).units.map IoUnit.id).Nodup ∧ u.offset ((timerState e3).ea (.base 2 0#32)) .word / 4 = 0 ∧
      u.offset ((timerState e3).ea (.base 2 11#32)) .word / 4 = 2 :=
  ⟨{ id := 4, start := 0x2000#32, level := .level1, signal := true, device := .timer e3 },
    by unfold State.hitsUnit; decide +kernel⟩

/-- A set latch; a tick that is sure to work; conditional-input mode under both policies. -/
theorem witness_PioReadinessFollowsTheMask :
    (Pio.mk true true true 3#32 0#32 false true).endLatch = true ∧
    (Pio.mk true true true 0#32 0#32 false false).tick 0 false ≠ (Pio.mk true true true 0#32 0#32 false false, false) ∧
    (Pio.mk true true true 0#32 0#32 false false).matched (Config.freeWord 0) = true ∧
    (let p := Pio.mk true true true 3#32 0#32 false false
     p.endLatch = false ∧ p.input = true ∧ p.conditional = true ∧ p.matchAll = true) ∧
    (Pio.mk true true false 3#32 0#32 false false).matchAll = false := by
  refine ⟨rfl, fun h => ?_, ?_, ⟨rfl, rfl, rfl, rfl⟩, rfl⟩
  · have := congrArg (fun o => o.1.endLatch) h
    simp [Pio.tick, Pio.gated, Pio.matched] at this
  · simp [Pio.matched]

/-- A machine with the parallel I/O `p` at 0x2000. -/
def pioState (p : Pio) : State :=
  { timerState e3 with units := [{ id := 4, start := 0x2000#32, level := .level1, signal := true, device := .pio p }] }

/-- Slots 0, 1 and 2. -/
theorem witness_PioSlotStores :
    ∃ u, ∀ k ∈ [0, 1, 2],
      let s := pioState (Pio.mk true true true 3#32 0#32 true false)
      s.unitAt (align (s.ea (.base 2 (BitVec.ofNat 32 (4 * k + 3)))) .word) = some u ∧
      u.device = .pio (Pio.mk true true true 3#32 0#32 true false) ∧ (s.units.map IoUnit.id).Nodup ∧
      u.offset (s.ea (.base 2 (BitVec.ofNat 32 (4 * k + 3)))) .word / 4 = k :=
  ⟨{ id := 4, start := 0x2000#32, level := .level1, signal := true,
      device := .pio (Pio.mk true true true 3#32 0#32 true false) }, by decide +kernel⟩

/-- Two words, and none; then two words over each other, and the same word twice. -/
theorem witness_HaltingDmaCopiesItsBlock :
    (∀ n ∈ [0, 2],
      (let d := dma2 true false (BitVec.ofNat 32 n)
       let s := dmaState d
       let u := dmaUnit d
       s.unitAt (align (s.ea (.base 2 0x10#32)) .word) = some u ∧ u.device = .dma d ∧ (s.units.map IoUnit.id).Nodup ∧
       u.offset (s.ea (.base 2 0x10#32)) .word / 4 = 4 ∧ d.halting = true ∧ d.srcInc = true ∧ d.dstInc = true ∧
       d.counter.toNat = n ∧
       (∀ k, k < n → s.flatAt (blockAddr d.source d.srcInc k) .word = true ∧
         s.flatAt (blockAddr d.destination d.dstInc k) .word = true) ∧
       d.source.toNat % 4 = 0 ∧ d.destination.toNat % 4 = 0 ∧
       d.source.toNat + 4 * n ≤ 2 ^ 32 ∧ d.destination.toNat + 4 * n ≤ 2 ^ 32 ∧
       (d.source.toNat + 4 * n ≤ d.destination.toNat ∨ d.destination.toNat + 4 * n ≤ d.source.toNat))) ∧
    ∀ inc ∈ [true, false],
      (let d := { dma2 true false 2#32 with destination := 0x104#32, srcInc := inc, dstInc := inc }
       let s := dmaState d
       s.unitAt (align (s.ea (.base 2 0x10#32)) .word) = some (dmaUnit d) ∧ d.counter.toNat = 2 ∧
       ∀ k, k < 2 → s.flatAt (blockAddr d.source d.srcInc k) .word = true ∧
         s.flatAt (blockAddr d.destination d.dstInc k) .word = true) := by decide +kernel

/-- The last word and one before it. -/
theorem witness_CycleStealingTickCopiesOneWord :
    ∀ n ∈ [1, 2],
      (let d := dma2 false true (BitVec.ofNat 32 n)
       let s := dmaState d
       dmaUnit d ∈ s.units ∧ (dmaUnit d).device = .dma d ∧ (s.units.map IoUnit.id).Nodup ∧ d.started = true ∧
       d.halting = false ∧ d.counter ≠ 0#32 ∧ s.flatAt d.source .word = true ∧
       s.flatAt d.destination .word = true) := by decide +kernel

/-- A registration that succeeds and its premises, a span that is not, one that overlaps an attached unit by a byte,
one whose units overlap. -/
theorem witness_AttachChecksTheConfiguration :
    (([spec 7 0x3000#32 4].all fun v => v.kind.spanOk) = true ∧
      unitsOk (e6.units ++ [spec 7 0x3000#32 4].map (UnitSpec.unit 0)) = true ∧
      ([spec 7 0x3000#32 3].all fun v => v.kind.spanOk) = false ∧
      unitsOk (e6.units ++ [spec 7 0x3002#32 4].map (UnitSpec.unit 0)) = false) ∧
    (∃ t, hostAttach [spec 7 0x3000#32 4] e6 = .ok t) ∧
    (genericUnit 1 0x1000#32 .none false ∈ e6.units ∧
      (genericUnit 1 0x1000#32 .none false).start.toNat ≤ 0x1003 ∧ 0x1003 < (genericUnit 1 0x1000#32 .none false).stop ∧
      (spec 7 0x1003#32 4).start.toNat ≤ 0x1003 ∧ 0x1003 < ((spec 7 0x1003#32 4).unit 0).stop) ∧
    ((spec 1 0x2000#32 16).start.toNat ≤ 0x200F ∧ 0x200F < ((spec 1 0x2000#32 16).unit 0).stop ∧
      (spec 2 0x200C#32 16).start.toNat ≤ 0x200F ∧ 0x200F < ((spec 2 0x200C#32 16).unit 0).stop) :=
  ⟨by decide +kernel, ⟨_, rfl⟩, by decide +kernel, by decide +kernel⟩

theorem witness_DetachGivesTheRangeBack :
    unitsOk e6.units = true ∧ e6.hitsUnit 0x1003#32 .byte (genericUnit 1 0x1000#32 .none false) :=
  ⟨by decide +kernel, by unfold State.hitsUnit; decide +kernel⟩

/-- An image that fills a memory of four bytes, and one that is a byte longer. -/
theorem witness_ImageLoadCopiesTheBytes :
    let s := { State.reset with cfg := { Config.defaults with memSize := 4 } }
    s.cfg.memSize < [1#8, 2#8, 3#8, 4#8, 5#8].length ∧ [1#8, 2#8, 3#8, 4#8].length ≤ s.cfg.memSize ∧
    3 < [1#8, 2#8, 3#8, 4#8].length ∧ [1#8, 2#8, 3#8, 4#8].length ≤ 4 := by decide +kernel

theorem witness_RawAccessReadsBackWhatItWrote :
    (0x3FFFF#32 : Word).toNat < State.reset.cfg.memSize ∧ State.reset.cfg.memSize ≤ (0x40000#32 : Word).toNat := by
  decide +kernel

end Sys2Proof.Tests
end

/-! The parameters and the places of the units along a step (00_scope R9, 70_reset_and_hazards R162). -/

namespace Sys2Proof.Machine

/-! ## The requests keep a unit's place -/

theorem IoUnit.place_acknowledge (u : IoUnit) : u.acknowledge.place = u.place := rfl

theorem IoUnit.place_request (u : IoUnit) : u.request.place = u.place := rfl

/-! ## The configuration as an invariant -/

/-- What attach, detach and the implementation fix: the parameters and, in order, every unit's place. -/
def sameConfiguration (s t : State) : Prop :=
  t.cfg = s.cfg ∧ t.units.map IoUnit.place = s.units.map IoUnit.place

theorem sameConfiguration_refl (s : State) : sameConfiguration s s := ⟨rfl, rfl⟩

/-- The one way a step touches the units: a change of the unit of an id that keeps its place. -/
theorem sameConfiguration.mapUnit {s t : State} (h : sameConfiguration s t) (id : Nat) {f : IoUnit → IoUnit}
    (hf : ∀ u, (f u).place = u.place) : sameConfiguration s (t.mapUnit id f) :=
  ⟨h.1, (t.place_mapUnit id hf).trans h.2⟩

/-- An update that touches neither the parameters nor the units keeps the configuration. -/
theorem sameConfiguration.congr {s t t' : State} (h : sameConfiguration s t) (hc : t'.cfg = t.cfg)
    (hu : t'.units = t.units) : sameConfiguration s t' := by
  unfold sameConfiguration
  rw [hc, hu]
  exact h

theorem sameConfiguration_busInv (s : State) : BusInv (sameConfiguration s) where
  flat _ _ _ _ h _ := h.congr rfl rfl
  unit t addr w v u h _ := (h.mapUnit u.id (IoUnit.place_write t.draws (u.offset addr w) w v)).congr rfl rfl
  drawn t h := h.congr t.drawn_cfg t.drawn_units
  advance _ id h := h.mapUnit id IoUnit.place_advanceDma
  finish _ id h := h.mapUnit id IoUnit.place_finishBlock

theorem sameConfiguration_stepInv (s : State) : StepInv (sameConfiguration s) where
  toBusInv := sameConfiguration_busInv s
  setReg t r v h := h.congr (t.setReg_cfg r v) (t.setReg_units r v)
  setFlag t f b h := h.congr (t.setFlag_cfg f b) (t.setFlag_units f b)
  moveSr _ _ h := h.congr rfl rfl
  next t h := h.congr t.advance_cfg t.advance_units
  target _ _ h := h.congr rfl rfl
  iif _ _ h := h.congr rfl rfl
  halt _ h := h.congr rfl rfl
  schedule _ _ h := h.congr rfl rfl
  acknowledge _ id h := h.mapUnit id IoUnit.place_acknowledge
  steal _ id h := h.mapUnit id IoUnit.place_finishSteal
  tick _ id n h := h.mapUnit id (IoUnit.place_tick n)
  force _ id h := h.mapUnit id IoUnit.place_request
  clear _ id h := h.mapUnit id IoUnit.place_clearRequest
  inject _ id off b h := h.mapUnit id (IoUnit.place_inject off b)

/-- Settles O10: having the configuration of the state before is kept by every part of a step. -/
theorem stepKeepsTheConfiguration : Obligations.StepKeepsTheConfiguration := fun s _ h =>
  (sameConfiguration_stepInv s).step (sameConfiguration_refl s) h

end Sys2Proof.Machine

/-! The machine's invariant `State.wf` (10_state R25, R26; 20_memory R37 to R39) at reset and along a step. -/

namespace Sys2Proof.Machine

/-! ## The parts of the invariant -/

theorem State.wf_iff (s : State) :
    s.wf = true ↔ s.cfg.wf = true ∧ s.pcAligned = true ∧ s.srClean = true ∧ s.bytesOk = true ∧
      unitsOk s.units = true := by
  simp only [State.wf, Bool.and_eq_true, and_assoc]

theorem State.pcAligned_iff (s : State) : s.pcAligned = true ↔ s.pc.toNat % 4 = 0 := by
  unfold State.pcAligned; exact beq_iff_eq

/-- R26 bit by bit. -/
theorem State.srClean_iff (s : State) : s.srClean = true ↔ ∀ k, 11 ≤ k → s.sr.getLsbD k = false := by
  unfold State.srClean
  rw [beq_iff_eq]
  constructor
  · intro h k hk
    by_cases h32 : k < 32
    · have hbit := congrArg (·.getLsbD (k - 11)) h
      have h21 : k - 11 < 21 := by omega
      have hpos : 11 + (k - 11) = k := by omega
      simpa [BitVec.getLsbD_extractLsb', h21, hpos] using hbit
    · exact BitVec.getLsbD_of_ge s.sr k (by omega)
  · intro h
    ext k hk
    simp [BitVec.getElem_extractLsb', h (11 + k) (by omega)]

theorem State.bytesOk_iff (s : State) :
    s.bytesOk = true ↔ Memory.wf s.mem = true ∧ Memory.below s.cfg.memSize s.mem = true ∧
      ∀ u ∈ s.units, u.cellsOk = true := by
  simp only [State.bytesOk, Bool.and_eq_true, and_assoc, List.all_eq_true]

/-- R39 (b): an id names one unit. -/
theorem unitsOk_ids_nodup {us : List IoUnit} (h : unitsOk us = true) : (us.map IoUnit.id).Nodup := by
  simp only [unitsOk, Bool.and_eq_true, decide_eq_true_eq] at h
  obtain ⟨⟨⟨_, hids⟩, _⟩, _⟩ := h
  exact hids

/-- R39 (d): a unit starts at a word. -/
theorem unitsOk_start_aligned {us : List IoUnit} (h : unitsOk us = true) {u : IoUnit} (hu : u ∈ us) :
    u.start.toNat % 4 = 0 := by
  simp only [unitsOk, Bool.and_eq_true, List.all_eq_true, beq_iff_eq] at h
  obtain ⟨_, hall⟩ := h
  exact (hall u hu).1

/-! ## A unit's bytes stay inside its span -/

theorem IoUnit.cellsOk_generic {u : IoUnit} {g : Generic} (hd : u.device = .generic g) :
    u.cellsOk = true ↔ Memory.wf g.cells = true ∧ Memory.below (4 * g.count) g.cells = true := by
  simp only [IoUnit.cellsOk, hd, Bool.and_eq_true]

/-- An aligned access that hits a unit stays inside it, for a unit that starts at a word (R38, R47). -/
theorem IoUnit.offset_add_bytes_le {s : State} {addr : Word} {w : Width} {u : IoUnit}
    (hu : s.hitsUnit addr w u) (hstart : u.start.toNat % 4 = 0) : u.offset addr w + w.bytes ≤ 4 * u.count := by
  obtain ⟨_, hlow, hhigh⟩ := State.hitsUnit_mem hu
  have halign := align_mod addr w
  unfold IoUnit.stop at hhigh
  unfold IoUnit.offset
  cases w <;> simp only [Width.bytes] at halign ⊢ <;> omega

theorem IoUnit.cellsOk_write {n off : Nat} {w : Width} {v : Word} {u : IoUnit} (h : u.cellsOk = true)
    (hoff : off + w.bytes ≤ 4 * u.count) : (u.write n off w v).cellsOk = true := by
  unfold IoUnit.write
  split
  · rename_i g hd
    obtain ⟨hwf, hbelow⟩ := (IoUnit.cellsOk_generic hd).1 h
    have hcount : u.count = g.count := by unfold IoUnit.count; rw [hd]; rfl
    rw [hcount] at hoff
    exact (IoUnit.cellsOk_generic rfl).2 ⟨Generic.wf_write hwf off w v, Memory.below_write hbelow hoff v⟩
  all_goals rfl

theorem IoUnit.cellsOk_inject {off : Nat} {b : Byte} {u : IoUnit} (h : u.cellsOk = true) :
    (u.inject off b).cellsOk = true := by
  unfold IoUnit.inject
  split
  · rename_i g hd
    split
    · rename_i hoff
      obtain ⟨hwf, hbelow⟩ := (IoUnit.cellsOk_generic hd).1 h
      exact (IoUnit.cellsOk_generic rfl).2 ⟨Memory.wf_put hwf off b, Memory.below_put hbelow hoff b⟩
    · exact h
  all_goals exact h

theorem IoUnit.cellsOk_advanceDma {u : IoUnit} (h : u.cellsOk = true) : u.advanceDma.cellsOk = true := by
  unfold IoUnit.advanceDma
  split
  · rfl
  all_goals exact h

theorem IoUnit.cellsOk_raiseReady {u : IoUnit} (h : u.cellsOk = true) : u.raiseReady.cellsOk = true := by
  unfold IoUnit.raiseReady
  split
  · rfl
  all_goals exact h

theorem IoUnit.cellsOk_finishBlock {u : IoUnit} (h : u.cellsOk = true) : u.finishBlock.cellsOk = true := by
  unfold IoUnit.finishBlock
  split
  · split
    · exact IoUnit.cellsOk_raiseReady h
    · exact h
  all_goals exact h

theorem IoUnit.cellsOk_finishSteal {u : IoUnit} (h : u.cellsOk = true) : u.finishSteal.cellsOk = true := by
  unfold IoUnit.finishSteal
  split
  · split
    · exact IoUnit.cellsOk_raiseReady h
    · exact h
  all_goals exact h

theorem IoUnit.cellsOk_tick {n : Nat} {u : IoUnit} (h : u.cellsOk = true) : (u.tick n).cellsOk = true := by
  unfold IoUnit.tick
  split
  · rfl
  · rfl
  all_goals exact h

theorem IoUnit.cellsOk_clearRequest {u : IoUnit} (h : u.cellsOk = true) : u.clearRequest.cellsOk = true := by
  unfold IoUnit.clearRequest
  split <;> exact h

/-! ## What each part of a step does to the invariant -/

/-- An update of other fields keeps the invariant. -/
theorem State.wf_congr {s t : State} (h : s.wf = true) (hcfg : t.cfg = s.cfg) (hpc : t.pc = s.pc)
    (hsr : t.sr = s.sr) (hmem : t.mem = s.mem) (hunits : t.units = s.units) : t.wf = true := by
  unfold State.wf State.pcAligned State.srClean State.bytesOk at h ⊢
  rw [hcfg, hpc, hsr, hmem, hunits]
  exact h

theorem State.wf_setPc {s : State} (h : s.wf = true) {a : Word} (ha : a.toNat % 4 = 0) :
    State.wf { s with pc := a } = true := by
  obtain ⟨hcfg, _, hsr, hbytes, hunits⟩ := s.wf_iff.1 h
  exact (State.wf_iff _).2 ⟨hcfg, (State.pcAligned_iff _).2 ha, hsr, hbytes, hunits⟩

theorem State.wf_setSr {s : State} (h : s.wf = true) {sr : Word} (hclean : ∀ k, 11 ≤ k → sr.getLsbD k = false) :
    State.wf { s with sr := sr } = true := by
  obtain ⟨hcfg, hpc, _, hbytes, hunits⟩ := s.wf_iff.1 h
  exact (State.wf_iff _).2 ⟨hcfg, hpc, (State.srClean_iff _).2 hclean, hbytes, hunits⟩

/-- Every named flag stands below SR[31:11]. -/
theorem State.wf_setFlag {s : State} (h : s.wf = true) (f : SrBit) (b : Bool) : (s.setFlag f b).wf = true := by
  obtain ⟨_, _, hsr, _, _⟩ := s.wf_iff.1 h
  refine State.wf_setSr h fun k hk => ?_
  have hf := f.pos_lt
  rw [getLsbD_srSet, if_neg (by omega), s.srClean_iff.1 hsr k hk]

/-- R27: a MOVE to SR clears SR[31:8]. -/
theorem State.wf_setSr_srLow {s : State} (h : s.wf = true) (v : Word) :
    State.wf { s with sr := srLow v } = true := by
  refine State.wf_setSr h fun k hk => ?_
  rw [getLsbD_srLow, decide_eq_false (by omega), Bool.false_and]

theorem State.wf_advance {s : State} (h : s.wf = true) : s.advance.wf = true := by
  obtain ⟨_, hpc, _, _, _⟩ := s.wf_iff.1 h
  have hpc := s.pcAligned_iff.1 hpc
  exact State.wf_setPc h (by rw [BitVec.toNat_add]; simp; omega)

theorem State.wf_putFlat {s : State} (h : s.wf = true) {addr : Word} {w : Width} (v : Word)
    (hflat : s.flatAt addr w = true) : (s.putFlat addr w v).wf = true := by
  obtain ⟨hcfg, hpc, hsr, hbytes, hunits⟩ := s.wf_iff.1 h
  obtain ⟨hwf, hbelow, hcells⟩ := s.bytesOk_iff.1 hbytes
  obtain ⟨_, hfit⟩ := (s.flatAt_iff addr w).1 hflat
  exact (State.wf_iff _).2 ⟨hcfg, hpc, hsr, (State.bytesOk_iff _).2
    ⟨Memory.wf_write hwf _ w v, Memory.below_write hbelow hfit v, hcells⟩, hunits⟩

/-- A change of the unit of an id that keeps its place and the form of its bytes keeps the invariant. -/
theorem State.wf_mapUnit {s : State} (h : s.wf = true) (id : Nat) {f : IoUnit → IoUnit}
    (hplace : ∀ u, (f u).place = u.place)
    (hcells : ∀ u ∈ s.units, u.id = id → u.cellsOk = true → (f u).cellsOk = true) :
    (s.mapUnit id f).wf = true := by
  obtain ⟨hcfg, hpc, hsr, hbytes, hunits⟩ := s.wf_iff.1 h
  obtain ⟨hwf, hbelow, hall⟩ := s.bytesOk_iff.1 hbytes
  refine (State.wf_iff _).2 ⟨hcfg, hpc, hsr, (State.bytesOk_iff _).2 ⟨hwf, hbelow, fun x hx => ?_⟩, ?_⟩
  · rw [State.mapUnit_units] at hx
    obtain ⟨u, hu, rfl⟩ := List.mem_map.1 hx
    split
    · exact hcells u hu ‹_› (hall u hu)
    · exact hall u hu
  · rw [unitsOk_congr (s.place_mapUnit id hplace)]
    exact hunits

/-- Ids name one unit each, so the unit a write changes is the one it hits, and it hits it inside its span. -/
theorem State.wf_putUnit {s : State} (h : s.wf = true) {addr : Word} {w : Width} (v : Word) {u : IoUnit}
    (hu : s.hitsUnit addr w u) : (s.putUnit u addr w v).wf = true := by
  obtain ⟨_, _, _, _, hunits⟩ := s.wf_iff.1 h
  obtain ⟨hmem, _, _⟩ := State.hitsUnit_mem hu
  have hfit := IoUnit.offset_add_bytes_le hu (unitsOk_start_aligned hunits hmem)
  have hmap := State.wf_mapUnit h u.id (IoUnit.place_write s.draws (u.offset addr w) w v)
    fun x hx hid hok => by
      have hxu : x = u := List.inj_on_of_nodup_map (unitsOk_ids_nodup hunits) hx hmem hid
      subst hxu
      exact IoUnit.cellsOk_write hok hfit
  exact State.wf_congr hmap rfl rfl rfl rfl rfl

/-! ## The invariant along a step -/

theorem wf_busInv : BusInv (fun s => s.wf = true) where
  flat _ _ _ v h hflat := State.wf_putFlat h v hflat
  unit _ _ _ v _ h hu := State.wf_putUnit h v hu
  drawn _ h := State.wf_congr h rfl rfl rfl rfl rfl
  advance _ id h := State.wf_mapUnit h id IoUnit.place_advanceDma fun _ _ _ => IoUnit.cellsOk_advanceDma
  finish _ id h := State.wf_mapUnit h id IoUnit.place_finishBlock fun _ _ _ => IoUnit.cellsOk_finishBlock

theorem wf_stepInv : StepInv (fun s => s.wf = true) where
  toBusInv := wf_busInv
  setReg _ _ _ h := State.wf_congr h rfl rfl rfl rfl rfl
  setFlag _ f b h := State.wf_setFlag h f b
  moveSr _ v h := State.wf_setSr_srLow h v
  next _ h := State.wf_advance h
  target _ a h := State.wf_setPc h (by rw [and_mask_word]; exact Nat.mul_mod_left _ _)
  iif _ _ h := State.wf_congr h rfl rfl rfl rfl rfl
  halt _ h := State.wf_congr h rfl rfl rfl rfl rfl
  schedule _ _ h := State.wf_congr h rfl rfl rfl rfl rfl
  acknowledge _ id h := State.wf_mapUnit h id IoUnit.place_acknowledge fun _ _ _ hok => hok
  steal _ id h := State.wf_mapUnit h id IoUnit.place_finishSteal fun _ _ _ => IoUnit.cellsOk_finishSteal
  tick _ id n h := State.wf_mapUnit h id (IoUnit.place_tick n) fun _ _ _ => IoUnit.cellsOk_tick
  force _ id h := State.wf_mapUnit h id IoUnit.place_request fun _ _ _ hok => hok
  clear _ id h := State.wf_mapUnit h id IoUnit.place_clearRequest fun _ _ _ => IoUnit.cellsOk_clearRequest
  inject _ id off b h := State.wf_mapUnit h id (IoUnit.place_inject off b) fun _ _ _ => IoUnit.cellsOk_inject

/-- Settles O9: every part of a step keeps the invariant. -/
theorem stepKeepsWellFormed : Obligations.StepKeepsWellFormed := fun _ _ hs h => wf_stepInv.step hs h

/-! ## Reset -/

/-- Settles O8, part by part: nothing is listed and nothing is attached, and pc and SR are 0. -/
theorem resetIsWellFormed : Obligations.ResetIsWellFormed :=
  (State.wf_iff _).2 ⟨by decide, (State.pcAligned_iff _).2 rfl,
    (State.srClean_iff _).2 fun _ _ => BitVec.getLsbD_zero,
    (State.bytesOk_iff _).2 ⟨State.reset_mem_wf, rfl, fun _ h => absurd h List.not_mem_nil⟩, by decide⟩

/-- Settles O7: each register reads the 0 that reset replicates, and every other value is a field of reset. -/
theorem resetLeavesTheStatedValues : Obligations.ResetLeavesTheStatedValues :=
  ⟨fun r => Vector.getElem_replicate r.isLt, rfl, rfl, rfl, rfl, rfl, rfl⟩

end Sys2Proof.Machine

/-! What an instruction and the poll leave unchanged of the registers, SR, IIF and the run state (10_state R22, R26,
R31, R33). -/

namespace Sys2Proof

open Machine

/-! ## The instructions that write IIF or the run state -/

/-- R122: a RETN whose condition holds. -/
def Instr.takesRetn (s : State) : Instr → Bool
  | .retn cond => condHolds s.sr cond
  | _ => false

/-- R123: a HALT whose condition holds. -/
def Instr.takesHalt (s : State) : Instr → Bool
  | .halt cond => condHolds s.sr cond
  | _ => false

theorem Instr.takesRetn_iff (s : State) (i : Instr) :
    i.takesRetn s = true ↔ ∃ cond, i = .retn cond ∧ condHolds s.sr cond = true := by
  constructor
  · intro h
    cases i with
    | retn cond => exact ⟨cond, rfl, h⟩
    | _ => exact nomatch h
  · rintro ⟨cond, rfl, h⟩
    exact h

theorem Instr.takesHalt_iff (s : State) (i : Instr) :
    i.takesHalt s = true ↔ ∃ cond, i = .halt cond ∧ condHolds s.sr cond = true := by
  constructor
  · intro h
    cases i with
    | halt cond => exact ⟨cond, rfl, h⟩
    | _ => exact nomatch h
  · rintro ⟨cond, rfl, h⟩
    exact h

/-- The SR bits an instruction may change, with every bit for a MOVE to SR (R26, R30). -/
def Instr.srBits (i : Instr) : List Nat := i.writtenSr.getD (List.range 32)

end Sys2Proof

namespace Sys2Proof.Machine

/-! ## The core: registers, SR, IIF and the run state -/

/-- Outside the listed registers and the listed SR bits, the core is as before. -/
structure CoreFrame (rs : List Reg) (bits : List Nat) (s t : State) : Prop where
  regs : sameRegsBut rs s t
  sr : sameSrBut bits s t
  iif : t.iif = s.iif
  run : t.run = s.run

namespace CoreFrame

theorem refl (rs : List Reg) (bits : List Nat) (s : State) : CoreFrame rs bits s s :=
  ⟨fun _ _ => rfl, fun _ _ => rfl, rfl, rfl⟩

variable {rs : List Reg} {bits : List Nat} {s t t' : State}

theorem congr (h : CoreFrame rs bits s t) (hregs : t'.regs = t.regs) (hsr : t'.sr = t.sr) (hiif : t'.iif = t.iif)
    (hrun : t'.run = t.run) : CoreFrame rs bits s t' where
  regs r hr := (State.reg_congr hregs r).trans (h.regs r hr)
  sr k hk := by rw [hsr]; exact h.sr k hk
  iif := hiif.trans h.iif
  run := hrun.trans h.run

/-- No part of a bus access writes the core. -/
theorem busInv (rs : List Reg) (bits : List Nat) (s : State) : BusInv (CoreFrame rs bits s) where
  flat _ _ _ _ h _ := h.congr rfl rfl rfl rfl
  unit _ _ _ _ _ h _ := h.congr rfl rfl rfl rfl
  drawn _ h := h.congr rfl rfl rfl rfl
  advance _ _ h := h.congr rfl rfl rfl rfl
  finish _ _ h := h.congr rfl rfl rfl rfl

/-! ### Updates of the state -/

theorem advance (h : CoreFrame rs bits s t) : CoreFrame rs bits s t.advance := h.congr rfl rfl rfl rfl

theorem setReg (h : CoreFrame rs bits s t) {r : Reg} (hr : r ∈ rs) (v : Word) :
    CoreFrame rs bits s (t.setReg r v) where
  regs x hx := by
    have hne : x ≠ r := fun hxr => hx (hxr ▸ hr)
    exact (t.reg_setReg_ne v hne).trans (h.regs x hx)
  sr := h.sr
  iif := h.iif
  run := h.run

theorem setFlag (h : CoreFrame rs bits s t) {f : SrBit} (hf : f.pos ∈ bits) (b : Bool) :
    CoreFrame rs bits s (t.setFlag f b) where
  regs := h.regs
  sr k hk := by
    have hne : k ≠ f.pos := fun hkf => hk (hkf ▸ hf)
    rw [State.setFlag_sr, getLsbD_srSet, if_neg hne]
    exact h.sr k hk
  iif := h.iif
  run := h.run

theorem setNZ (h : CoreFrame rs bits s t) (hb : [SrBit.n.pos, SrBit.z.pos] ⊆ bits) (v : Word) :
    CoreFrame rs bits s (t.setNZ v) :=
  (h.setFlag (f := .n) (hb (by decide)) _).setFlag (f := .z) (hb (by decide)) _

theorem setAluFlags (h : CoreFrame rs bits s t) (hb : nzcvBits ⊆ bits) (o : AluOut) :
    CoreFrame rs bits s (t.setAluFlags o) :=
  ((h.setNZ (List.Subset.trans (by decide) hb) _).setFlag (f := .c) (hb (by decide)) _).setFlag (f := .v)
    (hb (by decide)) _

/-- The poll's first step writes INT0-2 alone (R132 step 1). -/
theorem recomputePending (h : CoreFrame rs bits s t) (hb : intBits ⊆ bits) :
    CoreFrame rs bits s t.recomputePending :=
  ((h.setFlag (f := .int0) (hb (by decide)) _).setFlag (f := .int1) (hb (by decide)) _).setFlag (f := .int2)
    (hb (by decide)) _

/-! ### Shared operations -/

theorem writePC (h : CoreFrame rs bits s t) {a : Word} (hw : writePC t a = .next t') : CoreFrame rs bits s t' :=
  (writePC_cases hw).1 ▸ h.congr rfl rfl rfl rfl

theorem push (h : CoreFrame rs bits s t) (hsp : Reg.sp ∈ rs) {v : Word} (hp : pushWord t v = .next t') :
    CoreFrame rs bits s t' :=
  (busInv rs bits s).write (h.setReg hsp _) hp

theorem popPC (h : CoreFrame rs bits s t) (hsp : Reg.sp ∈ rs) (hp : popPC t = .next t') :
    CoreFrame rs bits s t' := by
  obtain ⟨⟨v, t1⟩, hread, hpc⟩ := Res.andThen_eq_next.1 hp
  exact (((busInv rs bits s).read h hread).setReg hsp _).writePC hpc

theorem vectorPC (h : CoreFrame rs bits s t) (hv : vectorPC t = .next t') : CoreFrame rs bits s t' := by
  unfold Machine.vectorPC at hv
  split at hv
  · obtain ⟨⟨v, t1⟩, hread, hpc⟩ := Res.andThen_eq_next.1 hv
    exact ((busInv rs bits s).read h hread).writePC hpc
  · exact h.writePC hv

/-! ### The endings of the instruction rules -/

theorem finishAlu {rd : Reg} {o : AluOut} (h : .next (s.finishAlu rd o) = (.next t : Res State)) :
    CoreFrame [rd] nzcvBits s t := by
  injection h with h
  subst h
  exact (((refl _ _ s).setReg List.mem_cons_self o.r).setAluFlags (List.Subset.refl _) o).advance

theorem finishMove {rd : Reg} {v : Word} (h : .next (s.finishMove rd v) = (.next t : Res State)) :
    CoreFrame [rd] [SrBit.n.pos, SrBit.z.pos] s t := by
  injection h with h
  subst h
  have hset : CoreFrame [rd] [SrBit.n.pos, SrBit.z.pos] s (s.setReg rd v) :=
    (refl _ _ s).setReg List.mem_cons_self v
  rw [State.finishMove_eq]
  split
  · exact (hset.setNZ (List.Subset.refl _) v).advance
  · exact hset.advance

/-- A MOVE to SR writes no core field but SR (R82 to R85). -/
theorem finishMoveSr {v : Word} (h : .next (s.finishMoveSr v) = (.next t : Res State)) :
    CoreFrame [] (List.range 32) s t := by
  injection h with h
  subst h
  refine ⟨fun _ _ => rfl, fun k hk => ?_, rfl, rfl⟩
  have hk : 32 ≤ k := by simpa using hk
  rw [BitVec.getLsbD_of_ge _ k hk, BitVec.getLsbD_of_ge _ k hk]

theorem loadReg {w : Width} {r : Reg} {a : Addr} (h : loadReg w r a s = .next t) : CoreFrame [r] [] s t := by
  obtain ⟨⟨v, s1⟩, hread, h⟩ := Res.andThen_eq_next.1 h
  injection h with h
  subst h
  exact (((busInv _ _ s).read (refl _ _ s) hread).setReg List.mem_cons_self v).advance

theorem storeReg {w : Width} {r : Reg} {a : Addr} (h : storeReg w r a s = .next t) : CoreFrame [] [] s t := by
  obtain ⟨s1, hwrite, h⟩ := Res.andThen_eq_next.1 h
  injection h with h
  subst h
  exact ((busInv _ _ s).write (refl _ _ s) hwrite).advance

/-- A control instruction keeps what it keeps when taken. -/
theorem whenCond {cond : Cond} {r : Res State} (hr : r = .next t → CoreFrame rs bits s t)
    (h : whenCond cond s r = .next t) : CoreFrame rs bits s t := by
  unfold Machine.whenCond at h
  split at h
  · exact hr h
  · injection h with h
    exact h ▸ (refl rs bits s).advance

end CoreFrame

/-! ## What every instruction does to the core -/

/-- What an instruction that completes may change of the core. -/
structure ExecFrame (i : Instr) (s t : State) : Prop where
  regs : sameRegsBut i.writtenRegs s t
  sr : sameSrBut i.srBits s t
  iif : t.iif = (s.iif || i.takesRetn s)
  run : t.run = if i.takesHalt s then .halted else s.run

/-- Every instruction but a taken RETN and a taken HALT leaves IIF and the run state. -/
theorem ExecFrame.of_coreFrame {i : Instr} {s t : State} (h : CoreFrame i.writtenRegs i.srBits s t)
    (hretn : i.takesRetn s = false) (hhalt : i.takesHalt s = false) : ExecFrame i s t where
  regs := h.regs
  sr := h.sr
  iif := by rw [hretn, Bool.or_false]; exact h.iif
  run := by rw [hhalt]; exact h.run

/-- R122: RETN writes r7 and, when taken, sets IIF. -/
theorem execRetn_execFrame {cond : Cond} {s t : State} (h : execRetn cond s = .next t) :
    ExecFrame (.retn cond) s t := by
  unfold execRetn whenCond at h
  split at h
  · rename_i hc
    obtain ⟨s1, hpop, h⟩ := Res.andThen_eq_next.1 h
    injection h with h
    subst h
    have hframe : CoreFrame [Reg.sp] [] s s1 := (CoreFrame.refl _ _ s).popPC List.mem_cons_self hpop
    refine ⟨hframe.regs, hframe.sr, ?_, hframe.run⟩
    show true = (s.iif || condHolds s.sr cond)
    rw [hc, Bool.or_true]
  · rename_i hc
    injection h with h
    subst h
    exact .of_coreFrame (CoreFrame.refl _ _ s).advance (Bool.eq_false_iff.2 hc) rfl

/-- R123: HALT writes the run state when taken and nothing else. -/
theorem execHalt_execFrame {cond : Cond} {s t : State} (h : execHalt cond s = .next t) :
    ExecFrame (.halt cond) s t := by
  unfold execHalt whenCond at h
  split at h
  · rename_i hc
    injection h with h
    subst h
    refine ⟨fun _ _ => rfl, fun _ _ => rfl, (Bool.or_false _).symm, ?_⟩
    exact (if_pos hc).symm
  · rename_i hc
    injection h with h
    subst h
    exact .of_coreFrame (CoreFrame.refl _ _ s).advance rfl (Bool.eq_false_iff.2 hc)

/-- What every instruction does to the core, by the ending of its rule. -/
theorem exec_execFrame {i : Instr} {s t : State} (h : exec i s = .next t) : ExecFrame i s t := by
  cases i with
  | moveRegReg | moveImmReg | moveSrReg => exact .of_coreFrame (CoreFrame.finishMove h) rfl rfl
  | moveRegSr | moveSrSr => exact .of_coreFrame (CoreFrame.finishMoveSr h) rfl rfl
  | or | and | xor | add | adc | sub | sbc | rotl | rotr | shl | shr | ashr =>
    exact .of_coreFrame (CoreFrame.finishAlu h) rfl rfl
  | cmp =>
    injection h with h
    subst h
    exact .of_coreFrame ((CoreFrame.refl _ _ s).setAluFlags (List.Subset.refl _) _).advance rfl rfl
  | pop r =>
    obtain ⟨⟨v, s1⟩, hread, h⟩ := Res.andThen_eq_next.1 h
    injection h with h
    subst h
    have hframe : CoreFrame [r, Reg.sp] [] s s1 := (CoreFrame.busInv _ _ s).read (CoreFrame.refl _ _ s) hread
    have hset := (hframe.setReg List.mem_cons_self v).setReg (r := Reg.sp) (List.mem_cons_of_mem _ List.mem_cons_self)
    exact .of_coreFrame (hset _).advance rfl rfl
  | push =>
    obtain ⟨s1, hpush, h⟩ := Res.andThen_eq_next.1 h
    injection h with h
    subst h
    exact .of_coreFrame ((CoreFrame.refl _ _ s).push List.mem_cons_self hpush).advance rfl rfl
  | loadb | loadh | load => exact .of_coreFrame (CoreFrame.loadReg h) rfl rfl
  | storeb | storeh | store => exact .of_coreFrame (CoreFrame.storeReg h) rfl rfl
  | jp | jr => exact .of_coreFrame (CoreFrame.whenCond (CoreFrame.refl _ _ s).writePC h) rfl rfl
  | call =>
    refine .of_coreFrame (CoreFrame.whenCond (fun h => ?_) h) rfl rfl
    obtain ⟨s1, hpush, hpc⟩ := Res.andThen_eq_next.1 h
    exact ((CoreFrame.refl _ _ s).push List.mem_cons_self hpush).writePC hpc
  | ret =>
    exact .of_coreFrame (CoreFrame.whenCond ((CoreFrame.refl _ _ s).popPC List.mem_cons_self) h) rfl rfl
  | reti =>
    refine .of_coreFrame (CoreFrame.whenCond (fun h => ?_) h) rfl rfl
    obtain ⟨s1, hpop, h⟩ := Res.andThen_eq_next.1 h
    injection h with h
    subst h
    exact ((CoreFrame.refl _ _ s).popPC List.mem_cons_self hpop).setFlag List.mem_cons_self true
  | retn => exact execRetn_execFrame h
  | halt => exact execHalt_execFrame h

/-! ## What the poll does to IIF -/

/-- R134: the non-maskable entry clears IIF. -/
theorem nmiEntry_iif {id : Nat} {s t : State} (h : nmiEntry id s = .next t) : t.iif = false := by
  obtain ⟨s1, hpush, hpc⟩ := Res.andThen_eq_next.1 h
  exact (((CoreFrame.refl [Reg.sp] [] _).push List.mem_cons_self hpush).writePC hpc).iif

/-- R135: the maskable entry writes r7 and clears GIE. -/
theorem maskableEntry_coreFrame {s t : State} (h : maskableEntry s = .next t) :
    CoreFrame [Reg.sp] [SrBit.gie.pos] s t := by
  obtain ⟨s1, hpush, hvector⟩ := Res.andThen_eq_next.1 h
  exact (((CoreFrame.refl _ _ s).setFlag List.mem_cons_self false).push List.mem_cons_self hpush).vectorPC hvector

/-- The unit the poll enters the non-maskable sequence for is attached, of level 3 and signalling (R132 step 3). -/
theorem State.nmiUnit_eq_some {s : State} {u : IoUnit} (h : s.nmiUnit = some u) :
    u ∈ s.units ∧ u.level = .level3 ∧ u.signal = true := by
  have hu := List.find?_some h
  simp only [Bool.and_eq_true, beq_iff_eq] at hu
  exact ⟨List.mem_of_find?_eq_some h, hu⟩

/-- Everything a poll can do to IIF (R132). -/
theorem poll_iif {s t : State} (h : poll s = .next t) :
    t.iif = s.iif ∨ t.iif = false ∧ ∃ u ∈ s.units, u.level = .level3 ∧ u.signal = true := by
  unfold poll at h
  dsimp only at h
  split at h
  · split at h
    · rename_i u hu
      exact .inr ⟨nmiEntry_iif h, u, State.nmiUnit_eq_some hu⟩
    · split at h
      · exact .inl (maskableEntry_coreFrame h).iif
      · injection h with h
        exact .inl (h ▸ rfl)
  · injection h with h
    exact .inl (h ▸ rfl)

/-! ## The statements -/

/-- Settles O45: what each instruction, and the poll, can do to IIF. -/
theorem onlyRetnAndNmiChangeTheEnableFlipFlop : Obligations.OnlyRetnAndNmiChangeTheEnableFlipFlop := by
  refine ⟨fun i s t h hne => ?_, fun s t h hne => (poll_iif h).resolve_left hne⟩
  have hiif := (exec_execFrame h).iif
  cases hretn : i.takesRetn s with
  | false => exact absurd (by rw [hiif, hretn, Bool.or_false]) hne
  | true => exact ⟨by rw [hiif, hretn, Bool.or_true], (i.takesRetn_iff s).1 hretn⟩

/-- Settles O46: the SR part of what an instruction leaves of the core. -/
theorem onlyListedStatusBitsChange : Obligations.OnlyListedStatusBitsChange := by
  intro i s t bits h hbits
  have hsr := (exec_execFrame h).sr
  rw [Instr.srBits, hbits] at hsr
  exact hsr

/-- Settles O47: the register part of what an instruction leaves of the core. -/
theorem onlyListedRegistersChange : Obligations.OnlyListedRegistersChange := fun _ _ _ h => (exec_execFrame h).regs

/-- Settles O49: from Running, the run state is Halted after a taken HALT and Running after anything else. -/
theorem onlyATakenHaltHalts : Obligations.OnlyATakenHaltHalts := by
  intro i s t hs h
  have hrun := (exec_execFrame h).run
  rw [← i.takesHalt_iff s]
  cases hhalt : i.takesHalt s with
  | false =>
    have ht : t.run = .running := by rw [hrun, hhalt]; exact hs
    simp [ht]
  | true =>
    have ht : t.run = .halted := by rw [hrun, hhalt]; rfl
    simp [ht]

end Sys2Proof.Machine

/-! What a store leaves to be read (20_memory R38 to R42, R45, R47, 60_exceptions R149). -/

namespace Sys2Proof.Machine

/-! ## A completed store -/

/-- A store that is done at once stores its bytes and advances pc (R110, R112, R114). -/
theorem storeReg_writable {w : Width} {r : Reg} {addr : Addr} {s : State} (h : s.writable (s.ea addr) w = true) :
    ∃ t, storeReg w r addr s = .next t ∧ stored (s.ea addr) w (s.reg r) s t ∧ t.pc = s.pc + 4 ∧
      sameRegsBut [] s t ∧ sameSrBut [] s t ∧ sameControl s t := by
  obtain ⟨t, hwrite, hstored, hregs, hpc, hsr, hcontrol⟩ := busWrite_writable (v := s.reg r) h
  refine ⟨t.advance, by rw [storeReg, hwrite, Res.andThen_next], hstored, ?_, fun x _ => ?_, fun k _ => ?_, hcontrol⟩
  · rw [State.advance_pc, hpc]
  · exact State.reg_congr hregs x
  · rw [State.advance_sr, hsr]

theorem State.writable_of_flatAt {s : State} {addr : Word} {w : Width} (h : s.flatAt addr w = true) :
    s.writable addr w = true := by
  obtain ⟨hnone, _⟩ := (s.flatAt_iff addr w).1 h
  rw [State.writable, hnone]
  exact h

theorem State.writable_of_hitsUnit {s : State} {addr : Word} {w : Width} {u : IoUnit} (h : s.hitsUnit addr w u)
    (hb : u.startsBlock (u.offset addr w) w = false) : s.writable addr w = true := by
  unfold State.hitsUnit at h
  rw [State.writable, h]
  simp only [hb, Bool.not_false]

/-! ## The parts of a word -/

/-- R40, R47: a part of a word's bytes, read as a value, is the field of the word that a slot presents there. -/
theorem leRead_part_of_word {f : Nat → Byte} {a : Nat} {v : Word} (hf : ∀ j, j < 4 → f (a + j) = byteOf v j)
    {k : Nat} {w : Width} (hk : k + w.bytes ≤ 4) : leRead f (a + k) w = slotField v k w := by
  have hlt : k < 4 := by cases w <;> simp only [Width.bytes] at hk <;> omega
  have hmod : k % 4 = k := Nat.mod_eq_of_lt hlt
  have hbyte : ∀ j, j < w.bytes → f (a + k + j) = byteOf v (k + j) := fun j hj => by
    rw [Nat.add_assoc]; exact hf _ (by omega)
  have hfirst : f (a + k) = byteOf v k := hf k hlt
  cases w
  case byte => simp only [leRead, slotField, hmod, hfirst, byteOf]
  case half =>
    have hjoin : byteOf v (k + 1) ++ byteOf v k = v.extractLsb' (8 * k) 16 := by
      ext i hi
      simp only [byteOf, BitVec.getElem_append, BitVec.getElem_extractLsb']
      split
      · rfl
      · congr 1; omega
    simp only [leRead, slotField, hmod, hfirst, hbyte 1 (by decide), hjoin]
  case word =>
    obtain rfl : k = 0 := by simp only [Width.bytes] at hk; omega
    simp only [leRead, slotField, hfirst, hbyte 1 (by decide), hbyte 2 (by decide), hbyte 3 (by decide), Nat.zero_add,
      leWord_byteOf]
    exact (BitVec.ushiftRight_zero v).symm

/-! ## Reading flat memory back -/

theorem align_eq_self {a : Word} {w : Width} (h : a.toNat % w.bytes = 0) : align a w = a :=
  BitVec.eq_of_toNat_eq (by rw [align_toNat]; exact Nat.div_mul_cancel (Nat.dvd_of_mod_eq_zero h))

theorem State.unitAt_eq_none_iff (s : State) (a : Word) :
    s.unitAt a = none ↔ ∀ u ∈ s.units, u.covers a = false := by
  simp only [State.unitAt, List.find?_eq_none, Bool.not_eq_true]

/-- Units start at words and span words, so none cuts a word (R38, R39). -/
theorem State.unitAt_none_of_same_word {s : State} (hunits : unitsOk s.units = true) {a b : Word}
    (hword : b.toNat / 4 = a.toNat / 4) (ha : s.unitAt a = none) : s.unitAt b = none := by
  rw [State.unitAt_eq_none_iff] at ha ⊢
  intro u hu
  have hstart := unitsOk_start_aligned hunits hu
  have hout := ha u hu
  simp only [IoUnit.covers, Bool.and_eq_false_iff, decide_eq_false_iff_not] at hout ⊢
  unfold IoUnit.stop at hout ⊢
  omega

/-- In flat memory every aligned part of a word reads as that field of the word its bytes make up. -/
theorem State.valueAt_part_of_word {t : State} {a v : Word} (hunits : unitsOk t.units = true)
    (hnone : t.unitAt a = none) (ha : a.toNat % 4 = 0) (hbytes : ∀ j, j < 4 → t.byteAt (a.toNat + j) = byteOf v j)
    {k : Nat} {w : Width} (hk : k + w.bytes ≤ 4) (halign : k % w.bytes = 0) :
    t.valueAt (a + BitVec.ofNat 32 k) w = slotField v k w := by
  have hlt : k < 4 := by cases w <;> simp only [Width.bytes] at hk <;> omega
  have hnat : (a + BitVec.ofNat 32 k).toNat = a.toNat + k := by
    have := a.isLt
    rw [BitVec.toNat_add, BitVec.toNat_ofNat]
    omega
  have hself : align (a + BitVec.ofNat 32 k) w = a + BitVec.ofNat 32 k := by
    refine align_eq_self ?_
    rw [hnat]
    cases w <;> simp only [Width.bytes] at halign ⊢ <;> omega
  have hfree : t.unitAt (a + BitVec.ofNat 32 k) = none :=
    State.unitAt_none_of_same_word hunits (by omega) hnone
  simp only [State.valueAt, State.flatValue, hself, hfree, hnat]
  exact leRead_part_of_word hbytes hk

/-- Settles O24: each aligned part of the stored word reads as its field, since no unit cuts the word. -/
theorem storedWordReadsBackInEveryWidth : Obligations.StoredWordReadsBackInEveryWidth := by
  intro r addr s t hs hflat h a v
  obtain ⟨t', ht', ⟨hflatStored, _⟩, _⟩ := storeReg_writable (r := r) (State.writable_of_flatAt hflat)
  obtain rfl : t' = t := by
    have := ht'.symm.trans h
    injection this
  obtain ⟨hnone, _⟩ := (s.flatAt_iff _ _).1 hflat
  obtain ⟨⟨hbytes, _⟩, hunits⟩ := hflatStored hnone
  obtain ⟨_, _, _, _, hok⟩ := s.wf_iff.1 hs
  have hpart : ∀ (k : Nat) (w : Width), k + w.bytes ≤ 4 → k % w.bytes = 0 →
      t'.valueAt (a + BitVec.ofNat 32 k) w = slotField v k w := fun k w =>
    State.valueAt_part_of_word (by rw [hunits]; exact hok) (by rw [State.unitAt, hunits]; exact hnone)
      (align_mod _ .word) hbytes
  have hzero : a + BitVec.ofNat 32 0 = a := BitVec.add_zero a
  refine ⟨?_, ?_, hpart 2 .half (by decide) (by decide), fun k hk => ?_⟩
  · rw [← hzero, hpart 0 .word (by decide) (by decide)]
    exact BitVec.ushiftRight_zero v
  · rw [← hzero, hpart 0 .half (by decide) (by decide)]
    rfl
  · rw [hpart k .byte (by simp only [Width.bytes]; omega) (Nat.mod_one k), slotField, Nat.mod_eq_of_lt hk]

/-! ## Reading a generic unit back -/

theorem IoUnit.write_generic {u : IoUnit} {g : Generic} (hd : u.device = .generic g) (n off : Nat) (w : Width)
    (v : Word) : u.write n off w v = { u with device := .generic (g.write off w v) } := by
  simp only [IoUnit.write, hd]

/-- R149: a generic unit answers the word written there. -/
theorem Generic.read_write_word (g : Generic) (off : Nat) (v : Word) :
    leRead (g.write off .word v).byte off .word = v := by
  have hbytes : ∀ j, j < 4 → (g.write off .word v).byte (off + j) = byteOf v j := fun j hj => by
    rw [Generic.byte_write, if_pos (by simp only [Width.bytes]; omega), Nat.add_sub_cancel_left]
  exact (leRead_part_of_word hbytes (k := 0) (w := .word) (by decide)).trans (BitVec.ushiftRight_zero v)

/-- A word stored into a generic unit is what the bus reads there. -/
theorem stored.valueAt_generic {addr v : Word} {s t : State} (h : stored addr .word v s t) {u : IoUnit} {g : Generic}
    (hu : s.hitsUnit addr .word u) (hd : u.device = .generic g) : t.valueAt addr .word = v := by
  obtain ⟨_, hunit⟩ := h
  obtain ⟨_, hunits⟩ := hunit u hu
  have hwrite := IoUnit.write_generic hd s.draws (u.offset addr .word) .word v
  have hat : t.unitAt (align addr .word) = some (u.write s.draws (u.offset addr .word) .word v) := by
    have hmap := s.unitAt_mapUnit u.id (IoUnit.place_write s.draws (u.offset addr .word) .word v)
      (align addr .word)
    rw [show s.unitAt (align addr .word) = some u from hu, Option.map_some, if_pos rfl] at hmap
    rw [State.unitAt, hunits]
    exact hmap
  rw [State.valueAt, hat, hwrite]
  exact g.read_write_word (u.offset addr .word) v

/-- Settles O25: a generic unit starts no block, so the store is done at once, in the unit alone. -/
theorem genericUnitHoldsWhatIsStored : Obligations.GenericUnitHoldsWhatIsStored := by
  intro r addr s u g hu hd
  have hblock : u.startsBlock (u.offset (s.ea addr) .word) .word = false := by rw [IoUnit.startsBlock, hd]
  obtain ⟨t, ht, hstored, hrest⟩ := storeReg_writable (r := r) (State.writable_of_hitsUnit hu hblock)
  have ⟨_, hunit⟩ := hstored
  obtain ⟨hmem, _⟩ := hunit u hu
  exact ⟨t, ht, hstored.valueAt_generic hu hd, hmem, hrest⟩

end Sys2Proof.Machine

/-! What the instructions that make no write access leave of memory and the units (20_memory R49, R51). -/

namespace Sys2Proof.Machine

namespace sameStore

theorem refl (s : State) : sameStore s s := ⟨fun _ => rfl, rfl⟩

variable {s t t' : State}

theorem trans (h : sameStore s t) (h' : sameStore t t') : sameStore s t' :=
  ⟨fun a => (h'.1 a).trans (h.1 a), h'.2.trans h.2⟩

/-- An update of neither memory nor the units keeps the store. -/
theorem congr (h : sameStore s t) (hmem : t'.mem = t.mem) (hunits : t'.units = t.units) : sameStore s t' :=
  h.trans ⟨fun a => by rw [State.byteAt, State.byteAt, hmem], hunits⟩

/-- An instruction that answers such an update of its state keeps the store. -/
theorem of_next (h : .next t' = (.next t : Res State)) (hmem : t'.mem = s.mem) (hunits : t'.units = s.units) :
    sameStore s t := by
  injection h with h
  exact h ▸ (refl s).congr hmem hunits

/-- A read moves on the index of free values at most. -/
theorem busRead {addr : Word} {w : Width} {v : Word} (h : busRead s addr w = .next (v, t)) : sameStore s t := by
  rcases busRead_cases h with ⟨_, _, _, rfl⟩ | ⟨_, _, rfl⟩
  · exact (refl s).congr rfl rfl
  · exact refl _

theorem writePC {a : Word} (h : writePC s a = .next t) : sameStore s t :=
  (writePC_cases h).1 ▸ (refl s).congr rfl rfl

theorem popPC (h : popPC s = .next t) : sameStore s t := by
  obtain ⟨⟨v, s1⟩, hread, hpc⟩ := Res.andThen_eq_next.1 h
  exact ((busRead hread).congr s1.incSp_mem s1.incSp_units).trans (writePC hpc)

theorem loadReg {w : Width} {r : Reg} {a : Addr} (h : loadReg w r a s = .next t) : sameStore s t := by
  obtain ⟨⟨v, s1⟩, hread, h⟩ := Res.andThen_eq_next.1 h
  exact (busRead hread).trans (of_next h rfl rfl)

/-- A control instruction keeps the store where it keeps it when taken. -/
theorem whenCond {cond : Cond} {r : Res State} (hr : r = .next t → sameStore s t)
    (h : whenCond cond s r = .next t) : sameStore s t := by
  unfold Machine.whenCond at h
  split at h
  · exact hr h
  · exact of_next h rfl rfl

end sameStore

/-- Settles O48, by the ending of each instruction's rule: a read keeps the store, and so do the updates after it. -/
theorem onlyStoringInstructionsWrite : Obligations.OnlyStoringInstructionsWrite := by
  intro i s t h hstores
  cases i with
  | push | call | storeb | storeh | store => exact nomatch hstores
  | moveRegReg | moveImmReg | moveSrReg =>
    exact sameStore.of_next h (State.finishMove_mem ..) (State.finishMove_units ..)
  | moveRegSr | moveSrSr | or | and | xor | add | adc | sub | sbc | rotl | rotr | shl | shr | ashr | cmp =>
    exact sameStore.of_next h rfl rfl
  | pop =>
    obtain ⟨⟨v, s1⟩, hread, h⟩ := Res.andThen_eq_next.1 h
    exact (sameStore.busRead hread).trans (sameStore.of_next h rfl rfl)
  | loadb | loadh | load => exact sameStore.loadReg h
  | jp | jr => exact sameStore.whenCond sameStore.writePC h
  | ret => exact sameStore.whenCond sameStore.popPC h
  | reti | retn =>
    refine sameStore.whenCond (fun h => ?_) h
    obtain ⟨s1, hpop, h⟩ := Res.andThen_eq_next.1 h
    exact (sameStore.popPC hpop).trans (sameStore.of_next h rfl rfl)
  | halt =>
    refine sameStore.whenCond (fun h => ?_) h
    exact sameStore.of_next h rfl rfl

end Sys2Proof.Machine

/-! What a registration adds, and when it is refused (20_memory R39, 60_exceptions R129, R142,
70_reset_and_hazards R162). -/

namespace Sys2Proof.Machine

/-! ## The places of a registration's units -/

/-- The free values of a new device decide nothing of its place. -/
theorem UnitSpec.place_unit (n : Nat) (v : UnitSpec) : (v.unit n).place = (v.unit 0).place := by
  obtain ⟨_, _, _, kind⟩ := v
  cases kind <;> rfl

theorem place_specUnits (n : Nat) (specs : List UnitSpec) :
    (specUnits n specs).map IoUnit.place = specs.map fun v => (v.unit 0).place := by
  induction specs generalizing n with
  | nil => rfl
  | cons v specs ih => simp only [specUnits, List.map_cons, v.place_unit n, ih]

/-- Whether a registration makes a legal configuration does not hang on the free values. -/
theorem unitsOk_append_specUnits (us : List IoUnit) (n : Nat) (specs : List UnitSpec) :
    unitsOk (us ++ specUnits n specs) = unitsOk (us ++ specs.map (UnitSpec.unit 0)) := by
  refine unitsOk_congr ?_
  rw [List.map_append, List.map_append, place_specUnits, List.map_map]
  rfl

/-! ## The two answers of a registration -/

/-- The state after a registration that is legal. -/
def State.attached (specs : List UnitSpec) (s : State) : State :=
  { s with units := s.units ++ specUnits s.draws specs, draws := s.draws + Config.drawStride * specs.length }

theorem hostAttach_eq (specs : List UnitSpec) (s : State) :
    hostAttach specs s =
      if (specs.all fun v => v.kind.spanOk) && unitsOk (s.units ++ specs.map (UnitSpec.unit 0)) then
        .ok (s.attached specs)
      else .error .configuration := by
  rw [← unitsOk_append_specUnits s.units s.draws specs]
  rfl

/-- R129: a registration that breaks R39 is a configuration error. -/
theorem hostAttach_illegal {specs : List UnitSpec} {s : State}
    (h : unitsOk (s.units ++ specs.map (UnitSpec.unit 0)) = false) :
    hostAttach specs s = .error .configuration := by
  rw [hostAttach_eq, h, Bool.and_false]
  rfl

theorem hostAttach_eq_ok {specs : List UnitSpec} {s t : State} (h : hostAttach specs s = .ok t) :
    unitsOk (s.units ++ specs.map (UnitSpec.unit 0)) = true ∧ t = s.attached specs := by
  rw [hostAttach_eq] at h
  split at h
  · rename_i hok
    injection h with h
    exact ⟨(Bool.and_eq_true_iff.1 hok).2, h.symm⟩
  · exact nomatch h

/-! ## Shared bytes -/

/-- R39 (a). -/
theorem unitsOk_disjoint {us : List IoUnit} (h : unitsOk us = true) : us.Pairwise fun u v => u.disjoint v = true := by
  simp only [unitsOk, Bool.and_eq_true, decide_eq_true_eq] at h
  obtain ⟨⟨⟨hdisjoint, _⟩, _⟩, _⟩ := h
  exact hdisjoint

/-- Two units of a list, one before the other, that share a byte make no legal configuration. -/
theorem unitsOk_false_of_shared_byte {us : List IoUnit} {u v : IoUnit} {b : Nat} (hsub : [u, v].Sublist us)
    (hu : u.start.toNat ≤ b ∧ b < u.stop) (hv : v.start.toNat ≤ b ∧ b < v.stop) : unitsOk us = false := by
  refine Bool.eq_false_iff.2 fun hok => ?_
  have hdisjoint := List.pairwise_pair.1 ((unitsOk_disjoint hok).sublist hsub)
  simp only [IoUnit.disjoint, Bool.or_eq_true, decide_eq_true_eq] at hdisjoint
  omega

/-- Settles O57: the check of R39 is about places, which the free values leave alone, and a shared byte breaks it. -/
theorem attachChecksTheConfiguration : Obligations.AttachChecksTheConfiguration := by
  refine ⟨fun specs s hspan hok => ⟨s.attached specs, ?_⟩, fun specs s h => ?_, fun specs s t h => ?_,
    fun specs s u v b hu hv hu1 hu2 hv1 hv2 => ?_, fun s u v l1 l2 l3 b hu1 hu2 hv1 hv2 => ?_⟩
  · rw [hostAttach_eq, hspan, hok]
    rfl
  · rcases h with hspan | hok
    · rw [hostAttach_eq, hspan, Bool.false_and]
      rfl
    · exact hostAttach_illegal hok
  · obtain ⟨hok, rfl⟩ := hostAttach_eq_ok h
    exact ⟨(unitsOk_append_specUnits _ _ _).trans hok, specUnits s.draws specs, rfl, place_specUnits _ _⟩
  · have hsub : [u, v.unit 0].Sublist (s.units ++ specs.map (UnitSpec.unit 0)) :=
      (List.singleton_sublist.2 hu).append (List.singleton_sublist.2 (List.mem_map_of_mem hv))
    exact hostAttach_illegal (unitsOk_false_of_shared_byte hsub ⟨hu1, hu2⟩ ⟨hv1, hv2⟩)
  · have hsub : [u, v].Sublist (l1 ++ u :: (l2 ++ v :: l3)) :=
      List.sublist_append_of_sublist_right
        ((List.singleton_sublist.2 (List.mem_append_right l2 List.mem_cons_self)).cons_cons u)
    exact hostAttach_illegal (unitsOk_false_of_shared_byte
      (List.sublist_append_of_sublist_right (hsub.map (UnitSpec.unit 0))) ⟨hu1, hu2⟩ ⟨hv1, hv2⟩)

end Sys2Proof.Machine

/-! An access that reaches nothing stops the machine (20_memory R46, 60_exceptions R125, R135, R148). -/

namespace Sys2Proof.Machine

/-! ## The stop -/

/-- The machine stops on an unmapped access to `addr`, made with pc at `pc`. -/
def Res.StopsUnmapped {α : Type} (r : Res α) (addr : Word) (w : Width) (kind : AccessKind) (pc : Word) : Prop :=
  ∃ left, r = .fault (.stopped (.unmappedAccess (align addr w) w kind pc) left)

/-- Nothing runs after a stop. -/
theorem Res.StopsUnmapped.andThen {α β : Type} {r : Res α} {addr : Word} {w : Width} {kind : AccessKind} {pc : Word}
    (h : r.StopsUnmapped addr w kind pc) (f : α → Res β) : (r.andThen f).StopsUnmapped addr w kind pc := by
  obtain ⟨left, rfl⟩ := h
  exact ⟨left, rfl⟩

theorem Res.andThen_assoc {α β γ : Type} (r : Res α) (f : α → Res β) (g : β → Res γ) :
    (r.andThen f).andThen g = r.andThen fun a => (f a).andThen g := by
  cases r <;> rfl

/-! ## The shared operations -/

section
variable {s : State} {addr : Word} {w : Width}

theorem busRead_stopsUnmapped (h : s.unmappedAt addr w = true) :
    (busRead s addr w).StopsUnmapped addr w .read s.pc := ⟨_, busRead_unmapped h⟩

theorem busWriteWith_stopsUnmapped {k : Nat → State → Res State} {v : Word} (h : s.unmappedAt addr w = true) :
    (busWriteWith k s addr w v).StopsUnmapped addr w .write s.pc := ⟨_, busWriteWith_unmapped h⟩

theorem loadReg_stopsUnmapped {r : Reg} {a : Addr} (h : s.unmappedAt (s.ea a) w = true) :
    (loadReg w r a s).StopsUnmapped (s.ea a) w .read s.pc := (busRead_stopsUnmapped h).andThen _

theorem storeReg_stopsUnmapped {r : Reg} {a : Addr} (h : s.unmappedAt (s.ea a) w = true) :
    (storeReg w r a s).StopsUnmapped (s.ea a) w .write s.pc := (busWriteWith_stopsUnmapped h).andThen _

/-- R106: a push writes at the decremented r7. -/
theorem pushWord_stopsUnmapped {v : Word} (h : s.unmappedAt (s.reg Reg.sp - 4) .word = true) :
    (pushWord s v).StopsUnmapped (s.reg Reg.sp - 4) .word .write s.pc := by
  rw [pushWord, State.reg_decSp_sp]
  exact busWriteWith_stopsUnmapped (s := s.decSp) h

theorem popPC_stopsUnmapped (h : s.unmappedAt (s.reg Reg.sp) .word = true) :
    (popPC s).StopsUnmapped (s.reg Reg.sp) .word .read s.pc := (busRead_stopsUnmapped h).andThen _

end

/-! ## Control instructions -/

theorem whenCond_taken {cond : Cond} {s : State} (h : condHolds s.sr cond = true) (r : Res State) :
    whenCond cond s r = r := if_pos h

theorem execCall_stopsUnmapped {cond : Cond} {target : Src2} {s : State} (hc : condHolds s.sr cond = true)
    (h : s.unmappedAt (s.reg Reg.sp - 4) .word = true) :
    (execCall cond target s).StopsUnmapped (s.reg Reg.sp - 4) .word .write s.pc := by
  rw [execCall, whenCond_taken hc]
  exact (pushWord_stopsUnmapped h).andThen _

theorem execReturn_stopsUnmapped {cond : Cond} {s : State} (hc : condHolds s.sr cond = true)
    (h : s.unmappedAt (s.reg Reg.sp) .word = true) {i : Instr}
    (hi : i = .ret cond ∨ i = .reti cond ∨ i = .retn cond) :
    Res.StopsUnmapped (exec i s) (s.reg Reg.sp) .word .read s.pc := by
  have hpop := popPC_stopsUnmapped h
  rcases hi with rfl | rfl | rfl
  · rw [exec, execRet, whenCond_taken hc]
    exact hpop
  · rw [exec, execReti, whenCond_taken hc]
    exact hpop.andThen _
  · rw [exec, execRetn, whenCond_taken hc]
    exact hpop.andThen _

/-! ## The fetch -/

theorem step_running {s : State} (hrun : s.run = .running) (hsched : s.schedule = []) : step s = cycle s := by
  rw [step, hrun, interval, hsched]
  rfl

/-! ## The maskable entry -/

/-- Where units keep their places, an access reaches nothing as before (R39, R44). -/
theorem sameConfiguration.unmappedAt {s t : State} (h : sameConfiguration s t) {addr : Word} {w : Width}
    (hs : s.unmappedAt addr w = true) : t.unmappedAt addr w = true := by
  obtain ⟨hcfg, hplaces⟩ := h
  obtain ⟨hnone, hsize⟩ := (s.unmappedAt_iff addr w).1 hs
  refine (t.unmappedAt_iff addr w).2 ⟨(t.unitAt_eq_none_iff _).2 fun u hu => ?_, by rw [hcfg]; exact hsize⟩
  have hmem : u.place ∈ s.units.map IoUnit.place := hplaces ▸ List.mem_map_of_mem hu
  obtain ⟨v, hv, hplace⟩ := List.mem_map.1 hmem
  rw [← IoUnit.covers_congr hplace]
  exact (s.unitAt_eq_none_iff _).1 hnone v hv

/-- R132: with no non-maskable request, an enabled and pending level is accepted. -/
theorem poll_takes_maskableEntry {s : State} (hiif : s.iif = true) (hnmi : s.nmiUnit = none)
    (hgie : s.flag .gie = true) (hacc : s.acceptable = true) : poll s = maskableEntry s.recomputePending := by
  have hgie' : s.recomputePending.flag .gie = true :=
    (s.recomputePending_sameSr SrBit.gie.pos (by decide)).trans hgie
  have hnmi' : s.recomputePending.nmiUnit = none := hnmi
  simp only [poll, State.recomputePending_iif, hiif, if_true, hnmi', hgie', s.recomputePending_pendingEnabled, hacc,
    Bool.and_self]

/-- R135, D29: the vector read comes after the push, which moves no unit and leaves pc. -/
theorem maskableEntry_vector_stopsUnmapped {s : State} {a : Word} (hvec : s.cfg.intVector = .indirect a)
    (hw : s.writable (s.reg Reg.sp - 4) .word = true) (h : s.unmappedAt a .word = true) :
    (maskableEntry s).StopsUnmapped a .word .read s.pc := by
  have hw' : (s.setFlag .gie false).decSp.writable (s.reg Reg.sp - 4) .word = true := hw
  obtain ⟨t, hwrite, _, _, hpc, _, _⟩ := busWrite_writable (v := s.pc) hw'
  have hpush : pushWord (s.setFlag .gie false) s.pc = .next t := by
    rw [pushWord, State.reg_decSp_sp, State.reg_setFlag]
    exact hwrite
  have hconf : sameConfiguration s t :=
    (sameConfiguration_busInv s).write (s := (s.setFlag .gie false).decSp) ⟨rfl, rfl⟩ hwrite
  have hvec' : t.cfg.intVector = .indirect a := (congrArg Params.intVector hconf.1).trans hvec
  have hread := (busRead_stopsUnmapped (hconf.unmappedAt h)).andThen fun p => writePC p.2 p.1
  rw [show t.pc = s.pc from hpc] at hread
  simp only [maskableEntry, State.setFlag_pc, hpush, Res.andThen_next, vectorPC, hvec']
  exact hread

/-! ## A DMA transfer -/

/-- The source is read first (R148). -/
theorem dmaTransferWith_source_stopsUnmapped {k : Nat → State → Res State} {id : Nat} {d : Dma} {s : State}
    (h : s.unmappedAt d.source .word = true) :
    (dmaTransferWith k id d s).StopsUnmapped d.source .word .read s.pc := (busRead_stopsUnmapped h).andThen _

theorem dmaTransferWith_destination_stopsUnmapped {k : Nat → State → Res State} {id : Nat} {d : Dma} {s : State}
    (hsrc : s.readable d.source .word = true) (h : s.unmappedAt d.destination .word = true) :
    (dmaTransferWith k id d s).StopsUnmapped d.destination .word .write s.pc := by
  obtain ⟨t, hread, ht⟩ := busRead_readable hsrc
  rw [dmaTransferWith, hread, Res.andThen_next]
  rcases ht with rfl | rfl
  · exact (busWriteWith_stopsUnmapped h).andThen _
  · exact (busWriteWith_stopsUnmapped (s := s.drawn) h).andThen _

/-- `run` begins with a transfer of unit `id`, whose controller is `d`, from `s`. -/
def BeginsWithTransfer (id : Nat) (d : Dma) (s : State) (run : Res State) : Prop :=
  ∃ (k : Nat → State → Res State) (f : State → Res State), run = (dmaTransferWith k id d s).andThen f

theorem BeginsWithTransfer.stopsUnmapped {id : Nat} {d : Dma} {s : State} {run : Res State}
    (hrun : BeginsWithTransfer id d s run) :
    (s.unmappedAt d.source .word = true → run.StopsUnmapped d.source .word .read s.pc) ∧
    (s.readable d.source .word = true → s.unmappedAt d.destination .word = true →
      run.StopsUnmapped d.destination .word .write s.pc) := by
  obtain ⟨k, f, rfl⟩ := hrun
  exact ⟨fun h => (dmaTransferWith_source_stopsUnmapped h).andThen f,
    fun hsrc h => (dmaTransferWith_destination_stopsUnmapped hsrc h).andThen f⟩

section
variable {s : State} {u : IoUnit} {d : Dma} (hu : u ∈ s.units) (hd : u.device = .dma d)
  (hids : (s.units.map IoUnit.id).Nodup) (hcount : d.counter ≠ 0#32)
include hu hd hids hcount

/-- R148: a tick of a started cycle-stealing controller with words left transfers one. -/
theorem tickUnit_beginsWithTransfer (hstarted : d.started = true) (hmode : d.halting = false) :
    BeginsWithTransfer u.id d s (tickUnit u.id s) := by
  refine ⟨dmaBlock Config.dmaFuel, fun t => .next (t.mapUnit u.id IoUnit.finishSteal), ?_⟩
  simp only [tickUnit, State.dmaOf_mem hids hu hd, hstarted, hmode, Bool.not_false, Bool.and_self, if_true,
    if_neg hcount]

/-- R148: a block with words left transfers one. -/
theorem dmaBlock_beginsWithTransfer (n : Nat) (f : State → Res State) :
    BeginsWithTransfer u.id d s ((dmaBlock (n + 1) u.id s).andThen f) := by
  refine ⟨dmaBlock n, fun t => (dmaBlock n u.id t).andThen f, ?_⟩
  simp only [dmaBlock, State.dmaOf_mem hids hu hd, if_neg hcount, Res.andThen_assoc]

end

/-! ## The start of a halting block -/

theorem State.mapUnit_eq_self {s : State} {id : Nat} {f : IoUnit → IoUnit}
    (h : ∀ u ∈ s.units, u.id = id → f u = u) : s.mapUnit id f = s := by
  have hunits : (s.units.map fun u => if u.id = id then f u else u) = s.units := by
    refine (List.map_congr_left fun u hu => ?_).trans (List.map_id s.units)
    split
    · exact h u hu ‹_›
    · rfl
  rw [State.mapUnit, hunits]

/-- Starting a halting controller changes no register of its own: what it sets off is the block (R148,
notes/assumptions/13.md). -/
theorem Dma.write_start_of_halting {d : Dma} (hmode : d.halting = true) (n : Nat) (signal : Bool) (v : Word) :
    d.write n signal 4 .word v = (d, signal) := by
  have hstarted : (d.started || !d.halting) = d.started := by rw [hmode, Bool.not_true, Bool.or_false]
  simp only [Dma.write, hstarted]

theorem IoUnit.write_start_of_halting {u : IoUnit} {d : Dma} (hd : u.device = .dma d) (hmode : d.halting = true)
    {off : Nat} (hslot : off / 4 = 4) (n : Nat) (v : Word) : u.write n off .word v = u := by
  obtain ⟨id, start, level, signal, device⟩ := u
  cases hd
  simp only [IoUnit.write, hslot, Dma.write_start_of_halting hmode]

section
variable {s : State} {addr : Word} {u : IoUnit} {d : Dma} (hu : u ∈ s.units) (hd : u.device = .dma d)
  (hids : (s.units.map IoUnit.id).Nodup) (hmode : d.halting = true) (hslot : u.offset addr .word / 4 = 4)
include hu hd hids hmode hslot

theorem State.putUnit_start_of_halting (v : Word) : s.putUnit u addr .word v = s.drawn := by
  rw [State.putUnit, State.mapUnit_eq_self fun x hx hid => ?_]
  obtain rfl : x = u := List.inj_on_of_nodup_map hids hx hu hid
  exact IoUnit.write_start_of_halting hd hmode hslot s.draws v

/-- A word written to the start slot of a halting controller runs its block (R148, D31). -/
theorem busWrite_start_of_halting (hhit : s.hitsUnit addr .word u) (v : Word) :
    busWrite s addr .word v = dmaBlock Config.dmaFuel u.id s.drawn := by
  have hblock : u.startsBlock (u.offset addr .word) .word = true := by
    simp only [IoUnit.startsBlock, hd, hmode, hslot, beq_self_eq_true, Bool.and_self]
  rw [busWrite, busWriteWith_unit hhit, if_pos hblock, State.putUnit_start_of_halting hu hd hids hmode hslot]

/-- A STORE that starts a halting block with words left begins with a transfer (R148). -/
theorem execStore_beginsWithTransfer {r : Reg} {a : Addr} (ha : s.ea a = addr) (hcount : d.counter ≠ 0#32)
    (hhit : s.hitsUnit addr .word u) : BeginsWithTransfer u.id d s.drawn (exec (.store r a) s) := by
  obtain ⟨n, hfuel⟩ : ∃ n, Config.dmaFuel = n + 1 := ⟨Config.dmaFuel - 1, rfl⟩
  rw [exec, execStore, storeReg, ha, busWrite_start_of_halting hu hd hids hmode hslot hhit, hfuel]
  exact dmaBlock_beginsWithTransfer (s := s.drawn) hu hd hids hcount n _

end

/-! ## The statement -/

/-- Settles O26: each run begins with the unmapped access, but for the vector read, which follows a push that goes
through, and a DMA's destination write, which follows its source read. -/
theorem unmappedAccessStopsTheMachine : Obligations.UnmappedAccessStopsTheMachine := by
  refine ⟨fun r addr cond target s => ⟨loadReg_stopsUnmapped, loadReg_stopsUnmapped, loadReg_stopsUnmapped,
      storeReg_stopsUnmapped, storeReg_stopsUnmapped, storeReg_stopsUnmapped,
      fun h => (busRead_stopsUnmapped h).andThen _, fun h => (pushWord_stopsUnmapped h).andThen _,
      fun hc => ⟨execCall_stopsUnmapped hc, fun h _ => execReturn_stopsUnmapped hc h⟩⟩,
    fun s hrun hsched h => ?_, fun s a hiif hnmi hgie hacc hvec hw h => ?_,
    fun r addr s u d hu hd hids hcount run hrun => ?_⟩
  · rw [step_running hrun hsched]
    exact (busRead_stopsUnmapped h).andThen _
  · rw [poll_takes_maskableEntry hiif hnmi hgie hacc]
    exact maskableEntry_vector_stopsUnmapped (s := s.recomputePending) hvec hw h
  · rcases hrun with ⟨hstarted, hmode, rfl⟩ | ⟨hmode, hhit, hslot, rfl⟩
    · exact (tickUnit_beginsWithTransfer hu hd hids hcount hstarted hmode).stopsUnmapped
    · exact (execStore_beginsWithTransfer hu hd hids hmode hslot rfl hcount hhit).stopsUnmapped

end Sys2Proof.Machine

/-! What the decoder reads off a word (30_encoding R60 to R74). -/

namespace Sys2Proof

/-! ## Conditions (R71) -/

theorem condOf_code (cond : Cond) : condOf cond.code = some cond := by cases cond <;> rfl

/-- R71: 1111 names no condition, every other code the condition it is the code of. -/
theorem map_code_condOf :
    ∀ code : BitVec 4, (condOf code).map Cond.code = if code = 15#4 then none else some code := by
  decide

theorem condOf_eq_none_iff (code : BitVec 4) : condOf code = none ↔ code = 15#4 := by
  rw [← Option.map_eq_none_iff (f := Cond.code), map_code_condOf]
  simp

theorem code_of_condOf {code : BitVec 4} {cond : Cond} (h : condOf code = some cond) : cond.code = code := by
  have hmap := map_code_condOf code
  rw [h, Option.map_some] at hmap
  split at hmap
  · cases hmap
  · exact Option.some.inj hmap

/-! ## Immediates (R70) -/

/-- R70: the range of an immediate is what its 20-bit field gives back by sign extension. -/
theorem fitsImm20_iff (v : Word) : fitsImm20 v = true ↔ (immBits v).signExtend 32 = v := by
  have hv := v.isLt
  have hlow : (immBits v).toNat = v.toNat % 2 ^ 20 := by simp [immBits]
  rw [← BitVec.toNat_inj, BitVec.toNat_signExtend, BitVec.toNat_setWidth, hlow, BitVec.msb_eq_decide, hlow]
  simp only [fitsImm20, Bool.or_eq_true, decide_eq_true_eq]
  split <;> omega

/-- The 20-bit field of a sign-extended 20-bit value is that value. -/
theorem immBits_signExtend (x : BitVec 20) : immBits (x.signExtend 32) = x := by
  ext k hk
  rw [immBits, BitVec.getElem_extractLsb', Nat.zero_add, BitVec.getLsbD_signExtend, if_pos hk]
  simp [BitVec.getLsbD_eq_getElem, hk, Nat.lt_trans hk (by decide : 20 < 32)]

theorem fitsImm20_immField (w : Word) : fitsImm20 (immField w) = true :=
  (fitsImm20_iff _).2 (congrArg (BitVec.signExtend 32) (immBits_signExtend (immBits w)))

theorem src2Of_wellFormed (w : Word) : (src2Of w).wellFormed = true := by
  unfold src2Of
  split
  · exact fitsImm20_immField w
  · rfl

theorem addrOf_wellFormed (w : Word) : (addrOf w).wellFormed = true := by
  unfold addrOf
  split <;> exact fitsImm20_immField w

/-! ## The decoder (R72) -/

/-- The operands of an instruction are the ones its format reads off the word `w` (R61 to R68, R72, R78). -/
def Instr.ReadsFrom (w : Word) : Instr → Prop
  | .moveRegReg rd rs =>
    w.getLsbD 21 = false ∧ w.getLsbD 20 = false ∧ fnBit w = false ∧ destField w = rd ∧ src2Field w = rs
  | .moveImmReg rd imm =>
    w.getLsbD 21 = false ∧ w.getLsbD 20 = false ∧ fnBit w = true ∧ destField w = rd ∧ immField w = imm
  | .moveSrReg rd => w.getLsbD 21 = false ∧ w.getLsbD 20 = true ∧ destField w = rd
  | .moveRegSr rs => w.getLsbD 21 = true ∧ w.getLsbD 20 = false ∧ src2Field w = rs
  | .moveSrSr => w.getLsbD 21 = true ∧ w.getLsbD 20 = true
  | .or rd a b | .and rd a b | .xor rd a b | .add rd a b | .adc rd a b | .sub rd a b | .sbc rd a b | .rotl rd a b
  | .rotr rd a b | .shl rd a b | .shr rd a b | .ashr rd a b => destField w = rd ∧ src1Field w = a ∧ src2Of w = b
  | .cmp a b => src1Field w = a ∧ src2Of w = b
  | .pop r | .push r => destField w = r
  | .loadb r a | .storeb r a | .loadh r a | .storeh r a | .load r a | .store r a => destField w = r ∧ addrOf w = a
  | .jp cond t | .call cond t => condOf (condField w) = some cond ∧ src2Of w = t
  | .jr cond off => condOf (condField w) = some cond ∧ immField w = off
  | .ret cond => condOf (condField w) = some cond ∧ typeField w ≠ 1#2 ∧ typeField w ≠ 3#2
  | .reti cond => condOf (condField w) = some cond ∧ typeField w = 1#2
  | .retn cond => condOf (condField w) = some cond ∧ typeField w = 3#2
  | .halt cond => condOf (condField w) = some cond

theorem withCond_eq_ok_iff {w : Word} {f : Cond → Instr} {i : Instr} :
    withCond w f = .ok i ↔ ∃ cond, condOf (condField w) = some cond ∧ f cond = i := by
  unfold withCond
  cases condOf (condField w) <;> simp

theorem withCond_eq_error_iff {w : Word} {f : Cond → Instr} {e : DecodeError} :
    withCond w f = .error e ↔ condField w = 15#4 ∧ .unknownOpcode w = e := by
  rw [← condOf_eq_none_iff]
  unfold withCond
  cases condOf (condField w) <;> simp

theorem decodeMove_readsFrom (w : Word) : (decodeMove w).opcode = 0#5 ∧ (decodeMove w).ReadsFrom w := by
  unfold decodeMove
  split <;> simp_all [Instr.ReadsFrom, Instr.opcode]

/-- R67, R72. -/
theorem decodeRet_eq (w : Word) (cond : Cond) :
    decodeRet w cond =
      if typeField w = 1#2 then .reti cond else if typeField w = 3#2 then .retn cond else .ret cond := by
  unfold decodeRet
  split <;> simp_all [BitVec.toNat_eq]

theorem decodeRet_readsFrom {w : Word} {cond : Cond} (hcond : condOf (condField w) = some cond) :
    (decodeRet w cond).opcode = 27#5 ∧ (decodeRet w cond).ReadsFrom w := by
  rw [decodeRet_eq]
  split
  case isTrue h1 => exact ⟨rfl, hcond, h1⟩
  case isFalse h1 =>
    split
    case isTrue h3 => exact ⟨rfl, hcond, h3⟩
    case isFalse h3 => exact ⟨rfl, hcond, h1, h3⟩

/-- R72: an instruction the decoder answers has the opcode of the word, and its operands in the word's fields. -/
theorem readsFrom_of_decode {w : Word} {i : Instr} (h : decode w = .ok i) :
    opField w = i.opcode ∧ i.ReadsFrom w := by
  unfold decode at h
  -- MOVE, the control instructions with RET apart, the reserved opcodes, then the arms without a choice.
  split at h
  case h_1 hop =>
    cases h
    obtain ⟨hopcode, hreads⟩ := decodeMove_readsFrom w
    exact ⟨(BitVec.eq_of_toNat_eq hop).trans hopcode.symm, hreads⟩
  case h_23 hop | h_24 hop | h_25 hop | h_27 hop =>
    obtain ⟨cond, hcond, rfl⟩ := withCond_eq_ok_iff.1 h
    exact ⟨BitVec.eq_of_toNat_eq hop, by simp only [Instr.ReadsFrom, hcond, and_self]⟩
  case h_26 hop =>
    obtain ⟨cond, hcond, rfl⟩ := withCond_eq_ok_iff.1 h
    obtain ⟨hopcode, hreads⟩ := decodeRet_readsFrom hcond
    exact ⟨(BitVec.eq_of_toNat_eq hop).trans hopcode.symm, hreads⟩
  case h_28 => cases h
  all_goals
    cases h
    exact ⟨BitVec.eq_of_toNat_eq ‹_›, by simp only [Instr.ReadsFrom, and_self]⟩

/-- R72, the converse: opcode and operands determine what the decoder answers. -/
theorem decode_of_readsFrom {w : Word} {i : Instr} (hop : opField w = i.opcode) (h : i.ReadsFrom w) :
    decode w = .ok i := by
  cases i with
  | moveRegReg | moveImmReg | moveSrReg | moveRegSr | moveSrSr =>
    simp_all [Instr.ReadsFrom, Instr.opcode, decode, decodeMove]
  | jp | call | jr | ret | reti | retn | halt =>
    simp_all [Instr.ReadsFrom, Instr.opcode, decode, withCond_eq_ok_iff, decodeRet_eq]
  | _ => simp_all [Instr.ReadsFrom, Instr.opcode, decode]

/-- R74: the five unassigned opcodes, and 1111 in the condition field of a control instruction. -/
theorem reservedWord_iff (w : Word) :
    Machine.reservedWord w = true ↔
      (opField w).toNat ∈ [14, 15, 28, 29, 30] ∨
        (opField w).toNat ∈ [24, 25, 26, 27, 31] ∧ condField w = 15#4 := by
  simp [Machine.reservedWord, BitVec.toNat_eq]

/-- R74: the decoder has one error, on exactly the reserved words. -/
theorem decode_eq_error_iff (w : Word) (e : DecodeError) :
    decode w = .error e ↔ Machine.reservedWord w = true ∧ .unknownOpcode w = e := by
  rw [reservedWord_iff]
  unfold decode
  -- The control instructions, the reserved opcodes, then the opcodes that always decode.
  split
  case h_23 hop | h_24 hop | h_25 hop | h_26 hop | h_27 hop => simp [withCond_eq_error_iff, hop]
  case h_28 =>
    have hop : (opField w).toNat ∈ [14, 15, 28, 29, 30] := by
      have hlt := (opField w).isLt
      simp only [imp_false] at *
      simp only [List.mem_cons, List.not_mem_nil]
      omega
    simp only [hop, true_or, true_and, Except.error.injEq]
  all_goals simp [*]

theorem wellFormed_of_readsFrom {w : Word} {i : Instr} (h : i.ReadsFrom w) : i.wellFormed = true := by
  cases i with
  | moveImmReg rd imm =>
    obtain ⟨_, _, _, _, rfl⟩ := h
    exact fitsImm20_immField w
  | or rd a b | and rd a b | xor rd a b | add rd a b | adc rd a b | sub rd a b | sbc rd a b | rotl rd a b
  | rotr rd a b | shl rd a b | shr rd a b | ashr rd a b =>
    obtain ⟨_, _, rfl⟩ := h
    exact src2Of_wellFormed w
  | cmp _ b | jp _ b | call _ b =>
    obtain ⟨_, rfl⟩ := h
    exact src2Of_wellFormed w
  | loadb r a | storeb r a | loadh r a | storeh r a | load r a | store r a =>
    obtain ⟨_, rfl⟩ := h
    exact addrOf_wellFormed w
  | jr cond off =>
    obtain ⟨_, rfl⟩ := h
    exact fitsImm20_immField w
  | _ => rfl

/-! ## The statements -/

/-- Settles O2: every immediate the decoder reads is `immField` of the word. -/
theorem decodedInstructionIsWellFormed : Obligations.DecodedInstructionIsWellFormed := fun _ _ h =>
  have ⟨_, hreads⟩ := readsFrom_of_decode h
  wellFormed_of_readsFrom hreads

/-- Settles O4: the error of the decoder says that the word is reserved. -/
theorem decodeRefusesExactlyReservedWords : Obligations.DecodeRefusesExactlyReservedWords := by
  intro w
  refine ⟨fun h => (decode_eq_error_iff w _).2 ⟨h, rfl⟩, fun h => ?_⟩
  cases hd : decode w with
  | ok i => exact ⟨i, rfl⟩
  | error e =>
    obtain ⟨hreserved, _⟩ := (decode_eq_error_iff w e).1 hd
    rw [h] at hreserved
    cases hreserved

/-- Settles O6: a code is the code of the one condition it names. -/
theorem conditionCodesTestTheFlags : Obligations.ConditionCodesTestTheFlags := by
  intro code cond sr h
  obtain rfl := code_of_condOf h
  cases cond <;> rfl

end Sys2Proof

/-! The fields of the encoder's words (30_encoding R61 to R68, R75). -/

namespace Sys2Proof

open BitVec (extractLsb'_append_eq_of_le extractLsb'_append_eq_of_add_le extractLsb'_append_eq_left
  extractLsb'_append_eq_right extractLsb'_append_extractLsb' extractLsb'_append_extractLsb'_eq_extractLsb')

/-! ## The two layouts -/

/-- The layout of the formats ALU, CMP, MV, MEM and STK: opcode, Fn, two register fields, 20 low bits (R61 to R65). -/
def regWord (op : BitVec 5) (fn : BitVec 1) (d a : BitVec 3) (low : BitVec 20) : Word := op ++ fn ++ d ++ a ++ low

/-- The layout of the formats JMP, RET and HLT: opcode, Fn, condition code, 22 low bits (R66 to R68). -/
def condWord (op : BitVec 5) (fn : BitVec 1) (code : BitVec 4) (low : BitVec 22) : Word := op ++ fn ++ code ++ low

theorem regWord_eq_append (op : BitVec 5) (fn : BitVec 1) (d a : BitVec 3) (low : BitVec 20) :
    regWord op fn d a low = op ++ fn ++ d ++ (a ++ low) := BitVec.append_assoc

theorem encAlu_eq_regWord (op : BitVec 5) (rd a : Reg) (b : Src2) :
    encAlu op rd a b = regWord op b.fn (regBits rd) (regBits a) b.bits := rfl

theorem encCmp_eq_encAlu (op : BitVec 5) (a : Reg) (b : Src2) : encCmp op a b = encAlu op 0 a b := rfl

theorem encMove_eq_regWord (fn : BitVec 1) (rd : Reg) (srd srs : BitVec 1) (low : BitVec 20) :
    encMove fn rd srd srs low = regWord 0#5 fn (regBits rd) (0#1 ++ srd ++ srs) low :=
  congrArg (fun high : BitVec 12 => high ++ low)
    ((congrArg (fun high : BitVec 11 => high ++ srs) BitVec.append_assoc).trans BitVec.append_assoc)

theorem encMem_abs (op : BitVec 5) (r : Reg) (off : Word) :
    encMem op r (.abs off) = regWord op 0#1 (regBits r) 0#3 (immBits off) := rfl

theorem encMem_base (op : BitVec 5) (r adr : Reg) (off : Word) :
    encMem op r (.base adr off) = regWord op 1#1 (regBits r) (regBits adr) (immBits off) := rfl

theorem encStk_eq_regWord (op : BitVec 5) (r : Reg) : encStk op r = regWord op 0#1 (regBits r) 0#3 0#20 :=
  (regWord_eq_append op 0#1 (regBits r) 0#3 0#20).symm

theorem encJmp_eq_condWord (op : BitVec 5) (cond : Cond) (fn : BitVec 1) (low : BitVec 20) :
    encJmp op cond fn low = condWord op fn cond.code (0#2 ++ low) := BitVec.append_assoc

theorem encRet_eq_condWord (cond : Cond) (type : BitVec 2) :
    encRet cond type = condWord 27#5 0#1 cond.code (0#20 ++ type) := BitVec.append_assoc

theorem encHalt_eq_condWord (cond : Cond) : encHalt cond = condWord 31#5 0#1 cond.code 0#22 := rfl

/-! ## Reading a field back -/

section
variable (op : BitVec 5) (fn : BitVec 1) (d a : BitVec 3) (low : BitVec 20) (code : BitVec 4) (low22 : BitVec 22)

@[simp] theorem fnBit_regWord : fnBit (regWord op fn d a low) = fn.getLsbD 0 := by
  simp only [fnBit, regWord, BitVec.getLsbD_append]
  simp

@[simp] theorem destField_regWord : destField (regWord op fn d a low) = d.toFin := by
  rw [destField, regWord, extractLsb'_append_eq_of_le (by decide), extractLsb'_append_eq_of_le (by decide)]
  exact congrArg BitVec.toFin extractLsb'_append_eq_right

@[simp] theorem src1Field_regWord : src1Field (regWord op fn d a low) = a.toFin := by
  rw [src1Field, regWord, extractLsb'_append_eq_of_le (by decide)]
  exact congrArg BitVec.toFin extractLsb'_append_eq_right

@[simp] theorem immBits_regWord : immBits (regWord op fn d a low) = low := extractLsb'_append_eq_right

@[simp] theorem fnBit_condWord : fnBit (condWord op fn code low22) = fn.getLsbD 0 := by
  simp only [fnBit, condWord, BitVec.getLsbD_append]
  simp

@[simp] theorem condField_condWord : condField (condWord op fn code low22) = code := by
  rw [condField, condWord, extractLsb'_append_eq_of_le (by decide)]
  exact extractLsb'_append_eq_right

end

/-! ## A word is made of its fields -/

theorem extractLsb'_one (w : Word) (k : Nat) : w.extractLsb' k 1 = BitVec.ofBool (w.getLsbD k) := by
  ext j hj
  obtain rfl : j = 0 := by omega
  simp

/-- A field is made of its upper `m` and its lower `n` bits. -/
theorem extractLsb'_split (w : Word) (start m n : Nat) :
    w.extractLsb' start (m + n) = w.extractLsb' (start + n) m ++ w.extractLsb' start n :=
  (extractLsb'_append_extractLsb'_eq_extractLsb' rfl).symm

theorem regWord_fields (w : Word) :
    regWord (opField w) (.ofBool (fnBit w)) (regBits (destField w)) (regBits (src1Field w)) (immBits w) = w := by
  rw [fnBit, ← extractLsb'_one]
  calc regWord (opField w) (w.extractLsb' 26 1) (w.extractLsb' 23 3) (w.extractLsb' 20 3) (immBits w)
    _ = w.extractLsb' 26 6 ++ w.extractLsb' 23 3 ++ w.extractLsb' 20 3 ++ w.extractLsb' 0 20 := by
      rw [extractLsb'_split w 26 5 1]; rfl
    _ = w.extractLsb' 23 9 ++ w.extractLsb' 20 3 ++ w.extractLsb' 0 20 := by rw [extractLsb'_split w 23 6 3]
    _ = w.extractLsb' 20 12 ++ w.extractLsb' 0 20 := by rw [extractLsb'_split w 20 9 3]
    _ = w := extractLsb'_append_extractLsb'

theorem condWord_fields (w : Word) :
    condWord (opField w) (.ofBool (fnBit w)) (condField w) (w.extractLsb' 0 22) = w := by
  rw [fnBit, ← extractLsb'_one]
  calc condWord (opField w) (w.extractLsb' 26 1) (w.extractLsb' 22 4) (w.extractLsb' 0 22)
    _ = w.extractLsb' 26 6 ++ w.extractLsb' 22 4 ++ w.extractLsb' 0 22 := by
      rw [extractLsb'_split w 26 5 1]; rfl
    _ = w.extractLsb' 22 10 ++ w.extractLsb' 0 22 := by rw [extractLsb'_split w 22 6 4]
    _ = w := extractLsb'_append_extractLsb'

/-- The SRC1 field of a MOVE word: an unused bit, SRD and SRS (R63). -/
theorem src1Bits_eq_append (w : Word) :
    regBits (src1Field w) =
      BitVec.ofBool (w.getLsbD 22) ++ BitVec.ofBool (w.getLsbD 21) ++ BitVec.ofBool (w.getLsbD 20) := by
  rw [← extractLsb'_one, ← extractLsb'_one, ← extractLsb'_one]
  exact (extractLsb'_split w 20 2 1).trans (congrArg (· ++ w.extractLsb' 20 1) (extractLsb'_split w 21 1 1))

theorem immBits_eq_append (w : Word) : immBits w = regBits (src2Field w) ++ w.extractLsb' 0 17 :=
  extractLsb'_split w 0 3 17

theorem low22_eq_append_immBits (w : Word) : w.extractLsb' 0 22 = w.extractLsb' 20 2 ++ immBits w :=
  extractLsb'_split w 0 2 20

theorem low22_eq_append_typeField (w : Word) : w.extractLsb' 0 22 = w.extractLsb' 2 20 ++ typeField w :=
  extractLsb'_split w 0 20 2

theorem low23_eq_append_immBits (w : Word) : w.extractLsb' 0 23 = regBits (src1Field w) ++ immBits w :=
  extractLsb'_split w 0 3 20

/-! ## Operands -/

theorem src2Field_of_immBits {w : Word} {r : Reg} {rest : BitVec 17} (h : immBits w = regBits r ++ rest) :
    src2Field w = r := by
  have hbits : regBits (src2Field w) = regBits r := by
    have hsrc2 := congrArg (BitVec.extractLsb' 17 3) ((immBits_eq_append w).symm.trans h)
    exact extractLsb'_append_eq_left.symm.trans (hsrc2.trans extractLsb'_append_eq_left)
  exact BitVec.ofFin.inj hbits

/-- An immediate in the range of R70 is read back from its 20 low bits. -/
theorem immField_of_immBits {w v : Word} (hv : fitsImm20 v = true) (h : immBits w = immBits v) : immField w = v :=
  (congrArg (BitVec.signExtend 32) h).trans ((fitsImm20_iff v).1 hv)

/-- A second operand is read back from its Fn bit and its 20 low bits (R61, R66). -/
theorem src2Of_eq {w : Word} {b : Src2} (hb : b.wellFormed = true) (hfn : fnBit w = b.fn.getLsbD 0)
    (hlow : immBits w = b.bits) : src2Of w = b := by
  cases b with
  | reg r => rw [src2Of, if_neg (by simp [hfn, Src2.fn]), src2Field_of_immBits hlow]
  | imm v => rw [src2Of, if_pos (by simp [hfn, Src2.fn]), immField_of_immBits hb hlow]

theorem src2Of_fn (w : Word) : (src2Of w).fn = .ofBool (fnBit w) := by
  cases h : fnBit w <;> simp [src2Of, h, Src2.fn]

theorem immBits_immField (w : Word) : immBits (immField w) = immBits w := immBits_signExtend (immBits w)

/-- The 20 low bits are those of the second operand when the ones a register leaves unused are 0. -/
theorem src2Of_bits {w : Word} (h : fnBit w = true ∨ w.extractLsb' 0 17 = 0#17) : (src2Of w).bits = immBits w := by
  cases hfn : fnBit w with
  | true => simp only [src2Of, hfn, if_true, Src2.bits, immBits_immField]
  | false =>
    have hrest : w.extractLsb' 0 17 = 0#17 := h.resolve_left (by simp [hfn])
    rw [immBits_eq_append, hrest, src2Of, hfn]
    rfl

/-! ## Decoding what was encoded -/

theorem encAlu_reads (op : BitVec 5) (rd a : Reg) {b : Src2} (hb : b.wellFormed = true) :
    destField (encAlu op rd a b) = rd ∧ src1Field (encAlu op rd a b) = a ∧ src2Of (encAlu op rd a b) = b := by
  rw [encAlu_eq_regWord]
  exact ⟨destField_regWord .., src1Field_regWord .., src2Of_eq hb (fnBit_regWord ..) (immBits_regWord ..)⟩

theorem encMove_reads (fn : BitVec 1) (rd : Reg) (srd srs : BitVec 1) (low : BitVec 20) :
    (encMove fn rd srd srs low).getLsbD 21 = srd.getLsbD 0 ∧
      (encMove fn rd srd srs low).getLsbD 20 = srs.getLsbD 0 ∧
      fnBit (encMove fn rd srd srs low) = fn.getLsbD 0 ∧ destField (encMove fn rd srd srs low) = rd ∧
      immBits (encMove fn rd srd srs low) = low := by
  refine ⟨?_, ?_, ?_⟩
  · simp only [encMove, BitVec.getLsbD_append]
    simp
  · simp only [encMove, BitVec.getLsbD_append]
    simp
  · rw [encMove_eq_regWord]
    exact ⟨fnBit_regWord .., destField_regWord .., immBits_regWord ..⟩

theorem encMem_reads (op : BitVec 5) (r : Reg) {a : Addr} (ha : a.wellFormed = true) :
    destField (encMem op r a) = r ∧ addrOf (encMem op r a) = a := by
  cases a with
  | abs off =>
    rw [encMem_abs, addrOf, if_neg (by simp)]
    exact ⟨destField_regWord .., congrArg Addr.abs (immField_of_immBits ha (immBits_regWord ..))⟩
  | base adr off =>
    rw [encMem_base, addrOf, if_pos (by simp), src1Field_regWord]
    exact ⟨destField_regWord .., congrArg (Addr.base adr) (immField_of_immBits ha (immBits_regWord ..))⟩

theorem destField_encStk (op : BitVec 5) (r : Reg) : destField (encStk op r) = r := by
  rw [encStk_eq_regWord]
  exact destField_regWord ..

theorem encJmp_reads (op : BitVec 5) (cond : Cond) (fn : BitVec 1) (low : BitVec 20) :
    condOf (condField (encJmp op cond fn low)) = some cond ∧ fnBit (encJmp op cond fn low) = fn.getLsbD 0 ∧
      immBits (encJmp op cond fn low) = low := by
  refine ⟨?_, ?_, extractLsb'_append_eq_right⟩
  · rw [encJmp_eq_condWord, condField_condWord, condOf_code]
  · rw [encJmp_eq_condWord, fnBit_condWord]

theorem encRet_reads (cond : Cond) (type : BitVec 2) :
    condOf (condField (encRet cond type)) = some cond ∧ typeField (encRet cond type) = type := by
  refine ⟨?_, extractLsb'_append_eq_right⟩
  rw [encRet_eq_condWord, condField_condWord, condOf_code]

theorem condOf_encHalt (cond : Cond) : condOf (condField (encHalt cond)) = some cond := by
  rw [encHalt_eq_condWord, condField_condWord, condOf_code]

theorem opField_encode (i : Instr) : opField (encode i) = i.opcode := by
  cases i with
  | moveRegReg | moveImmReg | moveSrReg | moveRegSr | moveSrSr => exact opField_encMove ..
  | or | and | xor | add | adc | sub | sbc | rotl | rotr | shl | shr | ashr => exact opField_encAlu ..
  | cmp => exact opField_encCmp ..
  | pop | push => exact opField_encStk ..
  | loadb | storeb | loadh | storeh | load | store => exact opField_encMem ..
  | jp | call | jr => exact opField_encJmp ..
  | ret | reti | retn => exact opField_encRet ..
  | halt => exact opField_encHalt ..

theorem readsFrom_encode {i : Instr} (h : i.wellFormed = true) : i.ReadsFrom (encode i) := by
  cases i with
  | moveRegReg rd rs =>
    obtain ⟨hsrd, hsrs, hfn, hrd, hlow⟩ := encMove_reads 0#1 rd 0#1 0#1 (regBits rs ++ 0#17)
    exact ⟨hsrd, hsrs, hfn, hrd, src2Field_of_immBits hlow⟩
  | moveImmReg rd imm =>
    obtain ⟨hsrd, hsrs, hfn, hrd, hlow⟩ := encMove_reads 1#1 rd 0#1 0#1 (immBits imm)
    exact ⟨hsrd, hsrs, hfn, hrd, immField_of_immBits h hlow⟩
  | moveSrReg rd =>
    obtain ⟨hsrd, hsrs, _, hrd, _⟩ := encMove_reads 0#1 rd 0#1 1#1 0#20
    exact ⟨hsrd, hsrs, hrd⟩
  | moveRegSr rs =>
    obtain ⟨hsrd, hsrs, _, _, hlow⟩ := encMove_reads 0#1 0 1#1 0#1 (regBits rs ++ 0#17)
    exact ⟨hsrd, hsrs, src2Field_of_immBits hlow⟩
  | moveSrSr =>
    obtain ⟨hsrd, hsrs, _⟩ := encMove_reads 0#1 0 1#1 1#1 0#20
    exact ⟨hsrd, hsrs⟩
  | or | and | xor | add | adc | sub | sbc | rotl | rotr | shl | shr | ashr => exact encAlu_reads _ _ _ h
  | cmp a b => exact (encAlu_reads 13#5 0 a h).2
  | pop | push => exact destField_encStk ..
  | loadb | storeb | loadh | storeh | load | store => exact encMem_reads _ _ h
  | jp cond t | call cond t =>
    obtain ⟨hcond, hfn, hlow⟩ := encJmp_reads _ cond t.fn t.bits
    exact ⟨hcond, src2Of_eq h hfn hlow⟩
  | jr cond off =>
    obtain ⟨hcond, _, hlow⟩ := encJmp_reads 26#5 cond 1#1 (immBits off)
    exact ⟨hcond, immField_of_immBits h hlow⟩
  | ret cond =>
    obtain ⟨hcond, htype⟩ := encRet_reads cond 0#2
    exact ⟨hcond, by simp [encode, htype], by simp [encode, htype]⟩
  | reti | retn => exact encRet_reads ..
  | halt cond => exact condOf_encHalt cond

/-- Settles O1: the canonical word has the opcode of the instruction and its operands in its fields. -/
theorem decodeOfEncodeIsIdentity : Obligations.DecodeOfEncodeIsIdentity := fun i h =>
  decode_of_readsFrom (opField_encode i) (readsFrom_encode h)

/-! ## Encoding the fields of a word -/

section
variable {w : Word} {op : BitVec 5}

theorem encAlu_fields (hop : opField w = op) (hlow : fnBit w = true ∨ w.extractLsb' 0 17 = 0#17) :
    encAlu op (destField w) (src1Field w) (src2Of w) = w := by
  rw [encAlu_eq_regWord, src2Of_fn, src2Of_bits hlow, ← hop, regWord_fields]

theorem encMove_fields {fn srd srs : BitVec 1} {low : BitVec 20} (hop : opField w = 0#5)
    (hunused : w.getLsbD 22 = false) (hfn : .ofBool (fnBit w) = fn) (hsrd : .ofBool (w.getLsbD 21) = srd)
    (hsrs : .ofBool (w.getLsbD 20) = srs) (hlow : immBits w = low) : encMove fn (destField w) srd srs low = w := by
  have hw := regWord_fields w
  rw [src1Bits_eq_append, hunused, hsrd, hsrs, hop, hfn, hlow] at hw
  exact (encMove_eq_regWord ..).trans hw

theorem encMem_fields (hop : opField w = op) (hsrc1 : fnBit w = true ∨ src1Field w = 0) :
    encMem op (destField w) (addrOf w) = w := by
  have hw := regWord_fields w
  cases hfn : fnBit w with
  | true =>
    rw [hfn, hop, ← immBits_immField] at hw
    rw [addrOf, hfn, if_pos rfl]
    exact hw
  | false =>
    rw [hfn, hop, hsrc1.resolve_left (by simp [hfn]), ← immBits_immField] at hw
    rw [addrOf, hfn, if_neg (by simp)]
    exact hw

theorem encStk_fields (hop : opField w = op) (hfn : fnBit w = false) (hlow : w.extractLsb' 0 23 = 0#23) :
    encStk op (destField w) = w := by
  have hw := (regWord_eq_append ..).symm.trans (regWord_fields w)
  rw [hfn, hop, ← low23_eq_append_immBits, hlow] at hw
  exact hw

theorem encJmp_fields {cond : Cond} (hop : opField w = op) (hcond : condOf (condField w) = some cond)
    (hunused : w.extractLsb' 20 2 = 0#2) : encJmp op cond (.ofBool (fnBit w)) (immBits w) = w := by
  rw [encJmp_eq_condWord, code_of_condOf hcond, ← hunused, ← low22_eq_append_immBits, ← hop, condWord_fields]

theorem encRet_fields {cond : Cond} (hop : opField w = 27#5) (hcond : condOf (condField w) = some cond)
    (hfn : fnBit w = false) (hunused : w.extractLsb' 2 20 = 0#20) : encRet cond (typeField w) = w := by
  have hw := condWord_fields w
  rw [hop, hfn, low22_eq_append_typeField, hunused, ← code_of_condOf hcond] at hw
  exact (encRet_eq_condWord ..).trans hw

theorem encHalt_fields {cond : Cond} (hop : opField w = 31#5) (hcond : condOf (condField w) = some cond)
    (hfn : fnBit w = false) (hunused : w.extractLsb' 0 22 = 0#22) : encHalt cond = w := by
  have hw := condWord_fields w
  rw [hop, hfn, hunused, ← code_of_condOf hcond] at hw
  exact hw

end

/-! ## Canonical words: the unused bits of each format (R61 to R68) -/

section
variable {w : Word} (h : Machine.canonicalWord w = true)
include h

theorem unused_of_move (hop : opField w = 0#5) :
    w.getLsbD 22 = false ∧ (w.getLsbD 21 = true → destField w = 0) ∧
      (w.getLsbD 21 = true ∨ w.getLsbD 20 = true → fnBit w = false) ∧ (w.getLsbD 20 = true → immBits w = 0#20) ∧
      (w.getLsbD 20 = false → fnBit w = true ∨ w.extractLsb' 0 17 = 0#17) := by
  simp only [Machine.canonicalWord, hop] at h
  cases hsrd : w.getLsbD 21 <;> cases hsrs : w.getLsbD 20 <;> simp_all [immBits]

theorem unused_of_alu (hlo : 1 ≤ (opField w).toNat) (hhi : (opField w).toNat ≤ 12) :
    fnBit w = true ∨ w.extractLsb' 0 17 = 0#17 := by
  simpa [Machine.canonicalWord, hhi, Nat.ne_of_gt hlo] using h

theorem unused_of_cmp (hop : opField w = 13#5) :
    destField w = 0 ∧ (fnBit w = true ∨ w.extractLsb' 0 17 = 0#17) := by
  simpa [Machine.canonicalWord, hop] using h

theorem unused_of_stk (hop : opField w = 16#5 ∨ opField w = 17#5) :
    fnBit w = false ∧ w.extractLsb' 0 23 = 0#23 := by
  rcases hop with hop | hop <;> simpa [Machine.canonicalWord, hop] using h

theorem unused_of_mem (hlo : 18 ≤ (opField w).toNat) (hhi : (opField w).toNat ≤ 23) :
    fnBit w = true ∨ src1Field w = 0 := by
  have h0 : (opField w).toNat ≠ 0 := by omega
  have h12 : ¬ (opField w).toNat ≤ 12 := by omega
  have h13 : (opField w).toNat ≠ 13 := by omega
  have h17 : ¬ (opField w).toNat ≤ 17 := by omega
  simpa [Machine.canonicalWord, hhi, h0, h12, h13, h17] using h

theorem unused_of_jmp (hop : opField w = 24#5 ∨ opField w = 25#5) :
    w.extractLsb' 20 2 = 0#2 ∧ (fnBit w = true ∨ w.extractLsb' 0 17 = 0#17) := by
  rcases hop with hop | hop <;> simpa [Machine.canonicalWord, hop] using h

theorem unused_of_jr (hop : opField w = 26#5) : w.extractLsb' 20 2 = 0#2 ∧ fnBit w = true := by
  simpa [Machine.canonicalWord, hop] using h

theorem unused_of_ret (hop : opField w = 27#5) :
    fnBit w = false ∧ w.extractLsb' 2 20 = 0#20 ∧ typeField w ≠ 2#2 := by
  simpa [Machine.canonicalWord, hop, and_assoc] using h

theorem unused_of_halt (hop : opField w = 31#5) : fnBit w = false ∧ w.extractLsb' 0 22 = 0#22 := by
  simpa [Machine.canonicalWord, hop] using h

end

/-! ## Encoding what was decoded from a canonical word -/

/-- A word with the opcode and the operands of `i` whose unused bits are 0 is the word of `i`. -/
theorem encode_of_readsFrom {w : Word} {i : Instr} (hc : Machine.canonicalWord w = true) (hop : opField w = i.opcode)
    (h : i.ReadsFrom w) : encode i = w := by
  cases i with
  | moveRegReg rd rs =>
    obtain ⟨hsrd, hsrs, hfn, rfl, rfl⟩ := h
    obtain ⟨h22, _, _, _, hlow⟩ := unused_of_move hc hop
    have hlow17 : w.extractLsb' 0 17 = 0#17 := (hlow hsrs).resolve_left (by simp [hfn])
    exact encMove_fields hop h22 (congrArg _ hfn) (congrArg _ hsrd) (congrArg _ hsrs)
      (by rw [immBits_eq_append, hlow17])
  | moveImmReg rd imm =>
    obtain ⟨hsrd, hsrs, hfn, rfl, rfl⟩ := h
    obtain ⟨h22, _⟩ := unused_of_move hc hop
    exact encMove_fields hop h22 (congrArg _ hfn) (congrArg _ hsrd) (congrArg _ hsrs) (immBits_immField w).symm
  | moveSrReg rd =>
    obtain ⟨hsrd, hsrs, rfl⟩ := h
    obtain ⟨h22, _, hfn, hlow, _⟩ := unused_of_move hc hop
    exact encMove_fields hop h22 (congrArg _ (hfn (.inr hsrs))) (congrArg _ hsrd) (congrArg _ hsrs) (hlow hsrs)
  | moveRegSr rs =>
    obtain ⟨hsrd, hsrs, rfl⟩ := h
    obtain ⟨h22, hdest, hfn, _, hlow⟩ := unused_of_move hc hop
    have hlow17 : w.extractLsb' 0 17 = 0#17 := (hlow hsrs).resolve_left (by simp [hfn (.inl hsrd)])
    rw [encode, ← hdest hsrd]
    exact encMove_fields hop h22 (congrArg _ (hfn (.inl hsrd))) (congrArg _ hsrd) (congrArg _ hsrs)
      (by rw [immBits_eq_append, hlow17])
  | moveSrSr =>
    obtain ⟨hsrd, hsrs⟩ := h
    obtain ⟨h22, hdest, hfn, hlow, _⟩ := unused_of_move hc hop
    rw [encode, ← hdest hsrd]
    exact encMove_fields hop h22 (congrArg _ (hfn (.inl hsrd))) (congrArg _ hsrd) (congrArg _ hsrs) (hlow hsrs)
  | or rd a b | and rd a b | xor rd a b | add rd a b | adc rd a b | sub rd a b | sbc rd a b | rotl rd a b
  | rotr rd a b | shl rd a b | shr rd a b | ashr rd a b =>
    obtain ⟨rfl, rfl, rfl⟩ := h
    exact encAlu_fields hop (unused_of_alu hc (by simp [hop, Instr.opcode]) (by simp [hop, Instr.opcode]))
  | cmp a b =>
    obtain ⟨rfl, rfl⟩ := h
    obtain ⟨hdest, hlow⟩ := unused_of_cmp hc hop
    rw [encode, encCmp_eq_encAlu, ← hdest]
    exact encAlu_fields hop hlow
  | pop r | push r =>
    obtain rfl := h
    obtain ⟨hfn, hlow⟩ := unused_of_stk hc (by simp [hop, Instr.opcode])
    exact encStk_fields hop hfn hlow
  | loadb r a | storeb r a | loadh r a | storeh r a | load r a | store r a =>
    obtain ⟨rfl, rfl⟩ := h
    exact encMem_fields hop (unused_of_mem hc (by simp [hop, Instr.opcode]) (by simp [hop, Instr.opcode]))
  | jp cond t | call cond t =>
    obtain ⟨hcond, rfl⟩ := h
    obtain ⟨hunused, hlow⟩ := unused_of_jmp hc (by simp [hop, Instr.opcode])
    rw [encode, src2Of_fn, src2Of_bits hlow]
    exact encJmp_fields hop hcond hunused
  | jr cond off =>
    obtain ⟨hcond, rfl⟩ := h
    obtain ⟨hunused, hfn⟩ := unused_of_jr hc hop
    have hw := encJmp_fields hop hcond hunused
    rw [hfn] at hw
    rw [encode, immBits_immField]
    exact hw
  | ret cond =>
    obtain ⟨hcond, h1, h3⟩ := h
    obtain ⟨hfn, hunused, h2⟩ := unused_of_ret hc hop
    have h0 : typeField w = 0#2 := by bv_omega
    rw [encode, ← h0]
    exact encRet_fields hop hcond hfn hunused
  | reti cond | retn cond =>
    obtain ⟨hcond, htype⟩ := h
    obtain ⟨hfn, hunused, _⟩ := unused_of_ret hc hop
    rw [encode, ← htype]
    exact encRet_fields hop hcond hfn hunused
  | halt cond =>
    obtain ⟨hfn, hunused⟩ := unused_of_halt hc hop
    exact encHalt_fields hop h hfn hunused

/-- Settles O3: a canonical word holds its opcode, its operands and the unused bits of its format. -/
theorem canonicalWordReencodesToItself : Obligations.CanonicalWordReencodesToItself := fun _ _ hc h =>
  have ⟨hop, hreads⟩ := readsFrom_of_decode h
  encode_of_readsFrom hc hop hreads

end Sys2Proof

/-! What the MOVE instructions transfer, and what they leave unchanged (40_move R78 to R85). -/

namespace Sys2Proof.Machine

/-! ## The frame of a MOVE -/

/-- The core's frame, with memory, the units, the parameters and the schedule kept besides. -/
theorem CoreFrame.onlyCore {rs : List Reg} {bits : List Nat} {s t : State} (h : CoreFrame rs bits s t)
    (hmem : t.mem = s.mem) (hunits : t.units = s.units) (hcfg : t.cfg = s.cfg) (hsched : t.schedule = s.schedule) :
    onlyCore rs bits s t :=
  ⟨h.regs, h.sr, (sameStore.refl s).congr hmem hunits, h.iif, h.run, hcfg, hsched⟩

/-- MOVE_SETS_NZ = false leaves SR alone; the frame of both parameter values is `CoreFrame.finishMove`. -/
theorem CoreFrame.finishMove_keepsSr {s : State} (hnz : s.cfg.moveSetsNz = false) (rd : Reg) (v : Word) :
    CoreFrame [rd] [] s (s.finishMove rd v) := by
  have hset : CoreFrame [rd] [] s (s.setReg rd v) := (refl _ _ s).setReg List.mem_cons_self v
  rw [State.finishMove_eq, if_neg (by simp [hnz])]
  exact hset.advance

theorem State.finishMove_onlyCore {s : State} {bits : List Nat} {rd : Reg} {v : Word}
    (h : CoreFrame [rd] bits s (s.finishMove rd v)) : onlyCore [rd] bits s (s.finishMove rd v) :=
  h.onlyCore (finishMove_mem ..) (finishMove_units ..) (finishMove_cfg ..) (finishMove_schedule ..)

/-! ## The flags of a MOVE into a general register (R85) -/

@[simp] theorem State.flag_advance (s : State) (f : SrBit) : s.advance.flag f = s.flag f := rfl

theorem State.flag_setNZ_n (s : State) (v : Word) : (s.setNZ v).flag .n = v.msb := by
  rw [setNZ, flag_setFlag, if_neg (by decide), flag_setFlag, if_pos rfl]

theorem State.flag_setNZ_z (s : State) (v : Word) : (s.setNZ v).flag .z = decide (v = 0#32) := by
  rw [setNZ, flag_setFlag, if_pos rfl]
  rfl

theorem State.finishMove_of_setsNz {s : State} (hnz : s.cfg.moveSetsNz = true) (rd : Reg) (v : Word) :
    s.finishMove rd v = ((s.setReg rd v).setNZ v).advance := by
  rw [finishMove_eq, if_pos hnz]

/-! ## The two endings of the MOVE rules -/

/-- R79 to R81: what the three moves into a general register have in common, whatever the value. -/
theorem State.finishMove_moveEffect (s : State) (rd : Reg) (v : Word) : moveEffect s (s.finishMove rd v) rd v := by
  refine ⟨by rw [reg_finishMove, if_pos rfl], finishMove_pc .., ?_⟩
  split
  case isTrue hnz =>
    refine ⟨?n, ?z, finishMove_onlyCore (.finishMove rfl)⟩
    case n => rw [finishMove_of_setsNz hnz, flag_advance, flag_setNZ_n]
    case z => rw [finishMove_of_setsNz hnz, flag_advance, flag_setNZ_z]
  case isFalse hnz => exact finishMove_onlyCore (.finishMove_keepsSr (Bool.eq_false_of_not_eq_true hnz) rd v)

/-- R82 to R84: what the two moves into SR have in common, whatever the value. -/
theorem State.finishMoveSr_effect (s : State) (v : Word) :
    (s.finishMoveSr v).pc = s.pc + 4 ∧
      (∀ k, (s.finishMoveSr v).sr.getLsbD k = (decide (k < 8) && v.getLsbD k)) ∧
      sameRegsBut [] s (s.finishMoveSr v) ∧ sameStore s (s.finishMoveSr v) ∧ sameControl s (s.finishMoveSr v) :=
  have ⟨hregs, _, hstore, hcontrol⟩ := (CoreFrame.finishMoveSr (s := s) (v := v) rfl).onlyCore rfl rfl rfl rfl
  ⟨rfl, getLsbD_srLow v, hregs, hstore, hcontrol⟩

end Sys2Proof.Machine

namespace Sys2Proof

open Machine

/-! ## Decoding -/

/-- R78: w[21] selects SR as the destination and w[20] as the source; Fn is not read (D6). -/
theorem decode_move_into_sr {w : Word} (hop : opField w = 0b00000#5) (hsrd : w.getLsbD 21 = true) :
    decode w = .ok (if w.getLsbD 20 then .moveSrSr else .moveRegSr (src2Field w)) := by
  cases hsrs : w.getLsbD 20 with
  | true => exact decode_of_readsFrom hop ⟨hsrd, hsrs⟩
  | false => exact decode_of_readsFrom hop ⟨hsrd, hsrs, rfl⟩

theorem decode_of_encode_eq {w : Word} {i : Instr} (hwf : i.wellFormed = true) (h : encode i = w) :
    decode w = .ok i :=
  h ▸ decodeOfEncodeIsIdentity i hwf

/-! ## The statements -/

/-- Settles O5: each example word is the encoder's word of the instruction it stands for. -/
theorem specExampleWordsDecode : Obligations.SpecExampleWordsDecode := by
  unfold Obligations.SpecExampleWordsDecode
  refine ⟨?_, ?_, ?_, ?_, ?_, ?_, ?_, ?_, ?_⟩ <;> exact decode_of_encode_eq (by decide) (by decide)

/-- Settles O18: the three moves are one ending with three values, all read before it. -/
theorem movesIntoARegister : Obligations.MovesIntoARegister := fun rd rs imm s =>
  ⟨⟨s.finishMove rd (s.reg rs), rfl, s.finishMove_moveEffect rd (s.reg rs)⟩,
   ⟨s.finishMove rd imm, rfl, s.finishMove_moveEffect rd imm⟩,
   ⟨s.finishMove rd (srLow s.sr), rfl, s.finishMove_moveEffect rd (srLow s.sr)⟩⟩

/-- Settles O19: the words by `decode_move_into_sr`, the two moves as one ending with two values. -/
theorem movesIntoStatusRegister : Obligations.MovesIntoStatusRegister :=
  ⟨fun _ hop hsrd => decode_move_into_sr hop hsrd, fun rs s =>
    ⟨⟨s.finishMoveSr (s.reg rs), rfl, s.finishMoveSr_effect (s.reg rs)⟩,
     ⟨s.finishMoveSr s.sr, rfl, s.finishMoveSr_effect s.sr⟩⟩⟩

end Sys2Proof

/-! ADD, SUB and CMP against the unsigned and the signed order, and the effect of an ALU instruction
(41_arith_logic R86 to R97). -/

namespace Sys2Proof.Machine

/-! ## Unsigned and signed values of a word -/

theorem toNat_msb (x : Word) : x.msb.toNat = x.toNat / 2 ^ 31 := by
  have hx := x.isLt
  rw [BitVec.msb_eq_decide, Bool.toNat, Bool.cond_decide]
  split <;> omega

theorem toInt_eq_toNat_sub_msb (x : Word) : x.toInt = x.toNat - 2 ^ 32 * x.msb.toNat := by
  rw [BitVec.toInt_eq_msb_cond]
  cases x.msb <;> simp

/-- The signed value of the complement, which `Sub` adds (R89). -/
theorem toInt_complement (x : Word) : (~~~x).toInt = -x.toInt - 1 := by
  have hx := x.isLt
  simp only [toInt_eq_toNat_sub_msb, toNat_msb, BitVec.toNat_not]
  omega

theorem signedOverflow_eq (x : Int) : signedOverflow x = decide (x < -2 ^ 31 ∨ 2 ^ 31 ≤ x) :=
  (Bool.decide_or ..).symm

/-! ## The add and the subtract primitive -/

theorem addC_r (a b : Word) (cin : Bool) : (addC a b cin).r = a + b + (if cin then 1 else 0) := by
  cases cin <;> simp [addC, BitVec.ofNat_add]

/-- The carry into bit 31 and both bits 31 add up to the carry out of the unsigned sum. -/
theorem addC_c (a b : Word) (cin : Bool) :
    (addC a b cin).c = decide (2 ^ 32 ≤ a.toNat + b.toNat + cin.toNat) := by
  have hcin := cin.toNat_lt
  simp only [addC, toNat_msb, decide_eq_decide]
  rw [Bool.toNat, Bool.cond_decide]
  split <;> omega

/-- The carry into and the carry out of bit 31 differ exactly on signed overflow. -/
theorem addC_v (a b : Word) (cin : Bool) :
    (addC a b cin).v = signedOverflow (a.toInt + b.toInt + cin.toNat) := by
  have ha := a.isLt
  have hb := b.isLt
  have hcin := cin.toNat_lt
  have hv : (addC a b cin).v =
      (decide (2 ^ 31 ≤ a.toNat % 2 ^ 31 + b.toNat % 2 ^ 31 + cin.toNat) ^^ (addC a b cin).c) := rfl
  rw [hv, addC_c, signedOverflow_eq, Bool.eq_iff_iff]
  simp only [toInt_eq_toNat_sub_msb, toNat_msb, bne_iff_ne, ne_eq, decide_eq_decide, decide_eq_true_eq]
  omega

/-- R86 in the closed forms of R87. -/
theorem addC_eq (a b : Word) (cin : Bool) :
    addC a b cin =
      { r := a + b + (if cin then 1 else 0)
        c := decide (2 ^ 32 ≤ a.toNat + b.toNat + cin.toNat)
        v := signedOverflow (a.toInt + b.toInt + cin.toNat) } :=
  (AluOut.mk.injEq ..).mpr ⟨addC_r a b cin, addC_c a b cin, addC_v a b cin⟩

/-- R89 in closed form: C means that a borrow occurred. -/
theorem subB_eq (a b : Word) (bin : Bool) :
    subB a b bin =
      { r := a - b - (if bin then 1 else 0)
        c := decide (a.toNat < b.toNat + bin.toNat)
        v := signedOverflow (a.toInt - b.toInt - bin.toNat) } := by
  have hb := b.isLt
  have hnot : (!bin).toNat = 1 - bin.toNat := by cases bin <;> rfl
  have hbin := bin.toNat_lt
  rw [subB, addC_eq, AluOut.mk.injEq]
  refine ⟨?result, ?borrow, ?overflow⟩
  case result => cases bin <;> simp [BitVec.not_eq_neg_add] <;> ring
  case borrow =>
    rw [BitVec.toNat_not, hnot, ← decide_not, decide_eq_decide]
    omega
  case overflow =>
    have hsum : a.toInt + (-b.toInt - 1) + (1 - bin.toNat : Nat) = a.toInt - b.toInt - bin.toNat := by omega
    rw [toInt_complement, hnot, hsum]

theorem addC_false (a b : Word) :
    addC a b false =
      { r := a + b, c := decide (2 ^ 32 ≤ a.toNat + b.toNat), v := signedOverflow (a.toInt + b.toInt) } := by
  simp [addC_eq]

theorem subB_false (a b : Word) :
    subB a b false =
      { r := a - b, c := decide (a.toNat < b.toNat), v := signedOverflow (a.toInt - b.toInt) } := by
  simp [subB_eq]

/-! ## The effect of an ALU instruction -/

theorem State.setAluFlags_flagsAre (s : State) (o : AluOut) : flagsAre (s.setAluFlags o) o.r o.c o.v :=
  have hbit := s.getLsbD_sr_setAluFlags o
  ⟨hbit SrBit.n.pos, hbit SrBit.z.pos, hbit SrBit.c.pos, hbit SrBit.v.pos⟩

/-- The ending that every ALU instruction with a destination shares (R90 to R96, R101 to R105). -/
theorem State.finishAlu_aluEffect (s : State) (rd : Reg) {o : AluOut} {r : Word} {c v : Bool} (ho : o = { r, c, v }) :
    aluEffect s (s.finishAlu rd o) [rd] r c v := by
  subst ho
  refine ⟨fun x hx => ?_, (s.setReg rd r).setAluFlags_flagsAre _, finishAlu_pc ..,
    (CoreFrame.finishAlu rfl).onlyCore rfl rfl rfl rfl⟩
  rw [reg_finishAlu, if_pos (List.mem_singleton.1 hx)]

/-- The ending of CMP (R97). -/
theorem State.setAluFlags_aluEffect (s : State) {o : AluOut} {r : Word} {c v : Bool} (ho : o = { r, c, v }) :
    aluEffect s (s.setAluFlags o).advance [] r c v := by
  subst ho
  exact ⟨fun _ hx => absurd hx List.not_mem_nil, s.setAluFlags_flagsAre _, rfl,
    ((CoreFrame.refl [] nzcvBits s).setAluFlags (List.Subset.refl _) _).advance.onlyCore rfl rfl rfl rfl⟩

/-! ## The conditions after a comparison (R115) -/

/-- The sign of a difference, corrected by overflow, is the signed order. -/
theorem msb_sub_xor_signedOverflow (x y : Word) :
    ((x - y).msb ^^ signedOverflow (x.toInt - y.toInt)) = decide (x.toInt < y.toInt) := by
  have hx := x.isLt
  have hy := y.isLt
  have hmsb : (x - y).msb = decide ((x.toInt - y.toInt).bmod (2 ^ 32) < 0) := by
    rw [BitVec.msb_eq_toInt, BitVec.toInt_sub]
  rw [hmsb, signedOverflow_eq, Bool.eq_iff_iff]
  simp only [Int.bmod_def, bne_iff_ne, ne_eq, decide_eq_decide, decide_eq_true_eq, toInt_eq_toNat_sub_msb, toNat_msb]
  omega

/-! ### The conditions that negate another -/

theorem condHolds_nc (sr : Word) : condHolds sr .nc = !condHolds sr .c := rfl

theorem condHolds_ugt (sr : Word) : condHolds sr .ugt = !condHolds sr .ule := (Bool.not_or ..).symm

theorem condHolds_sge (sr : Word) : condHolds sr .sge = !condHolds sr .slt := (Bool.not_not _).symm

theorem condHolds_sgt (sr : Word) : condHolds sr .sgt = !condHolds sr .sle := by
  have hand : condHolds sr .sgt = (condHolds sr .sge && !srGet sr .z) := rfl
  rw [hand, condHolds_sge, ← Bool.not_or]
  rfl

/-! ### Each relation, read off the flags of the difference -/

section

variable {t : State} {x y : Word}
  (h : flagsAre t (x - y) (decide (x.toNat < y.toNat)) (signedOverflow (x.toInt - y.toInt)))

include h

theorem flagsAre.flag_z_iff : t.flag .z = true ↔ x = y := by
  obtain ⟨_, hz, _, _⟩ := h
  rw [hz, decide_eq_true_eq]
  exact sub_eq_zero

theorem flagsAre.flag_z_toNat : t.flag .z = decide (x.toNat = y.toNat) := by
  rw [Bool.eq_iff_iff, h.flag_z_iff, decide_eq_true_eq, BitVec.toNat_inj]

theorem flagsAre.flag_z_toInt : t.flag .z = decide (x.toInt = y.toInt) := by
  rw [Bool.eq_iff_iff, h.flag_z_iff, decide_eq_true_eq, BitVec.toInt_inj]

theorem flagsAre.ult : condHolds t.sr .c = decide (x.toNat < y.toNat) := by
  obtain ⟨_, _, hc, _⟩ := h
  exact hc

theorem flagsAre.slt : condHolds t.sr .slt = decide (x.toInt < y.toInt) := by
  obtain ⟨hn, _, _, hv⟩ := h
  rw [← msb_sub_xor_signedOverflow, ← hn, ← hv]
  rfl

theorem flagsAre.ule : condHolds t.sr .ule = decide (x.toNat ≤ y.toNat) := by
  have hor : condHolds t.sr .ule = (condHolds t.sr .c || t.flag .z) := rfl
  rw [hor, h.ult, h.flag_z_toNat, ← Bool.decide_or, decide_eq_decide, Nat.le_iff_lt_or_eq]

theorem flagsAre.sle : condHolds t.sr .sle = decide (x.toInt ≤ y.toInt) := by
  have hor : condHolds t.sr .sle = (condHolds t.sr .slt || t.flag .z) := rfl
  rw [hor, h.slt, h.flag_z_toInt, ← Bool.decide_or, decide_eq_decide, Int.le_iff_lt_or_eq]

theorem flagsAre.ugt : condHolds t.sr .ugt = decide (y.toNat < x.toNat) := by
  rw [condHolds_ugt, h.ule, ← decide_not, decide_eq_decide, Nat.not_le]

theorem flagsAre.uge : condHolds t.sr .nc = decide (y.toNat ≤ x.toNat) := by
  rw [condHolds_nc, h.ult, ← decide_not, decide_eq_decide, Nat.not_lt]

theorem flagsAre.sge : condHolds t.sr .sge = decide (y.toInt ≤ x.toInt) := by
  rw [condHolds_sge, h.slt, ← decide_not, decide_eq_decide, Int.not_lt]

theorem flagsAre.sgt : condHolds t.sr .sgt = decide (y.toInt < x.toInt) := by
  rw [condHolds_sgt, h.sle, ← decide_not, decide_eq_decide, Int.not_le]

end

end Sys2Proof.Machine

namespace Sys2Proof

open Machine

/-! ## The statements -/

/-- Settles O11: the primitive's three outputs, each in its closed form. -/
theorem addPrimitiveIsExact : Obligations.AddPrimitiveIsExact := fun a b cin =>
  ⟨addC_r a b cin, addC_c a b cin, addC_v a b cin⟩

/-- Settles O12: the words by their fields, the three instructions as one ending with three results. -/
theorem logicInstructionsCompute : Obligations.LogicInstructionsCompute :=
  ⟨fun _ =>
    ⟨fun hop => decode_of_readsFrom hop ⟨rfl, rfl, rfl⟩,
     fun hop => decode_of_readsFrom hop ⟨rfl, rfl, rfl⟩,
     fun hop => decode_of_readsFrom hop ⟨rfl, rfl, rfl⟩⟩,
   fun rd _ _ s =>
    ⟨⟨_, rfl, s.finishAlu_aluEffect rd rfl⟩,
     ⟨_, rfl, s.finishAlu_aluEffect rd rfl⟩,
     ⟨_, rfl, s.finishAlu_aluEffect rd rfl⟩⟩⟩

/-- Settles O13: the shared ending with the closed form of the add primitive, C = 0 or the old C coming in. -/
theorem addInstructionsCompute : Obligations.AddInstructionsCompute :=
  ⟨fun _ =>
    ⟨fun hop => decode_of_readsFrom hop ⟨rfl, rfl, rfl⟩,
     fun hop => decode_of_readsFrom hop ⟨rfl, rfl, rfl⟩⟩,
   fun rd a b s =>
    ⟨⟨_, rfl, s.finishAlu_aluEffect rd (addC_false (s.reg a) (s.src2 b))⟩,
     ⟨_, rfl, s.finishAlu_aluEffect rd (addC_eq (s.reg a) (s.src2 b) (s.flag .c))⟩⟩⟩

/-- Settles O14: the shared ending with the closed form of the subtract primitive, borrow 0 or the old C coming in. -/
theorem subInstructionsCompute : Obligations.SubInstructionsCompute :=
  ⟨fun _ =>
    ⟨fun hop => decode_of_readsFrom hop ⟨rfl, rfl, rfl⟩,
     fun hop => decode_of_readsFrom hop ⟨rfl, rfl, rfl⟩⟩,
   fun rd a b s =>
    ⟨⟨_, rfl, s.finishAlu_aluEffect rd (subB_false (s.reg a) (s.src2 b))⟩,
     ⟨_, rfl, s.finishAlu_aluEffect rd (subB_eq (s.reg a) (s.src2 b) (s.flag .c))⟩⟩⟩

/-- Settles O15: every relation is read off the flags of the difference. -/
theorem compareSetsTheRelations : Obligations.CompareSetsTheRelations := by
  refine ⟨fun _ hop => decode_of_readsFrom hop ⟨rfl, rfl⟩, fun a b s => ?_⟩
  have heffect := s.setAluFlags_aluEffect (subB_false (s.reg a) (s.src2 b))
  have ⟨_, hflags, _, _⟩ := heffect
  exact ⟨_, rfl, heffect, hflags.ult, hflags.ule, hflags.ugt, hflags.uge, hflags.slt, hflags.sle, hflags.sge,
    hflags.sgt⟩

end Sys2Proof

/-! Shifts and rotates in closed form: the rotated or shifted word, and the last bit that leaves it
(42_shift_rotate R99 to R105). -/

namespace Sys2Proof.Machine

/-! ## The amount, and amount 0 -/

/-- R99: the low 5 bits are the amount modulo 32. -/
theorem shiftAmount_eq (y : Word) : shiftAmount y = y.toNat % 32 := by
  simp [shiftAmount]

theorem shiftAmount_lt (y : Word) : shiftAmount y < 32 := (y.extractLsb' 0 5).isLt

/-- R100 in closed form: where amount 0 gives the source by itself, only C treats that amount apart. -/
theorem shiftOut_eq {x r : Word} {amt : Nat} {c c' : Bool} (hr : amt = 0 → r = x) (hc : amt ≠ 0 → c = c') :
    shiftOut x amt r c = { r := r, c := if amt = 0 then false else c', v := false } := by
  unfold shiftOut
  split
  next h => rw [hr h]
  next h => rw [hc h]

/-! ## The rotates -/

/-- The two shifted halves of R101 make up the rotated word. -/
theorem rotateLeft_of_lt (x : Word) {amt : Nat} (h : amt < 32) :
    (x <<< amt) ||| (x >>> (32 - amt)) = x.rotateLeft amt := by
  rw [BitVec.rotateLeft_def, Nat.mod_eq_of_lt h]

/-- The two shifted halves of R102 make up the rotated word. -/
theorem rotateRight_of_lt (x : Word) {amt : Nat} (h : amt < 32) :
    (x >>> amt) ||| (x <<< (32 - amt)) = x.rotateRight amt := by
  rw [BitVec.rotateRight_def, Nat.mod_eq_of_lt h]

/-- R101: a left rotate brings `x[32 - amt]` into position 0. -/
theorem getLsbD_zero_rotateLeft (x : Word) {amt : Nat} (h : amt < 32) (h0 : amt ≠ 0) :
    (x.rotateLeft amt).getLsbD 0 = x.getLsbD (32 - amt) := by
  rw [BitVec.getLsbD_rotateLeft_of_le h, decide_eq_true (Nat.pos_of_ne_zero h0)]
  rfl

/-- R102: a right rotate lands `x[amt - 1]` in position 31. -/
theorem getLsbD_last_rotateRight (x : Word) {amt : Nat} (h : amt < 32) (h0 : amt ≠ 0) :
    (x.rotateRight amt).getLsbD 31 = x.getLsbD (amt - 1) := by
  have hwrap : ¬ 31 < 32 - amt := by omega
  have hpos : 31 - (32 - amt) = amt - 1 := by omega
  rw [BitVec.getLsbD_rotateRight_of_lt h, decide_eq_false hwrap, hpos]
  rfl

theorem rotlOut_eq (x y : Word) :
    rotlOut x y =
      { r := x.rotateLeft (y.toNat % 32)
        c := if y.toNat % 32 = 0 then false else x.getLsbD (32 - y.toNat % 32)
        v := false } := by
  have hlt := shiftAmount_lt y
  simp only [rotlOut, rotateLeft_of_lt x hlt, ← shiftAmount_eq]
  refine shiftOut_eq (fun h => ?_) (getLsbD_zero_rotateLeft x hlt)
  simp [h, BitVec.rotateLeft_def, BitVec.ushiftRight_eq_zero]

theorem rotrOut_eq (x y : Word) :
    rotrOut x y =
      { r := x.rotateRight (y.toNat % 32)
        c := if y.toNat % 32 = 0 then false else x.getLsbD (y.toNat % 32 - 1)
        v := false } := by
  have hlt := shiftAmount_lt y
  simp only [rotrOut, rotateRight_of_lt x hlt, ← shiftAmount_eq]
  refine shiftOut_eq (fun h => ?_) (getLsbD_last_rotateRight x hlt)
  simp [h, BitVec.rotateRight_def]

/-! ## The shifts -/

/-- Under a set sign bit, the mask of R105 fills the places that the logical shift empties. -/
theorem ushiftRight_or_mask {w : Nat} {x : BitVec w} (hsign : x.msb = true) (amt : Nat) :
    (x >>> amt) ||| ~~~(BitVec.allOnes w >>> amt) = x.sshiftRight amt := by
  refine BitVec.eq_of_getLsbD_eq fun k hk => ?_
  rw [BitVec.getLsbD_sshiftRight, hsign]
  by_cases hin : amt + k < w <;> simp [hk, hin]

/-- The logical shift with the fill of R105 is the arithmetic shift. -/
theorem ushiftRight_or_fill (x : Word) (amt : Nat) :
    (x >>> amt) ||| (if x.getLsbD 31 then ~~~(0xFFFFFFFF#32 >>> amt) else 0#32) = x.sshiftRight amt := by
  have hmsb : x.getLsbD 31 = x.msb := rfl
  rw [hmsb]
  cases hsign : x.msb with
  | false => exact BitVec.or_zero.trans (BitVec.sshiftRight_eq_of_msb_false hsign).symm
  | true => exact ushiftRight_or_mask hsign amt

theorem shlOut_eq (x y : Word) :
    shlOut x y =
      { r := x <<< (y.toNat % 32)
        c := if y.toNat % 32 = 0 then false else x.getLsbD (32 - y.toNat % 32)
        v := false } := by
  simp only [shlOut, ← shiftAmount_eq]
  refine shiftOut_eq (fun h => ?_) (fun _ => rfl)
  rw [h, BitVec.shiftLeft_zero]

theorem shrOut_eq (x y : Word) :
    shrOut x y =
      { r := x >>> (y.toNat % 32)
        c := if y.toNat % 32 = 0 then false else x.getLsbD (y.toNat % 32 - 1)
        v := false } := by
  simp only [shrOut, ← shiftAmount_eq]
  refine shiftOut_eq (fun h => ?_) (fun _ => rfl)
  rw [h, BitVec.ushiftRight_zero]

theorem ashrOut_eq (x y : Word) :
    ashrOut x y =
      { r := x.sshiftRight (y.toNat % 32)
        c := if y.toNat % 32 = 0 then false else x.getLsbD (y.toNat % 32 - 1)
        v := false } := by
  simp only [ashrOut, ushiftRight_or_fill, ← shiftAmount_eq]
  refine shiftOut_eq (fun h => ?_) (fun _ => rfl)
  rw [h, BitVec.sshiftRight_zero]

end Sys2Proof.Machine

namespace Sys2Proof

open Machine

/-! ## The statements -/

/-- Settles O16: the shared ending with the closed forms of the two rotates. -/
theorem rotateInstructionsCompute : Obligations.RotateInstructionsCompute :=
  ⟨fun _ =>
    ⟨fun hop => decode_of_readsFrom hop ⟨rfl, rfl, rfl⟩,
     fun hop => decode_of_readsFrom hop ⟨rfl, rfl, rfl⟩⟩,
   fun rd a b s =>
    ⟨⟨_, rfl, s.finishAlu_aluEffect rd (rotlOut_eq (s.reg a) (s.src2 b))⟩,
     ⟨_, rfl, s.finishAlu_aluEffect rd (rotrOut_eq (s.reg a) (s.src2 b))⟩⟩⟩

/-- Settles O17: the shared ending with the closed forms of the three shifts. -/
theorem shiftInstructionsCompute : Obligations.ShiftInstructionsCompute :=
  ⟨fun _ =>
    ⟨fun hop => decode_of_readsFrom hop ⟨rfl, rfl, rfl⟩,
     fun hop => decode_of_readsFrom hop ⟨rfl, rfl, rfl⟩,
     fun hop => decode_of_readsFrom hop ⟨rfl, rfl, rfl⟩⟩,
   fun rd a b s =>
    ⟨⟨_, rfl, s.finishAlu_aluEffect rd (shlOut_eq (s.reg a) (s.src2 b))⟩,
     ⟨_, rfl, s.finishAlu_aluEffect rd (shrOut_eq (s.reg a) (s.src2 b))⟩,
     ⟨_, rfl, s.finishAlu_aluEffect rd (ashrOut_eq (s.reg a) (s.src2 b))⟩⟩⟩

end Sys2Proof

/-! What the stack, load and store instructions answer where their access goes through, and how a store stops where it
reaches nothing (43_load_store_stack R106 to R114). -/

namespace Sys2Proof.Machine

open BitVec (extractLsb'_append_eq_of_le extractLsb'_append_eq_left extractLsb'_append_eq_right
  extractLsb'_setWidth_of_le extractLsb'_eq_self)

/-! ## The value an access reads -/

theorem getLsbD_setWidth_of_ge {n k : Nat} (x : BitVec n) (hk : n ≤ k) (m : Nat) :
    (x.setWidth m).getLsbD k = false := by
  rw [BitVec.getLsbD_setWidth, BitVec.getLsbD_of_ge x k hk, Bool.and_false]

/-- R40: a value read from bytes has no bit above its width. -/
theorem getLsbD_leRead_of_ge (f : Nat → Byte) (a : Nat) {w : Width} {k : Nat} (hk : 8 * w.bytes ≤ k) :
    (leRead f a w).getLsbD k = false := by
  cases w with
  | byte | half => exact getLsbD_setWidth_of_ge _ hk 32
  | word => exact BitVec.getLsbD_of_ge _ k hk

/-- R47: a field of a slot has no bit above its width. -/
theorem getLsbD_slotField_of_ge (x : Word) (off : Nat) {w : Width} {k : Nat} (hk : 8 * w.bytes ≤ k) :
    (slotField x off w).getLsbD k = false := by
  cases w with
  | byte | half => exact getLsbD_setWidth_of_ge _ hk 32
  | word => exact BitVec.getLsbD_of_ge _ k hk

theorem IoUnit.getLsbD_read_of_ge (n : Nat) (u : IoUnit) (off : Nat) {w : Width} {k : Nat} (hk : 8 * w.bytes ≤ k) :
    (u.read n off w).getLsbD k = false := by
  unfold IoUnit.read
  split
  · exact getLsbD_leRead_of_ge _ _ hk
  all_goals exact getLsbD_slotField_of_ge _ _ hk

/-- Reads are zero-extended, from flat memory and from a unit alike (D9). -/
theorem State.getLsbD_valueAt_of_ge (s : State) (addr : Word) {w : Width} {k : Nat} (hk : 8 * w.bytes ≤ k) :
    (s.valueAt addr w).getLsbD k = false := by
  unfold State.valueAt
  split
  · exact IoUnit.getLsbD_read_of_ge _ _ _ hk
  · exact getLsbD_leRead_of_ge _ _ hk

/-- R40: byte `k` of a value read from bytes is the one at `a + k`. -/
theorem byteOf_leRead (f : Nat → Byte) (a : Nat) {w : Width} {k : Nat} (hk : k < w.bytes) :
    byteOf (leRead f a w) k = f (a + k) := by
  unfold byteOf
  cases w <;> simp only [Width.bytes] at hk
  case byte =>
    obtain rfl : k = 0 := by omega
    exact (extractLsb'_setWidth_of_le (by decide)).trans extractLsb'_eq_self
  case half =>
    rw [leRead, extractLsb'_setWidth_of_le (by omega)]
    interval_cases k
    · exact extractLsb'_append_eq_right
    · exact extractLsb'_append_eq_left
  case word =>
    rw [leRead, leWord]
    interval_cases k
    · exact extractLsb'_append_eq_right
    · rw [extractLsb'_append_eq_of_le (by decide)]
      exact extractLsb'_append_eq_right
    · rw [extractLsb'_append_eq_of_le (by decide), extractLsb'_append_eq_of_le (by decide)]
      exact extractLsb'_append_eq_right
    · rw [extractLsb'_append_eq_of_le (by decide), extractLsb'_append_eq_of_le (by decide)]
      exact extractLsb'_append_eq_left

/-- From flat memory a read gives the bytes of the aligned address, least significant first (R40, R42). -/
theorem State.byteOf_valueAt_of_flatAt {s : State} {addr : Word} {w : Width} (h : s.flatAt addr w = true) {k : Nat}
    (hk : k < w.bytes) : byteOf (s.valueAt addr w) k = s.byteAt (addr.toNat / w.bytes * w.bytes + k) := by
  obtain ⟨hnone, _⟩ := (s.flatAt_iff addr w).1 h
  simp only [valueAt, hnone, flatValue, byteOf_leRead _ _ hk, align_toNat, byteAt]

/-! ## Loads and POP -/

/-- A read that gives a value moves on the index of free values at most. -/
theorem busRead_eq_of_readable {s : State} {addr : Word} {w : Width} (h : s.readable addr w = true) :
    ∃ n, busRead s addr w = .next (s.valueAt addr w, { s with draws := n }) := by
  obtain ⟨t, hread, ht⟩ := busRead_readable h
  rcases ht with rfl | rfl
  · exact ⟨_, hread⟩
  · exact ⟨_, hread⟩

theorem CoreFrame.draws (rs : List Reg) (bits : List Nat) (s : State) (n : Nat) :
    CoreFrame rs bits s { s with draws := n } := (refl rs bits s).congr rfl rfl rfl rfl

/-- A load that gives a value puts it, zero-extended, into its register, advances pc and changes nothing else (R109,
R111, R113); from flat memory the register holds the bytes there. -/
theorem loadReg_readable {w : Width} {r : Reg} {addr : Addr} {s : State} (h : s.readable (s.ea addr) w = true) :
    ∃ t, loadReg w r addr s = .next t ∧ t.reg r = s.valueAt (s.ea addr) w ∧
      (∀ k, 8 * w.bytes ≤ k → (t.reg r).getLsbD k = false) ∧
      (s.flatAt (s.ea addr) w = true →
        ∀ k, k < w.bytes → byteOf (t.reg r) k = s.byteAt ((s.ea addr).toNat / w.bytes * w.bytes + k)) ∧
      t.pc = s.pc + 4 ∧ onlyCore [r] [] s t := by
  obtain ⟨n, hread⟩ := busRead_eq_of_readable h
  refine ⟨_, by rw [loadReg, hread, Res.andThen_next], ?_⟩
  rw [State.reg_advance, State.reg_setReg_same]
  exact ⟨rfl, fun _ => s.getLsbD_valueAt_of_ge _, fun hflat _ => State.byteOf_valueAt_of_flatAt hflat, rfl,
    ((CoreFrame.draws _ _ s n).setReg List.mem_cons_self _).advance.onlyCore rfl rfl rfl rfl⟩

/-- Settles O21: r7 is raised after the destination was written, so POP R7 raises the loaded value. -/
theorem popLoadsAndRaisesTheStackPointer : Obligations.PopLoadsAndRaisesTheStackPointer := by
  intro r s h
  obtain ⟨n, hread⟩ := busRead_eq_of_readable h
  refine ⟨_, by rw [exec, execPop, hread, Res.andThen_next], fun hr => ⟨?_, ?_⟩, ?_, rfl, ?_⟩
  · rw [State.reg_advance, State.reg_incSp, if_neg hr, State.reg_setReg_same]
  · rw [State.reg_advance, State.reg_incSp_sp, State.reg_setReg_ne _ _ hr.symm]
    rfl
  · rintro rfl
    rw [State.reg_advance, State.reg_incSp_sp, State.reg_setReg_same]
  · have hset := (CoreFrame.draws [r, Reg.sp] [] s n).setReg List.mem_cons_self (s.valueAt (s.reg Reg.sp) .word)
    exact (hset.setReg (List.mem_cons_of_mem _ List.mem_cons_self) _).advance.onlyCore rfl rfl rfl rfl

/-- Settles O22: the three loads are one ending at three widths. -/
theorem loadsReadTheirWidth : Obligations.LoadsReadTheirWidth := by
  refine fun r addr s => ⟨fun h => ?byte, loadReg_readable, fun h => ?word⟩
  case byte =>
    obtain ⟨t, ht, hval, hhigh, hbytes, hrest⟩ := loadReg_readable (r := r) h
    refine ⟨t, ht, hval, hhigh, fun hflat => (hbytes hflat 0 Nat.one_pos).trans ?_, hrest⟩
    exact congrArg s.byteAt (Nat.div_mul_cancel (Nat.one_dvd _))
  case word =>
    obtain ⟨t, ht, hval, _, hrest⟩ := loadReg_readable (r := r) h
    exact ⟨t, ht, hval, hrest⟩

/-! ## PUSH -/

/-- A push that is done at once lowers r7, stores the word there and changes nothing else (R106). -/
theorem pushWord_writable {s : State} {v : Word} (h : s.writable (s.reg Reg.sp - 4) .word = true) :
    ∃ t, pushWord s v = .next t ∧ t.reg Reg.sp = s.reg Reg.sp - 4 ∧ stored (s.reg Reg.sp - 4) .word v s t ∧
      t.pc = s.pc ∧ sameRegsBut [Reg.sp] s t ∧ sameSrBut [] s t ∧ sameControl s t := by
  obtain ⟨t, hwrite, hstored, hregs, hpc, _, hcontrol⟩ := busWrite_writable (s := s.decSp) (v := v) h
  have hpush : pushWord s v = .next t := by rw [pushWord, State.reg_decSp_sp, hwrite]
  have hframe : CoreFrame [Reg.sp] [] s t := (CoreFrame.refl _ _ s).push List.mem_cons_self hpush
  exact ⟨t, hpush, (State.reg_congr hregs _).trans s.reg_decSp_sp, hstored, hpc, hframe.regs, hframe.sr, hcontrol⟩

/-- Settles O20: PUSH is a push of the register as read after the decrement, then the advance of pc. -/
theorem pushStoresBelowTheStackPointer : Obligations.PushStoresBelowTheStackPointer := by
  intro r s h
  obtain ⟨t, hpush, hsp, hstored, hpc, hframe⟩ := pushWord_writable (v := s.decSp.reg r) h
  refine ⟨t.advance, by rw [exec, execPush, hpush, Res.andThen_next], hsp, ?_, ?_, hframe⟩
  · rw [← State.reg_decSp]
    exact hstored
  · rw [State.advance_pc, hpc]

/-! ## Stores -/

/-- A store that reaches nothing stops with memory and the units as they were (R46). -/
theorem storeReg_unmapped {w : Width} {r : Reg} {addr : Addr} {s : State} (h : s.unmappedAt (s.ea addr) w = true) :
    ∃ left, storeReg w r addr s = .fault (.stopped (.unmappedAccess (align (s.ea addr) w) w .write s.pc) left) ∧
      sameStore s left := by
  have hstop : storeReg w r addr s = raise s (.unmappedAccess (align (s.ea addr) w) w .write s.pc) := by
    rw [storeReg, busWrite_unmapped h]
    rfl
  exact ⟨_, hstop, (sameStore.refl s).congr rfl rfl⟩

/-- Settles O23: the words by their fields, the three stores as one ending and one stop at three widths. -/
theorem storesWriteTheirWidth : Obligations.StoresWriteTheirWidth :=
  ⟨fun _ =>
    ⟨fun hop => decode_of_readsFrom hop ⟨rfl, rfl⟩,
     fun hop => decode_of_readsFrom hop ⟨rfl, rfl⟩,
     fun hop => decode_of_readsFrom hop ⟨rfl, rfl⟩⟩,
   fun _ _ _ =>
    ⟨storeReg_writable, storeReg_unmapped, storeReg_writable, storeReg_unmapped, storeReg_writable,
     storeReg_unmapped⟩⟩

end Sys2Proof.Machine

/-! What the control instructions do where their condition holds and where it does not (44_control R115 to R123). -/

namespace Sys2Proof.Machine

/-! ## A condition that is false -/

theorem whenCond_notTaken {cond : Cond} {s : State} (h : condHolds s.sr cond = false) (r : Res State) :
    whenCond cond s r = .next s.advance := if_neg (ne_true_of_eq_false h)

/-- Settles O31: each of the seven is a `whenCond`, whatever it does when taken. -/
theorem falseConditionOnlyAdvances : Obligations.FalseConditionOnlyAdvances := by
  rintro cond target off s i h (rfl | rfl | rfl | rfl | rfl | rfl | rfl) <;> exact whenCond_notTaken h _

/-! ## A condition that holds -/

section
variable {cond : Cond} {s : State} (h : condHolds s.sr cond = true)
include h

theorem exec_jp_taken (target : Src2) : exec (.jp cond target) s = writePC s (s.src2 target) := whenCond_taken h _

theorem exec_jr_taken (off : Word) : exec (.jr cond off) s = writePC s (s.pc + 4 + off) := whenCond_taken h _

theorem exec_call_taken (target : Src2) :
    exec (.call cond target) s = (pushWord s (s.pc + 4)).andThen fun s1 => writePC s1 (s.src2 target) :=
  whenCond_taken h _

theorem exec_ret_taken : exec (.ret cond) s = popPC s := whenCond_taken h _

theorem exec_reti_taken : exec (.reti cond) s = (popPC s).andThen fun s1 => .next (s1.setFlag .gie true) :=
  whenCond_taken h _

theorem exec_retn_taken : exec (.retn cond) s = (popPC s).andThen fun s1 => .next { s1 with iif := true } :=
  whenCond_taken h _

theorem exec_halt_taken : exec (.halt cond) s = .next { s.advance with run := .halted } := whenCond_taken h _

end

/-! ## A target that WritePC accepts -/

/-- Whether WritePC accepts a target is decided by the parameters alone (R116). -/
theorem State.targetOk_congr {s t : State} (h : t.cfg = s.cfg) (a : Word) : t.targetOk a = s.targetOk a := by
  rw [State.targetOk, State.targetOk, h]

/-- A pc write that goes through puts pc at the target's word and changes nothing else (R116). -/
theorem writePC_targetOk {s : State} {a : Word} (h : s.targetOk a = true) :
    ∃ t, writePC s a = .next t ∧ t.pc = wordOf a ∧ onlyCore [] [] s t :=
  ⟨_, writePC_ok h, rfl, ((CoreFrame.refl _ _ s).writePC (writePC_ok h)).onlyCore rfl rfl rfl rfl⟩

/-- What the three returns share: a pop that gives a target WritePC accepts (R120 to R122). -/
theorem popPC_readable {s : State} (hread : s.readable (s.reg Reg.sp) .word = true)
    (hok : s.targetOk (s.valueAt (s.reg Reg.sp) .word) = true) :
    ∃ t, popPC s = .next t ∧ t.pc = wordOf (s.valueAt (s.reg Reg.sp) .word) ∧
      t.reg Reg.sp = s.reg Reg.sp + 4 ∧ onlyCore [Reg.sp] [] s t := by
  obtain ⟨n, hbus⟩ := busRead_eq_of_readable hread
  have hpop : popPC s = .next
      { { s with draws := n }.incSp with pc := wordOf (s.valueAt (s.reg Reg.sp) .word) } := by
    rw [popPC, hbus, Res.andThen_next]
    exact writePC_ok hok
  exact ⟨_, hpop, rfl, { s with draws := n }.reg_incSp_sp,
    ((CoreFrame.refl _ _ s).popPC List.mem_cons_self hpop).onlyCore rfl rfl rfl rfl⟩

/-! ## The taken transfers -/

/-- Settles O27: a taken JP and a taken JR are one pc write with two targets. -/
theorem takenJumpsGoToTheirTarget : Obligations.TakenJumpsGoToTheirTarget := by
  intro cond target off s hc
  rw [exec_jp_taken hc, exec_jr_taken hc]
  exact ⟨writePC_targetOk, writePC_targetOk⟩

/-- Settles O28: the push keeps the parameters, so WritePC accepts after it what it accepted before. -/
theorem takenCallPushesTheReturnAddress : Obligations.TakenCallPushesTheReturnAddress := by
  intro cond target s hc hw hok
  obtain ⟨s1, hpush, hsp, hstored, _, hregs, hsr, hiif, hrun, hcfg, hsched⟩ := pushWord_writable (v := s.pc + 4) hw
  have hok1 : s1.targetOk (s.src2 target) = true := (State.targetOk_congr hcfg _).trans hok
  refine ⟨{ s1 with pc := wordOf (s.src2 target) }, ?_, rfl, hsp, hstored, hregs, hsr, hiif, hrun, hcfg, hsched⟩
  rw [exec_call_taken hc, hpush, Res.andThen_next, writePC_ok hok1]

/-- Settles O29: RET is the pop; RETI and RETN go on from it with one update each. -/
theorem takenReturnsPopThePc : Obligations.TakenReturnsPopThePc := by
  intro cond s hc hread hok
  obtain ⟨s1, hpop, hpc, hsp, hcore⟩ := popPC_readable hread hok
  have ⟨hregs, hsr, hstore, hcontrol⟩ := hcore
  refine ⟨⟨s1, ?ret, hpc, hsp, hcore⟩, ⟨s1.setFlag .gie true, ?reti, hpc, hsp, ?gie, hregs, ?sr, hstore, hcontrol⟩,
    ⟨{ s1 with iif := true }, ?retn, hpc, hsp, rfl, hregs, hsr, hstore, hcontrol.2⟩⟩
  case ret => rw [exec_ret_taken hc, hpop]
  case reti => rw [exec_reti_taken hc, hpop, Res.andThen_next]
  case retn => rw [exec_retn_taken hc, hpop, Res.andThen_next]
  case gie => rw [State.flag_setFlag, if_pos rfl]
  case sr =>
    have hpopped : CoreFrame [Reg.sp] [SrBit.gie.pos] s s1 := (CoreFrame.refl _ _ s).popPC List.mem_cons_self hpop
    exact (hpopped.setFlag List.mem_cons_self true).sr

/-- Settles O30: a taken HALT is the advance of pc and the run state. -/
theorem takenHaltStopsTheRun : Obligations.TakenHaltStopsTheRun := fun _ s hc =>
  have hframe : CoreFrame [] [] s s.advance := (CoreFrame.refl _ _ s).advance
  have ⟨hregs, hsr, hstore, hiif, _, hcfg, hsched⟩ := hframe.onlyCore rfl rfl rfl rfl
  ⟨{ s.advance with run := .halted }, exec_halt_taken hc, rfl, rfl, hregs, hsr, hstore, hiif, hcfg, hsched⟩

/-! ## A target that WritePC refuses -/

/-- The machine stops for `reason`. -/
def Res.StopsFor {α : Type} (r : Res α) (reason : FaultReason) : Prop := ∃ left, r = .fault (.stopped reason left)

/-- Nothing runs after a stop. -/
theorem Res.StopsFor.andThen {α β : Type} {r : Res α} {reason : FaultReason} (h : r.StopsFor reason)
    (f : α → Res β) : (r.andThen f).StopsFor reason := by
  obtain ⟨left, rfl⟩ := h
  exact ⟨left, rfl⟩

section
variable {s : State} (hc : s.cfg.target = .fault)
include hc

theorem writePC_stopsMisaligned {a : Word} (ha : a.toNat % 4 ≠ 0) :
    (writePC s a).StopsFor (.misalignedTarget a s.pc) :=
  ⟨_, writePC_misaligned hc ha⟩

/-- The push has gone through when the target is refused; it moves neither pc nor the policy. -/
theorem exec_call_stopsMisaligned {cond : Cond} {target : Src2} (hcond : condHolds s.sr cond = true)
    (hw : s.writable (s.reg Reg.sp - 4) .word = true) (ha : (s.src2 target).toNat % 4 ≠ 0) :
    Res.StopsFor (exec (.call cond target) s) (.misalignedTarget (s.src2 target) s.pc) := by
  obtain ⟨s1, hpush, _, _, hpc, _, _, _, _, hcfg, _⟩ := pushWord_writable (v := s.pc + 4) hw
  have hc1 : s1.cfg.target = .fault := (congrArg Params.target hcfg).trans hc
  rw [exec_call_taken hcond, hpush, Res.andThen_next, ← hpc]
  exact writePC_stopsMisaligned hc1 ha

theorem popPC_stopsMisaligned (hread : s.readable (s.reg Reg.sp) .word = true)
    (ha : (s.valueAt (s.reg Reg.sp) .word).toNat % 4 ≠ 0) :
    (popPC s).StopsFor (.misalignedTarget (s.valueAt (s.reg Reg.sp) .word) s.pc) := by
  obtain ⟨n, hbus⟩ := busRead_eq_of_readable hread
  rw [popPC, hbus, Res.andThen_next]
  exact writePC_stopsMisaligned (s := { s with draws := n }.incSp) hc ha

theorem exec_return_stopsMisaligned {cond : Cond} (hcond : condHolds s.sr cond = true)
    (hread : s.readable (s.reg Reg.sp) .word = true) (ha : (s.valueAt (s.reg Reg.sp) .word).toNat % 4 ≠ 0)
    {i : Instr} (hi : i = .ret cond ∨ i = .reti cond ∨ i = .retn cond) :
    Res.StopsFor (exec i s) (.misalignedTarget (s.valueAt (s.reg Reg.sp) .word) s.pc) := by
  have hpop := popPC_stopsMisaligned hc hread ha
  rcases hi with rfl | rfl | rfl
  · rw [exec_ret_taken hcond]
    exact hpop
  · rw [exec_reti_taken hcond]
    exact hpop.andThen _
  · rw [exec_retn_taken hcond]
    exact hpop.andThen _

end

/-- Settles O32: JP and JR begin with the pc write; in CALL and the returns it follows an access that goes through. -/
theorem misalignedTargetStopsTheMachine : Obligations.MisalignedTargetStopsTheMachine := by
  intro cond target off s hcond hc
  rw [exec_jp_taken hcond, exec_jr_taken hcond]
  exact ⟨writePC_stopsMisaligned hc, writePC_stopsMisaligned hc,
    fun ha hw => exec_call_stopsMisaligned hc hcond hw ha,
    fun hread ha _ => exec_return_stopsMisaligned hc hcond hread ha⟩

end Sys2Proof.Machine

/-! A word that is no instruction, and the host's clear of a request (60_exceptions R126, R130, R131). -/

namespace Sys2Proof.Machine

/-! ## The decode failure -/

theorem decoded_of_reservedWord {w : Word} (h : reservedWord w = true) (s : State) :
    decoded w s = raise s (.decodeFailure w s.pc) := by
  have herror : decode w = .error (.unknownOpcode w) := (decode_eq_error_iff w _).2 ⟨h, rfl⟩
  rw [decoded, herror]

/-- Settles O34: the fetch from flat memory leaves the state, and the decoder stops it. -/
theorem decodeFailureStopsUnchanged : Obligations.DecodeFailureStopsUnchanged := by
  intro s hrun hsched hflat hreserved
  rw [step_running hrun hsched, cycle, fetch, busRead_flat hflat, Res.andThen_next, decoded_of_reservedWord hreserved]
  rfl

/-! ## The units after a change of one of them -/

/-- The changed unit is attached in the place of the one it was. -/
theorem State.change_mem_mapUnit {s : State} {u : IoUnit} (hu : u ∈ s.units) (f : IoUnit → IoUnit) :
    f u ∈ (s.mapUnit u.id f).units :=
  List.mem_map.2 ⟨u, hu, if_pos rfl⟩

/-- Every unit of another id stays as it is. -/
theorem State.mem_mapUnit_of_id_ne {s : State} {x : IoUnit} {id : Nat} (hx : x ∈ s.units) (hid : x.id ≠ id)
    (f : IoUnit → IoUnit) : x ∈ (s.mapUnit id f).units :=
  List.mem_map.2 ⟨x, hx, if_neg hid⟩

/-- A level's line is low exactly when no unit of the level signals (R130). -/
theorem State.line_eq_false_iff (s : State) (k : IrqLevel) :
    s.line k = false ↔ ∀ u ∈ s.units, u.level = k → u.signal = false := by
  simp [State.line]

/-! ## The host's clear -/

theorem IoUnit.clearRequest_of_level3 {u : IoUnit} (h : u.level = .level3) : u.clearRequest = u := by
  rw [clearRequest, h]
  rfl

theorem IoUnit.clearRequest_of_maskable {u : IoUnit} (h : u.level ≠ .level3) :
    u.clearRequest = { u with signal := false } :=
  if_neg (by simpa using h)

theorem hostClear_line {s : State} {u : IoUnit} (hu : u ∈ s.units) (hids : (s.units.map IoUnit.id).Nodup)
    (hlevel : u.level ≠ .level3)
    (hothers : ∀ x ∈ s.units, x.id ≠ u.id → x.level = u.level → x.signal = false) :
    (hostClear u.id s).line u.level = false := by
  refine (State.line_eq_false_iff _ _).2 fun y hy hylevel => ?_
  obtain ⟨x, hx, rfl⟩ := List.mem_map.1 hy
  split at hylevel
  case isTrue hid =>
    obtain rfl : x = u := List.inj_on_of_nodup_map hids hx hu hid
    rw [if_pos rfl, IoUnit.clearRequest_of_maskable hlevel]
  case isFalse hid =>
    rw [if_neg hid]
    exact hothers x hx hid hylevel

/-- Settles O44: the clear is a change of one unit, which at level 3 is no change. -/
theorem hostClearLowersTheRequest : Obligations.HostClearLowersTheRequest := by
  refine fun s u hu hids => ⟨rfl, fun hlevel => ⟨?_, fun x hx hid => State.mem_mapUnit_of_id_ne hx hid _,
    hostClear_line hu hids hlevel⟩, fun hlevel => State.mapUnit_eq_self fun x hx hid => ?_⟩
  · rw [← IoUnit.clearRequest_of_maskable hlevel]
    exact State.change_mem_mapUnit hu IoUnit.clearRequest
  · obtain rfl : x = u := List.inj_on_of_nodup_map hids hx hu hid
    exact IoUnit.clearRequest_of_level3 hlevel

end Sys2Proof.Machine

/-! What the poll answers: nothing accepted, the two interrupt entries, an entry that stops, and an entry undone by its
return (60_exceptions R127, R132 to R138). -/

namespace Sys2Proof.Machine

/-! ## What the poll takes (R132) -/

/-- R132: with IIF = 1 a signalling level-3 unit is accepted first. -/
theorem poll_takes_nmiEntry {s : State} {u : IoUnit} (hiif : s.iif = true) (hnmi : s.nmiUnit = some u) :
    poll s = nmiEntry u.id s.recomputePending := by
  have hnmi' : s.recomputePending.nmiUnit = some u := hnmi
  simp only [poll, State.recomputePending_iif, hiif, if_true, hnmi']

theorem poll_disabled {s : State} (hiif : s.iif = false) : poll s = .next s.recomputePending := by
  simp only [poll, State.recomputePending_iif, hiif, Bool.false_eq_true, if_false]

/-- R132: with no level-3 request, GIE and an enabled level are both needed. -/
theorem poll_unacceptable {s : State} (hnmi : s.nmiUnit = none) (h : s.flag .gie = false ∨ s.acceptable = false) :
    poll s = .next s.recomputePending := by
  have hnmi' : s.recomputePending.nmiUnit = none := hnmi
  have hgie : s.recomputePending.flag .gie = s.flag .gie := s.recomputePending_sameSr SrBit.gie.pos (by decide)
  have hno : (s.flag .gie && s.acceptable) = false := Bool.and_eq_false_iff.2 h
  simp only [poll, hnmi', hgie, s.recomputePending_pendingEnabled, hno, Bool.false_eq_true, if_false, ite_self]

/-- Settles O37: what remains of the poll is its first step. -/
theorem pollWithNothingToAcceptOnlySetsPending : Obligations.PollWithNothingToAcceptOnlySetsPending := by
  intro s h
  have hpoll : poll s = .next s.recomputePending := by
    rcases h with hiif | ⟨hnmi, hno⟩
    · exact poll_disabled hiif
    · exact poll_unacceptable hnmi hno
  exact ⟨_, hpoll, s.recomputePending_pendingAre, rfl,
    ((CoreFrame.refl _ _ s).recomputePending (List.Subset.refl _)).onlyCore rfl rfl rfl rfl⟩

/-! ## The core after an entry -/

/-- INT0-2 stay the level lines along whatever leaves those bits alone. -/
theorem pendingAre.of_sameSr {bits : List Nat} {s t t' : State} (h : pendingAre s t) (hsr : sameSrBut bits t t')
    (hbits : ∀ k ∈ intBits, k ∉ bits) : pendingAre s t' := by
  obtain ⟨h0, h1, h2⟩ := h
  exact ⟨(hsr _ (hbits _ (by decide))).trans h0, (hsr _ (hbits _ (by decide))).trans h1,
    (hsr _ (hbits _ (by decide))).trans h2⟩

theorem sameSrBut.of_recomputePending {bits : List Nat} {s t : State} (h : sameSrBut bits s.recomputePending t) :
    sameSrBut (bits ++ intBits) s t := by
  intro k hk
  obtain ⟨hbits, hint⟩ := not_or.1 (List.mem_append.not.1 hk)
  exact (h k hbits).trans (s.recomputePending_sameSr k hint)

/-! ## The non-maskable entry (R134) -/

/-- The state in which the non-maskable entry pushes pc. -/
def State.acknowledged (s : State) (id : Nat) : State := { s.mapUnit id IoUnit.acknowledge with iif := false }

theorem nmiEntry_eq (id : Nat) (s : State) :
    nmiEntry id s = (pushWord (s.acknowledged id) s.pc).andThen fun s1 => writePC s1 s1.cfg.nmiVector := rfl

/-- R134: the non-maskable entry writes r7 and clears IIF. -/
theorem nmiEntry_coreFrame {id : Nat} {s t : State} (h : nmiEntry id s = .next t) :
    CoreFrame [Reg.sp] [] (s.acknowledged id) t := by
  obtain ⟨s1, hpush, hpc⟩ := Res.andThen_eq_next.1 h
  exact ((CoreFrame.refl _ _ _).push List.mem_cons_self hpush).writePC hpc

/-- Settles O38: the push goes through in the acknowledged state and keeps the parameters, so WritePC accepts
NMI_VECTOR after it as before. -/
theorem nonMaskableEntrySavesAndVectors : Obligations.NonMaskableEntrySavesAndVectors := by
  intro s u hiif hnmi hw hok
  obtain ⟨s1, hpush, hsp, hstored, _, hregs, hsr, hiif1, hrun, hcfg, hsched⟩ :=
    pushWord_writable (s := s.recomputePending.acknowledged u.id) (v := s.pc) hw
  have hvector : s1.cfg.nmiVector = s.cfg.nmiVector := congrArg Params.nmiVector hcfg
  have hok1 : s1.targetOk s.cfg.nmiVector = true := (State.targetOk_congr hcfg _).trans hok
  have hsr : sameSrBut [] s.recomputePending s1 := hsr
  refine ⟨{ s1 with pc := wordOf s.cfg.nmiVector }, ?_, hiif1, hsp, rfl, hstored,
    s.recomputePending_pendingAre.of_sameSr hsr (by decide), hsr.of_recomputePending, hregs, hrun, hcfg, hsched⟩
  rw [poll_takes_nmiEntry hiif hnmi, nmiEntry_eq, State.recomputePending_pc, hpush, Res.andThen_next, hvector,
    writePC_ok hok1]

/-! ## The maskable entry (R135) -/

theorem maskableEntry_eq (s : State) :
    maskableEntry s = (pushWord (s.setFlag .gie false) s.pc).andThen vectorPC := rfl

/-- The maskable entry whose push goes through and whose vector is `handler`, whatever the mode: GIE is cleared, the
resume pc is pushed and pc goes to `handler`. -/
theorem poll_maskable_effect {s : State} {handler : Word} (hiif : s.iif = true) (hnmi : s.nmiUnit = none)
    (hgie : s.flag .gie = true) (hacc : s.acceptable = true) (hw : s.writable (s.reg Reg.sp - 4) .word = true)
    (hvector : ∀ s1, stored (s.reg Reg.sp - 4) .word s.pc s s1 → s1.cfg = s.cfg →
      vectorPC s1 = .next { s1 with pc := wordOf handler }) :
    ∃ t, poll s = .next t ∧ t.pc = wordOf handler ∧ t.flag .gie = false ∧ t.reg Reg.sp = s.reg Reg.sp - 4 ∧
      stored (s.reg Reg.sp - 4) .word s.pc s t ∧ pendingAre s t ∧ sameSrBut (SrBit.gie.pos :: intBits) s t ∧
      sameRegsBut [Reg.sp] s t ∧ sameControl s t := by
  obtain ⟨s1, hpush, hsp, hstored, _, hregs, hsr, hcontrol⟩ :=
    pushWord_writable (s := s.recomputePending.setFlag .gie false) (v := s.pc) hw
  have ⟨_, _, hcfg, _⟩ := hcontrol
  have hentry : maskableEntry s.recomputePending = .next { s1 with pc := wordOf handler } := by
    rw [maskableEntry_eq, State.recomputePending_pc, hpush, Res.andThen_next, hvector s1 hstored hcfg]
  have hgie1 : s1.flag .gie = false :=
    (hsr SrBit.gie.pos List.not_mem_nil).trans (srGet_srSet_same s.recomputePending.sr .gie false)
  have hsr1 := (maskableEntry_coreFrame hentry).sr
  exact ⟨_, (poll_takes_maskableEntry hiif hnmi hgie hacc).trans hentry, rfl, hgie1, hsp, hstored,
    s.recomputePending_pendingAre.of_sameSr hsr1 (by decide), hsr1.of_recomputePending, hregs, hcontrol⟩

theorem vectorPC_direct {s : State} {a : Word} (hmode : s.cfg.intVector = .direct a) (hok : s.targetOk a = true) :
    vectorPC s = .next { s with pc := wordOf a } := by
  simp only [vectorPC, hmode, writePC_ok hok]

theorem vectorPC_indirect_flat {s : State} {a : Word} (hmode : s.cfg.intVector = .indirect a)
    (hflat : s.flatAt a .word = true) (hok : s.targetOk (s.flatValue a .word) = true) :
    vectorPC s = .next { s with pc := wordOf (s.flatValue a .word) } := by
  simp only [vectorPC, hmode, busRead_flat hflat, Res.andThen_next, writePC_ok hok]

/-! ## What a store into flat memory leaves to be read -/

theorem State.flatAt_congr {s t : State} (hunits : t.units = s.units) (hcfg : t.cfg = s.cfg) (addr : Word)
    (w : Width) : t.flatAt addr w = s.flatAt addr w := by
  unfold State.flatAt State.unitAt
  rw [hunits, hcfg]

theorem stored.of_flatAt {addr v : Word} {w : Width} {s t : State} (h : stored addr w v s t)
    (hflat : s.flatAt addr w = true) : storedFlat addr w v s t ∧ t.units = s.units := by
  obtain ⟨hnone, _⟩ := (s.flatAt_iff addr w).1 hflat
  obtain ⟨hstored, _⟩ := h
  exact hstored hnone

/-- The bytes after a store into flat memory are those of the memory it was written to. -/
theorem storedFlat.byteAt_eq {addr v : Word} {w : Width} {s t : State} (h : storedFlat addr w v s t) (a : Nat) :
    t.byteAt a = Memory.byte (Memory.write s.mem (align addr w).toNat w v) a := by
  obtain ⟨hbytes, hothers⟩ := h
  rw [Memory.byte_write]
  split
  case isTrue ha =>
    have hoff := hbytes (a - (align addr w).toNat) (by omega)
    rwa [Nat.add_sub_cancel' ha.1] at hoff
  case isFalse ha => exact hothers a ha

theorem storedFlat.flatValue_eq {addr v : Word} {w : Width} {s t : State} (h : storedFlat addr w v s t) (a : Word)
    (w' : Width) :
    t.flatValue a w' = leRead (Memory.byte (Memory.write s.mem (align addr w).toNat w v)) (align a w').toNat w' :=
  leRead_congr fun _ _ => h.byteAt_eq _

/-- A stored word reads back. -/
theorem storedFlat.flatValue_word {addr v : Word} {s t : State} (h : storedFlat addr .word v s t) :
    t.flatValue addr .word = v :=
  (h.flatValue_eq addr .word).trans (Memory.read_write_word s.mem _ v)

/-- Settles O39: the entry is one in both modes; the Indirect vector is read from the memory the push left. -/
theorem maskableEntrySavesAndVectors : Obligations.MaskableEntrySavesAndVectors := by
  refine fun s a hiif hnmi hgie hacc => ⟨fun hmode hw hok => ?direct, fun hmode hstack hvector => ?indirect⟩
  case direct =>
    refine poll_maskable_effect hiif hnmi hgie hacc hw fun s1 _ hcfg => vectorPC_direct ?_ ?_
    · rw [hcfg, hmode]
    · rw [State.targetOk_congr hcfg, hok]
  case indirect =>
    intro handler hok
    refine poll_maskable_effect hiif hnmi hgie hacc (State.writable_of_flatAt hstack) fun s1 hstored hcfg => ?_
    obtain ⟨hflat, hunits⟩ := hstored.of_flatAt hstack
    have hhandler : s1.flatValue a .word = handler := hflat.flatValue_eq a .word
    rw [← hhandler] at hok ⊢
    refine vectorPC_indirect_flat ?_ ?_ ?_
    · rw [hcfg, hmode]
    · rw [State.flatAt_congr hunits hcfg, hvector]
    · rw [State.targetOk_congr hcfg, hok]

/-! ## An entry that stops -/

/-- Settles O40: both entries begin with the push, which the acknowledge of a unit does not move. -/
theorem entryWithUnmappedStackStops : Obligations.EntryWithUnmappedStackStops := by
  intro s hiif hunmapped haccepted
  have hstop : (poll s).StopsUnmapped (s.reg Reg.sp - 4) .word .write s.pc := by
    cases hnmi : s.nmiUnit with
    | some u =>
      have hunmapped' : (s.recomputePending.acknowledged u.id).unmappedAt (s.reg Reg.sp - 4) .word = true :=
        (s.unmappedAt_mapUnit u.id IoUnit.place_acknowledge _ _).trans hunmapped
      rw [poll_takes_nmiEntry hiif hnmi, nmiEntry_eq]
      exact (pushWord_stopsUnmapped hunmapped').andThen _
    | none =>
      obtain ⟨hgie, hacc⟩ := haccepted.resolve_left (by simp [hnmi])
      rw [poll_takes_maskableEntry hiif hnmi hgie hacc, maskableEntry_eq]
      exact (pushWord_stopsUnmapped (s := s.recomputePending.setFlag .gie false) hunmapped).andThen _
  exact hstop

/-! ## An entry undone by its return (R136, R138) -/

/-- Where the entry's push went to flat memory, what a return finds after it: r7 at the word that holds the resume
pc, and every other register and byte as before. -/
structure StackedPc (s t : State) : Prop where
  sp : t.reg Reg.sp = s.reg Reg.sp - 4
  regs : sameRegsBut [Reg.sp] s t
  flat : t.flatAt (s.reg Reg.sp - 4) .word = true
  pushed : t.flatValue (s.reg Reg.sp - 4) .word = s.pc
  others : ∀ a, ¬ touches (s.reg Reg.sp - 4) .word a → t.byteAt a = s.byteAt a

/-- A push into flat memory stacks pc and moves no unit. -/
theorem pushWord_stackedPc {s : State} (hflat : s.flatAt (s.reg Reg.sp - 4) .word = true) :
    ∃ t, pushWord s s.pc = .next t ∧ StackedPc s t ∧ t.units = s.units := by
  obtain ⟨t, hpush, hsp, hstored, _, hregs, _, _, _, hcfg, _⟩ :=
    pushWord_writable (v := s.pc) (State.writable_of_flatAt hflat)
  obtain ⟨hstoredFlat, hunits⟩ := hstored.of_flatAt hflat
  have ⟨_, hothers⟩ := hstoredFlat
  have hflat' := (State.flatAt_congr hunits hcfg _ _).trans hflat
  exact ⟨t, hpush, ⟨hsp, hregs, hflat', hstoredFlat.flatValue_word, hothers⟩, hunits⟩

/-- What comes after the push in an entry keeps registers, memory, units and parameters, and so the stacked pc. -/
theorem StackedPc.congr {s t t' : State} (h : StackedPc s t) (hregs : sameRegsBut [] t t') (hstore : sameStore t t')
    (hcfg : t'.cfg = t.cfg) : StackedPc s t' := by
  obtain ⟨hmem, hunits⟩ := hstore
  exact
    { sp := (hregs _ List.not_mem_nil).trans h.sp
      regs := fun r hr => (hregs r List.not_mem_nil).trans (h.regs r hr)
      flat := (State.flatAt_congr hunits hcfg _ _).trans h.flat
      pushed := (leRead_congr fun _ _ => hmem _).trans h.pushed
      others := fun a ha => (hmem a).trans (h.others a ha) }

theorem wordOf_eq_self {a : Word} (h : a.toNat % 4 = 0) : wordOf a = a := by
  rw [wordOf, Nat.div_mul_cancel (Nat.dvd_of_mod_eq_zero h), BitVec.ofNat_toNat, BitVec.setWidth_eq]

/-- A return's pop brings back a stacked aligned pc and r7. -/
theorem StackedPc.popPC {s t : State} (h : StackedPc s t) (hpc : s.pcAligned = true) :
    ∃ r, popPC t = .next r ∧ r.pc = s.pc ∧ sameRegsBut [] s r ∧ sameSrBut [] t r ∧ r.run = t.run ∧ r.iif = t.iif ∧
      r.units = t.units ∧ ∀ a, ¬ touches (s.reg Reg.sp - 4) .word a → r.byteAt a = s.byteAt a := by
  have haligned := s.pcAligned_iff.1 hpc
  obtain ⟨hnone, _⟩ := (t.flatAt_iff _ _).1 h.flat
  have hvalue : t.valueAt (t.reg Reg.sp) .word = s.pc := by
    rw [h.sp, State.valueAt, hnone]
    exact h.pushed
  have hread : t.readable (t.reg Reg.sp) .word = true := by
    rw [h.sp, State.readable, h.flat, Bool.or_true]
  have hok : t.targetOk (t.valueAt (t.reg Reg.sp) .word) = true := by
    simp [State.targetOk, hvalue, haligned]
  obtain ⟨r, hpop, hrpc, hsp, hregs, hsr, ⟨hmem, hunits⟩, hiif, hrun, _⟩ := popPC_readable hread hok
  refine ⟨r, hpop, ?_, fun x _ => ?_, hsr, hrun, hiif, hunits, fun a ha => (hmem a).trans (h.others a ha)⟩
  · rw [hrpc, hvalue, wordOf_eq_self haligned]
  · by_cases hx : x = Reg.sp
    · rw [hx, hsp, h.sp, BitVec.sub_add_cancel]
    · have hne : x ∉ [Reg.sp] := by simpa using hx
      exact (hregs x hne).trans (h.regs x hne)

theorem sameStore.vectorPC {s t : State} (h : vectorPC s = .next t) : sameStore s t := by
  unfold Machine.vectorPC at h
  split at h
  · obtain ⟨p, hread, hpc⟩ := Res.andThen_eq_next.1 h
    exact (sameStore.busRead hread).trans (sameStore.writePC hpc)
  · exact sameStore.writePC h

/-- Settles O41: the vector read and the pc write leave the stacked pc, and RETI sets the GIE that the entry cleared. -/
theorem retiUndoesTheMaskableEntry : Obligations.RetiUndoesTheMaskableEntry := by
  intro s t hpc hflat hiif hnmi hgie hacc hpoll
  rw [poll_takes_maskableEntry hiif hnmi hgie hacc] at hpoll
  have hframe := maskableEntry_coreFrame hpoll
  obtain ⟨s1, hpush, hpushed, hunits1⟩ := pushWord_stackedPc (s := s.recomputePending.setFlag .gie false) hflat
  have hvector : vectorPC s1 = .next t := by
    rwa [maskableEntry_eq, State.recomputePending_pc, show pushWord _ s.pc = _ from hpush] at hpoll
  have hstore := sameStore.vectorPC hvector
  have hstacked := hpushed.congr ((CoreFrame.refl [] [] s1).vectorPC hvector).regs hstore
    ((sameConfiguration_stepInv s1).vectorPC (sameConfiguration_refl s1) hvector).1
  obtain ⟨r, hpop, hrpc, hregs, hsr, hrun, hriif, hunits, hmem⟩ := hstacked.popPC hpc
  refine ⟨r.setFlag .gie true, ?_, hrpc, hregs, fun k hk => ?_, hriif.trans hframe.iif, hrun.trans hframe.run,
    hunits.trans (hstore.2.trans hunits1), hmem⟩
  · rw [exec_reti_taken rfl, hpop, Res.andThen_next]
  · rw [State.setFlag_sr, getLsbD_srSet]
    split
    case isTrue hgiePos => rw [hgiePos]; exact hgie.symm
    case isFalse hne =>
      have hk' : k ∉ [SrBit.gie.pos] := by simpa using hne
      exact (hsr k List.not_mem_nil).trans ((hframe.sr k hk').trans (s.recomputePending_sameSr k hk))

/-- Settles O42: the pc write leaves the stacked pc, and RETN sets the IIF that the entry cleared. -/
theorem retnUndoesTheNonMaskableEntry : Obligations.RetnUndoesTheNonMaskableEntry := by
  intro s t u hpc hflat hiif hnmi hpoll
  rw [poll_takes_nmiEntry hiif hnmi] at hpoll
  have hframe := nmiEntry_coreFrame hpoll
  have hflat' : (s.recomputePending.acknowledged u.id).flatAt (s.reg Reg.sp - 4) .word = true :=
    (s.flatAt_mapUnit u.id IoUnit.place_acknowledge _ _).trans hflat
  obtain ⟨s1, hpush, hpushed, hunits1⟩ := pushWord_stackedPc hflat'
  have hwrite : writePC s1 s1.cfg.nmiVector = .next t := by
    rwa [nmiEntry_eq, State.recomputePending_pc, show pushWord _ s.pc = _ from hpush] at hpoll
  have hstore := sameStore.writePC hwrite
  have hstacked := hpushed.congr ((CoreFrame.refl [] [] s1).writePC hwrite).regs hstore
    ((sameConfiguration_stepInv s1).writePC (sameConfiguration_refl s1) hwrite).1
  obtain ⟨r, hpop, hrpc, hregs, hsr, hrun, _, hunits, hmem⟩ := hstacked.popPC hpc
  refine ⟨{ r with iif := true }, ?_, hrpc, hregs, fun k hk => ?_, hiif.symm, hrun.trans hframe.run,
    hunits.trans (hstore.2.trans hunits1), hmem⟩
  · rw [exec_retn_taken rfl, hpop, Res.andThen_next]
  · exact (hsr k List.not_mem_nil).trans ((hframe.sr k List.not_mem_nil).trans (s.recomputePending_sameSr k hk))

end Sys2Proof.Machine

/-! The timer and the parallel I/O: repeated ticks, and a STORE to one of their slots (60_exceptions R142 to R146). -/

namespace Sys2Proof.Machine

/-! ## The timer's ticks (R144, R145) -/

section
variable {t : Timer} {signal : Bool}

theorem Timer.tick_counting (hcount : t.countEnable = true) (hdown : t.countdown - 1 ≠ 0) :
    t.tick signal = ({ t with countdown := t.countdown - 1 }, signal) := by
  simp only [tick, hcount, if_true, if_neg hdown]

theorem Timer.tick_expiring (hcount : t.countEnable = true) (hdown : t.countdown - 1 = 0)
    (hlatch : t.endLatch = false) :
    t.tick signal =
      ({ t with countdown := t.reload, ready := true, endLatch := true }, signal || t.intEnable) := by
  simp only [tick, hcount, if_true, hdown, hlatch, Bool.false_eq_true, if_false]

/-- A latched timer moves its countdown at most. -/
theorem Timer.tick_latched (hlatch : t.endLatch = true) (signal : Bool) :
    ∃ c, t.tick signal = ({ t with countdown := c }, signal) := by
  unfold tick
  by_cases hcount : t.countEnable = true
  · by_cases hdown : t.countdown - 1 = 0
    · exact ⟨t.reload, by simp only [hcount, hdown, hlatch, if_true]⟩
    · exact ⟨t.countdown - 1, by simp only [hcount, hdown, if_true, if_false]⟩
  · exact ⟨t.countdown, if_neg hcount⟩

end

theorem Timer.ticks_latched {t : Timer} (hlatch : t.endLatch = true) (k : Nat) (signal : Bool) :
    ∃ c, t.ticks k signal = ({ t with countdown := c }, signal) := by
  induction k generalizing t with
  | zero => exact ⟨t.countdown, rfl⟩
  | succ k ih =>
    obtain ⟨c, htick⟩ := t.tick_latched hlatch signal
    rw [ticks, htick]
    exact ih (t := { t with countdown := c }) hlatch

/-- One less, on numbers. -/
theorem toNat_sub_one_of_pos {c : Word} (h : 0 < c.toNat) : (c - 1).toNat = c.toNat - 1 := by
  bv_omega

/-- Before the countdown runs out, ticks only lower it. -/
theorem Timer.ticks_counting {t : Timer} (hcount : t.countEnable = true) {k : Nat} (hk : k < t.countdown.toNat)
    (signal : Bool) :
    ∃ c, t.ticks k signal = ({ t with countdown := c }, signal) ∧ c.toNat = t.countdown.toNat - k := by
  induction k generalizing t with
  | zero => exact ⟨t.countdown, rfl, rfl⟩
  | succ k ih =>
    have hone : (t.countdown - 1).toNat = t.countdown.toNat - 1 := toNat_sub_one_of_pos (by omega)
    have hdown : t.countdown - 1 ≠ 0 := fun h => by rw [h] at hone; simp at hone; omega
    rw [ticks, tick_counting hcount hdown]
    obtain ⟨c, hticks, hc⟩ := ih (t := { t with countdown := t.countdown - 1 }) hcount (by simp only [hone]; omega)
    exact ⟨c, hticks, by simp only [hone] at hc; omega⟩

/-- The tick on which the countdown runs out raises ready and, with interrupts enabled, the signal. -/
theorem Timer.ticks_expiring {t : Timer} (hcount : t.countEnable = true) (hlatch : t.endLatch = false) {k : Nat}
    (hk : t.countdown.toNat = k + 1) (signal : Bool) :
    t.ticks (k + 1) signal =
      ({ t with countdown := t.reload, ready := true, endLatch := true }, signal || t.intEnable) := by
  have hone : (t.countdown - 1).toNat = k := by rw [toNat_sub_one_of_pos (by omega), hk, Nat.add_sub_cancel]
  induction k generalizing t with
  | zero => rw [ticks, tick_expiring hcount (BitVec.eq_of_toNat_eq hone) hlatch, ticks]
  | succ k ih =>
    have hdown : t.countdown - 1 ≠ 0 := fun h => by rw [h] at hone; simp at hone
    rw [ticks, tick_counting hcount hdown]
    refine ih (t := { t with countdown := t.countdown - 1 }) hcount hlatch hone ?_
    rw [toNat_sub_one_of_pos (hone ▸ Nat.succ_pos k), hone, Nat.add_sub_cancel]

/-- Settles O50: the ticks before the last, the last, and those after the latch is set. -/
theorem timerRaisesReadyOnTheNthTick : Obligations.TimerRaisesReadyOnTheNthTick := by
  refine ⟨fun n k tm signal hcount hlatch hreload hdown hpos => ?enabled, fun k tm signal hlatch => ?latched⟩
  case enabled =>
    obtain ⟨m, rfl⟩ : ∃ m, n = m + 1 := ⟨n - 1, by omega⟩
    rw [Timer.ticks_expiring hcount hlatch hdown]
    refine ⟨fun hk => ?_, rfl, rfl, rfl, hreload⟩
    obtain ⟨c, hticks, hc⟩ := Timer.ticks_counting hcount (hdown.symm ▸ hk) signal
    rw [hticks, ← hdown]
    exact ⟨rfl, rfl, hc⟩
  case latched =>
    obtain ⟨c, hticks⟩ := Timer.ticks_latched hlatch k signal
    rw [hticks]
    exact ⟨rfl, rfl, hlatch⟩

/-! ## The parallel I/O's tick (R146, notes/assumptions/11.md, 12.md) -/

/-- The tick does work. -/
def Pio.works (n : Nat) (p : Pio) : Bool :=
  !p.endLatch && (p.gated && p.matched (Config.freeWord n) || Config.freeBit n)

/-- The parallel I/O after a tick that did work. -/
def Pio.worked (n : Nat) (p : Pio) : Pio :=
  { p with
    data := Config.freeWord n
    ready := if p.gated then p.ready || (p.gated && p.matched (Config.freeWord n)) else Config.freeBit (n + 1)
    endLatch := true }

theorem Pio.tick_eq (n : Nat) (p : Pio) (signal : Bool) :
    p.tick n signal = if p.works n then (p.worked n, freeSignal n) else (p, signal) := rfl

theorem Pio.tick_of_works {n : Nat} {p : Pio} (h : p.works n = true) (signal : Bool) :
    p.tick n signal = (p.worked n, freeSignal n) := by
  rw [tick_eq, if_pos h]

theorem Pio.tick_of_not_works {n : Nat} {p : Pio} (h : p.works n = false) (signal : Bool) :
    p.tick n signal = (p, signal) := by
  rw [tick_eq, if_neg (ne_true_of_eq_false h)]

theorem Pio.works_of_endLatch {n : Nat} {p : Pio} (h : p.endLatch = true) : p.works n = false := by
  rw [works, h]
  rfl

/-- In conditional-input mode the match alone decides readiness, whether or not the tick works. -/
theorem Pio.tick_gated {n : Nat} {p : Pio} (hlatch : p.endLatch = false) (hgated : p.gated = true) (signal : Bool) :
    (p.tick n signal).1.ready = (p.ready || p.matched (Config.freeWord n)) ∧
      (p.matched (Config.freeWord n) = true →
        (p.tick n signal).1.data = Config.freeWord n ∧ (p.tick n signal).1.endLatch = true) := by
  cases hworks : p.works n with
  | true =>
    rw [tick_of_works hworks, worked, hgated]
    exact ⟨rfl, fun _ => ⟨rfl, rfl⟩⟩
  | false =>
    have hmiss : p.matched (Config.freeWord n) = false := by
      simp only [works, hlatch, hgated, Bool.not_false, Bool.true_and, Bool.or_eq_false_iff] at hworks
      exact hworks.1
    rw [tick_of_not_works hworks, hmiss]
    exact ⟨(Bool.or_false _).symm, fun h => nomatch h⟩

/-- The AND policy bit by bit. -/
theorem and_eq_right_iff_getLsbD (d m : Word) : d &&& m = m ↔ ∀ k, m.getLsbD k = true → d.getLsbD k = true := by
  constructor
  · intro h k hk
    rw [← h, BitVec.getLsbD_and, Bool.and_eq_true] at hk
    exact hk.1
  · intro h
    refine BitVec.eq_of_getLsbD_eq fun k _ => ?_
    rw [BitVec.getLsbD_and]
    cases hk : m.getLsbD k with
    | true => rw [h k hk, Bool.and_self]
    | false => rw [Bool.and_false]

/-- The OR policy bit by bit. -/
theorem and_ne_zero_iff_getLsbD (d m : Word) : d &&& m ≠ 0#32 ↔ ∃ k, m.getLsbD k = true ∧ d.getLsbD k = true := by
  constructor
  · intro h
    by_contra hnone
    refine h (BitVec.eq_of_getLsbD_eq fun k _ => ?_)
    rw [BitVec.getLsbD_and, BitVec.getLsbD_zero]
    by_contra hk
    have hboth := Bool.and_eq_true_iff.1 (Bool.eq_true_of_not_eq_false hk)
    exact hnone ⟨k, hboth.2, hboth.1⟩
  · rintro ⟨k, hm, hd⟩ h
    have hk := congrArg (·.getLsbD k) h
    simp [hm, hd] at hk

/-- Settles O52: a tick works or changes nothing, and the match is read off the masked bits. -/
theorem pioReadinessFollowsTheMask : Obligations.PioReadinessFollowsTheMask := by
  refine ⟨fun n p signal hlatch => Pio.tick_of_not_works (Pio.works_of_endLatch hlatch) signal,
    fun n p signal hne => ?latches, fun n p signal => ?modes,
    fun n p signal hlatch hinput hcond => Pio.tick_gated hlatch (by rw [Pio.gated, hinput, hcond]; rfl) signal,
    fun p d hall => ?all, fun p d hany => ?any⟩
  case latches =>
    cases hworks : p.works n with
    | true => rw [Pio.tick_of_works hworks]; rfl
    | false => exact absurd (Pio.tick_of_not_works hworks signal) hne
  case modes =>
    rw [Pio.tick_eq]
    split <;> exact ⟨rfl, rfl, rfl, rfl⟩
  case all =>
    rw [Pio.matched, hall, if_pos rfl, beq_iff_eq]
    exact and_eq_right_iff_getLsbD d p.mask
  case any =>
    rw [Pio.matched, hany, if_neg Bool.false_ne_true, bne_iff_ne]
    exact and_ne_zero_iff_getLsbD d p.mask

/-! ## A STORE to a slot (R47, R51) -/

/-- A STORE that hits a unit and starts no block is a change of that unit alone. -/
theorem execStore_unit {r : Reg} {addr : Addr} {s : State} {u : IoUnit} (hhit : s.hitsUnit (s.ea addr) .word u)
    (hblock : u.startsBlock (u.offset (s.ea addr) .word) .word = false) :
    ∃ t, exec (.store r addr) s = .next t ∧ sameMemory s t ∧
      (∀ x ∈ s.units, x.id ≠ u.id → x ∈ t.units) ∧
      u.write s.draws (u.offset (s.ea addr) .word) .word (s.reg r) ∈ t.units ∧
      t.pc = s.pc + 4 ∧ sameRegsBut [] s t ∧ sameSrBut [] s t ∧ sameControl s t := by
  obtain ⟨hu, _, _⟩ := State.hitsUnit_mem hhit
  obtain ⟨t, hstore, ⟨_, hunit⟩, hrest⟩ := storeReg_writable (r := r) (State.writable_of_hitsUnit hhit hblock)
  obtain ⟨hmem, hunits⟩ := hunit u hhit
  have hchange : t.units = (s.mapUnit u.id fun x =>
      x.write s.draws (u.offset (s.ea addr) .word) .word (s.reg r)).units := hunits
  refine ⟨t, hstore, hmem, fun x hx hid => ?_, ?_, hrest⟩
  · rw [hchange]
    exact State.mem_mapUnit_of_id_ne hx hid _
  · rw [hchange]
    exact State.change_mem_mapUnit hu _

theorem IoUnit.write_timer {u : IoUnit} {tm : Timer} (hd : u.device = .timer tm) (n off : Nat) (w : Width) (v : Word) :
    u.write n off w v =
      { u with
        device := .timer (tm.write n u.signal (off / 4) w v).1
        signal := (tm.write n u.signal (off / 4) w v).2 } := by
  simp only [write, hd]

theorem IoUnit.write_pio {u : IoUnit} {p : Pio} (hd : u.device = .pio p) (n off : Nat) (w : Width) (v : Word) :
    u.write n off w v =
      { u with
        device := .pio (p.write n u.signal (off / 4) w v).1
        signal := (p.write n u.signal (off / 4) w v).2 } := by
  simp only [write, hd]

/-- Settles O51: the unit after the STORE is what the slot's rule makes of it. -/
theorem timerSlotStores : Obligations.TimerSlotStores := by
  intro r addr s u tm hhit hd _
  have hblock : u.startsBlock (u.offset (s.ea addr) .word) .word = false := by rw [IoUnit.startsBlock, hd]
  obtain ⟨t, hstore, hmem, hothers, hunit, _⟩ := execStore_unit (r := r) hhit hblock
  rw [IoUnit.write_timer hd] at hunit
  refine ⟨t, hstore, hmem, hothers, fun hslot => ?_, fun hslot => ?_⟩
  · rw [hslot] at hunit
    exact hunit
  · rw [hslot] at hunit
    exact hunit

/-- Settles O53: the unit after the STORE is what the slot's rule makes of it. -/
theorem pioSlotStores : Obligations.PioSlotStores := by
  intro r addr s u p hhit hd _ v slot
  have hblock : u.startsBlock (u.offset (s.ea addr) .word) .word = false := by rw [IoUnit.startsBlock, hd]
  obtain ⟨t, hstore, hmem, hothers, hunit, hrest⟩ := execStore_unit (r := r) hhit hblock
  rw [IoUnit.write_pio hd, show u.offset (s.ea addr) .word / 4 = slot from rfl] at hunit
  refine ⟨t, hstore, hmem, hothers, fun hslot => ⟨_, _, hunit, ?_⟩, fun hslot => ⟨_, _, hunit, ?_⟩, fun hslot => ?_,
    hrest⟩
  · rw [hslot]
    exact ⟨rfl, rfl, rfl, rfl⟩
  · rw [hslot]
    exact ⟨rfl, rfl, rfl, rfl⟩
  · rw [hslot] at hunit
    exact hunit

end Sys2Proof.Machine

/-! A DMA transfer in flat memory: one word by a cycle-stealing tick, a block by a STORE (60_exceptions R147, R148). -/

namespace Sys2Proof.Machine

/-! ## Copying words -/

@[simp] theorem blockAddr_zero (a : Word) (inc : Bool) : blockAddr a inc 0 = a := by
  simp [blockAddr]

theorem blockAddr_one_add (a : Word) (inc : Bool) (k : Nat) :
    blockAddr (blockAddr a inc 1) inc k = blockAddr a inc (k + 1) := by
  cases inc with
  | false => rfl
  | true =>
    simp only [blockAddr, if_true, BitVec.add_assoc, ← BitVec.ofNat_add]
    congr 2
    omega

theorem toNat_blockAddr_inc {a : Word} {k : Nat} (h : a.toNat + 4 * k < 2 ^ 32) :
    (blockAddr a true k).toNat = a.toNat + 4 * k := by
  rw [blockAddr, if_pos rfl, BitVec.toNat_add, BitVec.toNat_ofNat]
  omega

/-- The last word of a block, split off. -/
theorem copyWords_succ (n : Nat) (src dst : Word) (srcInc dstInc : Bool) (f : Nat → Byte) :
    copyWords (n + 1) src dst srcInc dstInc f =
      copyWord ((blockAddr src srcInc n).toNat / 4 * 4) ((blockAddr dst dstInc n).toNat / 4 * 4)
        (copyWords n src dst srcInc dstInc f) := by
  induction n generalizing src dst f with
  | zero => rw [blockAddr_zero, blockAddr_zero]; rfl
  | succ n ih =>
    rw [copyWords, ih, blockAddr_one_add, blockAddr_one_add]
    rfl

/-- Where both addresses increment and the ranges are aligned and disjoint, the block is copied byte by byte. -/
theorem copyWords_of_disjoint {n : Nat} {src dst : Word} (hsrc : src.toNat % 4 = 0) (hdst : dst.toNat % 4 = 0)
    (hsrcEnd : src.toNat + 4 * n ≤ 2 ^ 32) (hdstEnd : dst.toNat + 4 * n ≤ 2 ^ 32)
    (hdisjoint : src.toNat + 4 * n ≤ dst.toNat ∨ dst.toNat + 4 * n ≤ src.toNat) (f : Nat → Byte) (a : Nat) :
    copyWords n src dst true true f a =
      if dst.toNat ≤ a ∧ a < dst.toNat + 4 * n then f (src.toNat + (a - dst.toNat)) else f a := by
  induction n generalizing a with
  | zero => rw [if_neg (by omega)]; rfl
  | succ n ih =>
    have hsrcWord : (blockAddr src true n).toNat / 4 * 4 = src.toNat + 4 * n := by
      rw [toNat_blockAddr_inc (by omega)]; omega
    have hdstWord : (blockAddr dst true n).toNat / 4 * 4 = dst.toNat + 4 * n := by
      rw [toNat_blockAddr_inc (by omega)]; omega
    have ih := ih (by omega) (by omega) (by omega)
    rw [copyWords_succ, hsrcWord, hdstWord, copyWord]
    by_cases hlast : dst.toNat + 4 * n ≤ a ∧ a < dst.toNat + 4 * n + 4
    · rw [if_pos hlast, ih, if_neg (by omega), if_pos (by omega)]
      congr 1
      omega
    · rw [if_neg hlast, ih]
      by_cases hbefore : dst.toNat ≤ a ∧ a < dst.toNat + 4 * n
      · rw [if_pos hbefore, if_pos (by omega)]
      · rw [if_neg hbefore, if_neg (by omega)]

/-! ## One transfer -/

/-- The state after the controller `d` of unit `id` copied one word in flat memory. -/
def State.copied (s : State) (id : Nat) (d : Dma) : State :=
  (s.putFlat d.destination .word (s.flatValue d.source .word)).mapUnit id IoUnit.advanceDma

theorem dmaTransferWith_flat {k : Nat → State → Res State} {id : Nat} {d : Dma} {s : State}
    (hsrc : s.flatAt d.source .word = true) (hdst : s.flatAt d.destination .word = true) :
    dmaTransferWith k id d s = .next (s.copied id d) := by
  rw [dmaTransferWith, busRead_flat hsrc, Res.andThen_next, busWriteWith_flat hdst, Res.andThen_next, State.copied]

theorem State.byteAt_copied (s : State) (id : Nat) (d : Dma) (a : Nat) :
    (s.copied id d).byteAt a = copyWord (d.source.toNat / 4 * 4) (d.destination.toNat / 4 * 4) s.byteAt a := by
  simp only [byteAt, copied, mapUnit_mem, putFlat, Memory.byte_write, align_toNat, Width.bytes, copyWord]
  refine if_ctx_congr Iff.rfl (fun ha => ?_) fun _ => rfl
  rw [flatValue, byteOf_leRead _ _ (by simp only [Width.bytes]; omega), align_toNat]
  rfl

theorem State.flatAt_copied (s : State) (id : Nat) (d : Dma) (addr : Word) (w : Width) :
    (s.copied id d).flatAt addr w = s.flatAt addr w :=
  State.flatAt_mapUnit _ id IoUnit.place_advanceDma addr w

theorem State.ids_mapUnit (s : State) (id : Nat) {f : IoUnit → IoUnit} (hf : ∀ u, (f u).place = u.place) :
    (s.mapUnit id f).units.map IoUnit.id = s.units.map IoUnit.id := by
  have hplaces := congrArg (List.map Prod.fst) (s.place_mapUnit id hf)
  simp only [List.map_map] at hplaces
  exact hplaces

/-! ## The unit along a block and a tick -/

theorem IoUnit.advanceDma_dma {u : IoUnit} {d : Dma} (hd : u.device = .dma d) :
    u.advanceDma = { u with device := .dma d.advance } := by
  simp only [advanceDma, hd]

theorem IoUnit.raiseReady_dma {u : IoUnit} {d : Dma} (hd : u.device = .dma d) :
    u.raiseReady = { u with device := .dma { d with ready := true }, signal := u.signal || u.hasLevel } := by
  simp only [raiseReady, hd]

/-- DMA_HALT_SIGNALS decides the end of a block (R148). -/
theorem IoUnit.finishBlock_dma {u : IoUnit} {d : Dma} (hd : u.device = .dma d) :
    u.finishBlock = { u with
      signal := u.signal || (d.haltSignals && u.hasLevel)
      device := .dma { d with ready := d.ready || d.haltSignals } } := by
  have hfinish : u.finishBlock = if d.haltSignals then u.raiseReady else u := by simp only [finishBlock, hd]
  rw [hfinish]
  obtain ⟨_, _, _, _, _, _, _, _, haltSignals⟩ := d
  cases haltSignals with
  | true => simp [raiseReady_dma hd]
  | false => simp [← hd]

/-- The counter decides the end of a cycle-stealing tick (R148). -/
theorem IoUnit.finishSteal_dma {u : IoUnit} {d : Dma} (hd : u.device = .dma d) :
    u.finishSteal = { u with
      signal := u.signal || (decide (d.counter = 0#32) && u.hasLevel)
      device := .dma { d with ready := d.ready || decide (d.counter = 0#32) } } := by
  have hfinish : u.finishSteal = if d.counter = 0#32 then u.raiseReady else u := by simp only [finishSteal, hd]
  rw [hfinish]
  by_cases hcount : d.counter = 0#32
  · simp [raiseReady_dma hd, hcount]
  · rw [if_neg hcount, decide_eq_false hcount, Bool.false_and, Bool.or_false, Bool.or_false, ← hd]

/-- A controller after the last of `n` words. -/
def Dma.afterBlock (d : Dma) (n : Nat) : Dma :=
  { d with
    counter := 0#32
    source := blockAddr d.source d.srcInc n
    destination := blockAddr d.destination d.dstInc n }

theorem Dma.afterBlock_zero {d : Dma} (h : d.counter = 0#32) : d.afterBlock 0 = d := by
  rw [afterBlock, blockAddr_zero, blockAddr_zero, ← h]

theorem Dma.advance_source (d : Dma) : d.advance.source = blockAddr d.source d.srcInc 1 := rfl

theorem Dma.advance_destination (d : Dma) : d.advance.destination = blockAddr d.destination d.dstInc 1 := rfl

theorem Dma.afterBlock_advance (d : Dma) (n : Nat) : d.advance.afterBlock n = d.afterBlock (n + 1) := by
  simp only [afterBlock, advance_source, advance_destination]
  simp only [advance, blockAddr_one_add]

/-! ## A block in flat memory -/

/-- What no bus access touches, block transfers and all. -/
def sameBesideStore (s t : State) : Prop :=
  t.pc = s.pc ∧ sameRegsBut [] s t ∧ sameSrBut [] s t ∧ sameControl s t

theorem sameBesideStore_refl (s : State) : sameBesideStore s s :=
  ⟨rfl, fun _ _ => rfl, fun _ _ => rfl, rfl, rfl, rfl, rfl⟩

theorem sameBesideStore_busInv (s : State) : BusInv (sameBesideStore s) where
  flat _ _ _ _ h _ := h
  unit _ _ _ _ _ h _ := h
  drawn _ h := h
  advance _ _ h := h
  finish _ _ h := h

/-- A block of `n` words whose sources and destinations are flat memory ends within `n + 1` rounds: memory is what `n`
copies in turn make of it, and of the units only the controller's own has changed. -/
theorem dmaBlock_flat {n : Nat} {s : State} {u : IoUnit} {d : Dma} (hu : u ∈ s.units) (hd : u.device = .dma d)
    (hids : (s.units.map IoUnit.id).Nodup) (hcount : d.counter.toNat = n)
    (hflat : ∀ k, k < n → s.flatAt (blockAddr d.source d.srcInc k) .word = true ∧
      s.flatAt (blockAddr d.destination d.dstInc k) .word = true) :
    ∃ t, dmaBlock (n + 1) u.id s = .next t ∧
      (∀ a, t.byteAt a = copyWords n d.source d.destination d.srcInc d.dstInc s.byteAt a) ∧
      IoUnit.finishBlock { u with device := .dma (d.afterBlock n) } ∈ t.units ∧
      ∀ x ∈ s.units, x.id ≠ u.id → x ∈ t.units := by
  induction n generalizing s u d with
  | zero =>
    have hzero : d.counter = 0#32 := BitVec.eq_of_toNat_eq hcount
    refine ⟨s.mapUnit u.id IoUnit.finishBlock, ?_, fun _ => rfl, ?_,
      fun x hx hid => State.mem_mapUnit_of_id_ne hx hid _⟩
    · rw [dmaBlock, State.dmaOf_mem hids hu hd]
      exact if_pos hzero
    · rw [Dma.afterBlock_zero hzero, ← hd]
      exact State.change_mem_mapUnit hu IoUnit.finishBlock
  | succ n ih =>
    have hne : d.counter ≠ 0#32 := fun h => by rw [h] at hcount; cases hcount
    obtain ⟨hsrc, hdst⟩ := hflat 0 n.succ_pos
    rw [blockAddr_zero] at hsrc hdst
    have hstep : dmaBlock (n + 2) u.id s = dmaBlock (n + 1) u.id (s.copied u.id d) := by
      rw [dmaBlock, State.dmaOf_mem hids hu hd]
      exact (if_neg hne).trans (by rw [dmaTransferWith_flat hsrc hdst, Res.andThen_next])
    have hu' : { u with device := .dma d.advance } ∈ (s.copied u.id d).units := by
      rw [← IoUnit.advanceDma_dma hd]
      exact State.change_mem_mapUnit (s := s.putFlat _ _ _) hu IoUnit.advanceDma
    have hcount' : d.advance.counter.toNat = n := by
      rw [Dma.advance, toNat_sub_one_of_pos (by omega), hcount, Nat.add_sub_cancel]
    have hids' : ((s.copied u.id d).units.map IoUnit.id).Nodup :=
      (State.ids_mapUnit (s.putFlat _ _ _) u.id IoUnit.place_advanceDma).symm ▸ hids
    have hflat' : ∀ k, k < n → (s.copied u.id d).flatAt (blockAddr d.advance.source d.srcInc k) .word = true ∧
        (s.copied u.id d).flatAt (blockAddr d.advance.destination d.dstInc k) .word = true := fun k hk => by
      rw [State.flatAt_copied, State.flatAt_copied, Dma.advance_source, Dma.advance_destination, blockAddr_one_add,
        blockAddr_one_add]
      exact hflat (k + 1) (Nat.succ_lt_succ hk)
    obtain ⟨t, hblock, hmem, hunit, hothers⟩ := ih hu' rfl hids' hcount' hflat'
    refine ⟨t, hstep.trans hblock, fun a => ?_, ?_, fun x hx hid =>
      hothers x (State.mem_mapUnit_of_id_ne (s := s.putFlat _ _ _) hx hid _) hid⟩
    · rw [hmem a, funext (s.byteAt_copied u.id d)]
      rfl
    · rw [← Dma.afterBlock_advance]
      exact hunit

/-! ## The statements -/

/-- Settles O54: the STORE runs the block, which is shorter than the model's bound. -/
theorem haltingDmaCopiesItsBlock : Obligations.HaltingDmaCopiesItsBlock := by
  intro r addr s u d n hhit hd hids hslot hmode hcount hflat
  obtain ⟨hu, _, _⟩ := State.hitsUnit_mem hhit
  have hfuel : n < Config.dmaFuel := by
    have := d.counter.isLt
    unfold Config.dmaFuel
    omega
  obtain ⟨t, hblock, hmem, hunit, hothers⟩ := dmaBlock_flat (s := s.drawn) hu hd hids hcount hflat
  have hblock := dmaBlock_mono hfuel hblock
  obtain ⟨hpc, hframe⟩ := (sameBesideStore_busInv s).block (s := s.drawn) (sameBesideStore_refl s) hblock
  rw [IoUnit.finishBlock_dma rfl] at hunit
  refine ⟨t.advance, ?_, hmem, fun hsrcInc hdstInc hsrc hdst hsrcEnd hdstEnd hdisjoint => ?_, hunit, hothers,
    by rw [State.advance_pc, hpc], hframe⟩
  · rw [exec, execStore, storeReg, busWrite_start_of_halting hu hd hids hmode hslot hhit, hblock, Res.andThen_next]
  · have hbyte : ∀ a, t.byteAt a = _ := fun a => by
      rw [hmem a, hsrcInc, hdstInc, copyWords_of_disjoint hsrc hdst hsrcEnd hdstEnd hdisjoint]
    refine ⟨fun k hk => ?_, fun a ha => (hbyte a).trans (if_neg ha)⟩
    refine (hbyte _).trans ?_
    rw [if_pos (by omega), Nat.add_sub_cancel_left]
    rfl

/-- Settles O55: the tick is one transfer in flat memory, then the end of the tick. -/
theorem cycleStealingTickCopiesOneWord : Obligations.CycleStealingTickCopiesOneWord := by
  intro s u d hu hd hids hstarted hmode hcount hsrc hdst
  have htick : tickUnit u.id s = .next ((s.copied u.id d).mapUnit u.id IoUnit.finishSteal) := by
    rw [tickUnit, State.dmaOf_mem hids hu hd]
    simp only [hstarted, hmode, Bool.not_false, Bool.and_self, if_true, if_neg hcount,
      dmaTransferWith_flat hsrc hdst, Res.andThen_next]
  have hlast : (d.counter - 1 = 0#32) = (d.counter = 1#32) := propext sub_eq_zero
  refine ⟨_, htick, ?_, ?_, fun x hx hid => ?_, sameBesideStore_refl s⟩
  · obtain ⟨t, hwrite, hstored, _⟩ :=
      busWrite_writable (v := s.flatValue d.source .word) (State.writable_of_flatAt hdst)
    rw [busWrite_flat hdst] at hwrite
    cases hwrite
    exact (hstored.of_flatAt hdst).1
  · have hunit := State.change_mem_mapUnit (s := s.copied u.id d)
      (State.change_mem_mapUnit (s := s.putFlat _ _ _) hu IoUnit.advanceDma) IoUnit.finishSteal
    rw [IoUnit.advanceDma_dma hd, IoUnit.finishSteal_dma rfl] at hunit
    simp only [Dma.advance, hlast] at hunit
    exact hunit
  · exact State.mem_mapUnit_of_id_ne (State.mem_mapUnit_of_id_ne (s := s.putFlat _ _ _) hx hid _) hid _

end Sys2Proof.Machine

/-! The instruction cycle, and a step of a stopped machine (70_reset_and_hazards R156 to R160). -/

namespace Sys2Proof.Machine

/-! ## The cycle of a word that decodes -/

theorem decoded_of_decode {w : Word} {i : Instr} (h : decode w = .ok i) (s : State) : decoded w s = .next i := by
  rw [decoded, h]

/-- R157: what a cycle does once its word is read and decoded. -/
theorem cycle_of_fetch {s s1 : State} {w : Word} {i : Instr} (hread : busRead s s.pc .word = .next (w, s1))
    (hdecode : decode w = .ok i) : cycle s = Res.andThen (exec i s1) afterExec := by
  rw [cycle, fetch, hread, Res.andThen_next, decoded_of_decode hdecode, Res.andThen_next]

theorem step_after_interval {s s0 : State} {es : List Event} {rest : List (List Event)} (hrun : s.run = .running)
    (hsched : s.schedule = es :: rest) (hevents : runEvents es { s with schedule := rest } = .next s0) :
    step s = cycle s0 := by
  have hinterval : interval s = .next s0 := by rw [interval, hsched, ← hevents]
  rw [step, hrun, hinterval]
  rfl

/-- Settles O33: the interval, then the cycle, whose execution ends in one of the three outcomes. -/
theorem stepRunsTheDecodedInstruction : Obligations.StepRunsTheDecodedInstruction := by
  refine ⟨fun _ => step_running, fun _ _ _ _ => step_after_interval, fun s s1 w i hread hdecode => ?_⟩
  rw [cycle_of_fetch hread hdecode]
  cases exec i s1 with
  | next | fault | refused => rfl

/-- Settles O35, for the two run states in which the machine is stopped. -/
theorem stoppedMachineStaysStopped : Obligations.StoppedMachineStaysStopped := fun s =>
  ⟨fun hhalted => by rw [step, hhalted], fun reason hfaulted => by rw [step, hfaulted]⟩

/-! ## A placed word -/

/-- The table's reading of a word is the decoder's: its four bytes make up the word again (R40). -/
theorem decode_of_decodeTableWord {nbits w : Nat} {i : Instr} (h : decodeTableWord nbits w = some i) :
    decode (BitVec.ofNat 32 (w % 2 ^ nbits)) = .ok i := by
  rw [decodeTableWord, bytesOf, decodeBytes, leWord_byteOf] at h
  cases hd : decode (BitVec.ofNat 32 (w % 2 ^ nbits)) with
  | ok j =>
    rw [hd] at h
    injection h with h
    rw [h]
  | error e =>
    rw [hd] at h
    exact nomatch h

/-- A placed word is what flat memory holds at pc. -/
theorem State.flatValue_withFetchWord (s : State) (nbits w : Nat) :
    (s.withFetchWord nbits w).flatValue s.pc .word = BitVec.ofNat 32 (w % 2 ^ nbits) :=
  Memory.read_write_word s.mem _ _

/-- Settles O36: at reset no unit is attached and pc is in flat memory, so the fetch reads the placed word. -/
theorem placedWordRunsFirstAfterReset : Obligations.PlacedWordRunsFirstAfterReset := by
  intro w i h
  have hflat : (State.reset.withFetchWord 32 w).flatAt State.reset.pc .word = true :=
    (State.flatAt_congr rfl rfl _ _).trans (by decide : State.reset.flatAt State.reset.pc .word = true)
  have hread := busRead_flat hflat
  rw [State.flatValue_withFetchWord] at hread
  rw [step_running rfl rfl, cycle_of_fetch hread (decode_of_decodeTableWord h)]

end Sys2Proof.Machine

/-! What the host does between two steps: reset, image load, raw access, detach and a forced request
(70_reset_and_hazards R154, R156, R161 to R163). -/

namespace Sys2Proof.Machine

/-! ## Reset -/

theorem place_resetUnits (n : Nat) (us : List IoUnit) :
    (resetUnits n us).map IoUnit.place = us.map IoUnit.place := by
  induction us generalizing n with
  | nil => rfl
  | cons u us ih => rw [resetUnits, List.map_cons, List.map_cons, u.place_afterReset, ih]

theorem State.reg_hostReset (s : State) (r : Reg) : (hostReset s).reg r = 0#32 :=
  Vector.getElem_replicate r.isLt

/-- Settles O56: a unit's own reset keeps its place; the core's values are those of R35. -/
theorem hostResetKeepsMemoryAndUnits : Obligations.HostResetKeepsMemoryAndUnits := fun s =>
  ⟨s.reg_hostReset, rfl, rfl, rfl, rfl, fun _ => rfl, rfl, place_resetUnits s.draws s.units⟩

/-! ## The image load -/

/-- A load leaves the bytes before and after its own. -/
theorem Memory.byte_putAll_outside {a x : Nat} {bs : List Byte} (hx : x < a ∨ a + bs.length ≤ x) (m : Memory) :
    Memory.byte (Memory.putAll m a bs) x = Memory.byte m x := by
  induction bs generalizing m a with
  | nil => rfl
  | cons b bs ih =>
    rw [List.length_cons] at hx
    rw [putAll, ih (by omega), byte_put, if_neg (by omega)]

/-- Byte `k` of a load stands at `a + k`. -/
theorem Memory.byte_putAll_inside {k : Nat} {bs : List Byte} (hk : k < bs.length) (m : Memory) (a : Nat) :
    Memory.byte (Memory.putAll m a bs) (a + k) = bs[k] := by
  induction bs generalizing m a k with
  | nil => exact absurd hk k.not_lt_zero
  | cons b bs ih =>
    cases k with
    | zero => rw [Nat.add_zero, putAll, byte_putAll_outside (by omega), byte_put, if_pos rfl, List.getElem_cons_zero]
    | succ k =>
      have hnext : a + (k + 1) = a + 1 + k := by omega
      rw [putAll, hnext, ih (Nat.lt_of_succ_lt_succ hk), List.getElem_cons_succ]

theorem hostLoad_bytes_fits {bs : List Byte} {s : State} (h : bs.length ≤ s.cfg.memSize) :
    hostLoad (.bytes bs) s = .ok { s with mem := Memory.putAll s.mem 0 bs } := if_pos h

theorem hostLoad_bytes_tooLong {bs : List Byte} {s : State} (h : s.cfg.memSize < bs.length) :
    hostLoad (.bytes bs) s = .error .capacity := if_neg (Nat.not_le_of_lt h)

/-- Settles O59, from the bytes that are loaded at address 0 on. -/
theorem imageLoadCopiesTheBytes : Obligations.ImageLoadCopiesTheBytes := by
  refine fun bs s => ⟨hostLoad_bytes_tooLong, fun hfits =>
    ⟨_, hostLoad_bytes_fits hfits, fun k hk => ?_, fun a ha => ?_, rfl⟩⟩
  · have hbyte := Memory.byte_putAll_inside hk s.mem 0
    rwa [Nat.zero_add] at hbyte
  · exact Memory.byte_putAll_outside (.inr (by omega)) s.mem

/-! ## Raw access -/

/-- The field a slot presents at its first byte is the low bytes of its value. -/
theorem slotField_zero (v : Word) (w : Width) : slotField v 0 w = lowBytes w v := by
  cases w with
  | byte =>
    have hlt : v.toNat % 256 < 4294967296 := by omega
    refine BitVec.eq_of_toNat_eq ?_
    simp [slotField, lowBytes, Nat.and_two_pow_sub_one_eq_mod v.toNat 8, hlt]
  | half =>
    have hlt : v.toNat % 65536 < 4294967296 := by omega
    refine BitVec.eq_of_toNat_eq ?_
    simp [slotField, lowBytes, Nat.and_two_pow_sub_one_eq_mod v.toNat 16, hlt]
  | word => exact BitVec.ushiftRight_zero v

/-- R40: a value read where it was written, in the same width, is its low bytes. -/
theorem Memory.read_write (m : Memory) (a : Nat) (w : Width) (v : Word) :
    leRead (Memory.byte (Memory.write m a w v)) a w = lowBytes w v := by
  have hbyte : ∀ w' k, k < w'.bytes → Memory.byte (Memory.write m a w' v) (a + k) = byteOf v k := fun w' k hk => by
    rw [Memory.byte_write, if_pos (by omega), Nat.add_sub_cancel_left]
  have hfour : w.bytes ≤ 4 := by cases w <;> decide
  calc leRead (Memory.byte (Memory.write m a w v)) a w
      = leRead (Memory.byte (Memory.write m a .word v)) a w :=
        leRead_congr fun k hk => (hbyte w k hk).trans (hbyte .word k (Nat.lt_of_lt_of_le hk hfour)).symm
    _ = slotField v 0 w := leRead_part_of_word (k := 0) (hbyte .word) (by omega)
    _ = lowBytes w v := slotField_zero v w

theorem State.putFlat_storedFlat (s : State) (addr : Word) (w : Width) (v : Word) :
    storedFlat addr w v s (s.putFlat addr w v) := by
  refine ⟨fun k hk => ?_, fun a ha => ?_⟩
  · rw [byteAt, putFlat, Memory.byte_write, if_pos (by omega), Nat.add_sub_cancel_left]
  · rw [byteAt, putFlat, Memory.byte_write]
    exact if_neg ha

section
variable {s : State} {a : Word}

theorem hostRead_inside (h : a.toNat < s.cfg.memSize) (w : Width) : hostRead s a w = .ok (s.flatValue a w) := if_pos h

theorem hostWrite_inside (h : a.toNat < s.cfg.memSize) (w : Width) (v : Word) :
    hostWrite s a w v = .ok (s.putFlat a w v) := if_pos h

theorem hostRead_outside (h : s.cfg.memSize ≤ a.toNat) (w : Width) : hostRead s a w = .error .range :=
  if_neg (Nat.not_lt_of_le h)

theorem hostWrite_outside (h : s.cfg.memSize ≤ a.toNat) (w : Width) (v : Word) : hostWrite s a w v = .error .range :=
  if_neg (Nat.not_lt_of_le h)

end

/-- Settles O60: a raw write is a write to flat memory, whatever unit stands at the address. -/
theorem rawAccessReadsBackWhatItWrote : Obligations.RawAccessReadsBackWhatItWrote := by
  refine fun s a w v => ⟨fun hin => ⟨s.putFlat a w v, hostWrite_inside hin w v, ?_, s.putFlat_storedFlat a w v, rfl⟩,
    fun hout => ⟨hostWrite_outside hout w v, hostRead_outside hout w⟩⟩
  have hback : (s.putFlat a w v).flatValue a w = lowBytes w v := Memory.read_write s.mem _ w v
  rw [hostRead_inside (s := s.putFlat a w v) hin, hback]

/-! ## Detach -/

theorem mem_units_hostDetach {s : State} {id : Nat} {x : IoUnit} :
    x ∈ (hostDetach id s).units ↔ x ∈ s.units ∧ x.id ≠ id := by
  rw [hostDetach, List.mem_filter, bne_iff_ne]

theorem State.hitsUnit.covers {s : State} {addr : Word} {w : Width} {u : IoUnit} (h : s.hitsUnit addr w u) :
    u.covers (align addr w) = true := by
  have hcovers := List.find?_some h
  exact hcovers

/-- R39 (a): in a legal configuration an address is in the range of at most one unit. -/
theorem unitsOk_covers_unique {us : List IoUnit} (h : unitsOk us = true) {u v : IoUnit} (hu : u ∈ us) (hv : v ∈ us)
    {a : Word} (hua : u.covers a = true) (hva : v.covers a = true) : u = v := by
  by_contra hne
  have : Std.Symm fun x y : IoUnit => x.disjoint y = true :=
    ⟨fun x y hxy => by rwa [IoUnit.disjoint, Bool.or_comm]⟩
  have hdisjoint := (unitsOk_disjoint h).forall hu hv hne
  simp only [IoUnit.disjoint, IoUnit.covers, Bool.or_eq_true, Bool.and_eq_true, decide_eq_true_eq]
    at hdisjoint hua hva
  omega

/-- Settles O58: the detached unit was the only one whose range held the address. -/
theorem detachGivesTheRangeBack : Obligations.DetachGivesTheRangeBack := by
  refine fun s u addr w hok hhit =>
    ⟨?_, fun x hx hid => mem_units_hostDetach.2 ⟨hx, hid⟩, fun x => mem_units_hostDetach.1⟩
  obtain ⟨hu, _, _⟩ := State.hitsUnit_mem hhit
  refine (State.unitAt_eq_none_iff _ _).2 fun x hx => Bool.eq_false_iff.2 fun hcovers => ?_
  obtain ⟨hx, hid⟩ := mem_units_hostDetach.1 hx
  exact hid (congrArg IoUnit.id (unitsOk_covers_unique hok hx hu hcovers hhit.covers))

/-! ## A forced request -/

/-- A level's line is high exactly when a unit of the level signals (R130). -/
theorem State.line_eq_true_iff (s : State) (k : IrqLevel) :
    s.line k = true ↔ ∃ u ∈ s.units, u.level = k ∧ u.signal = true := by
  simp [State.line]

/-- A non-maskable request stands exactly when the line of level 3 is high (R132, step 3). -/
theorem State.nmiUnit_isSome (s : State) : s.nmiUnit.isSome = s.line .level3 := List.isSome_find?

theorem hostForce_line {s : State} {u : IoUnit} (hu : u ∈ s.units) : (hostForce u.id s).line u.level = true :=
  (State.line_eq_true_iff _ _).2 ⟨u.request, State.change_mem_mapUnit hu IoUnit.request, rfl, rfl⟩

/-- Settles O43: the forced unit raises its line, which at level 3 is the non-maskable request. -/
theorem forcedSignalIsSeenByThePoll : Obligations.ForcedSignalIsSeenByThePoll := by
  refine fun s u hu => ⟨hostForce_line hu, fun hlevel => ?_⟩
  rw [State.nmiUnit_isSome, ← hlevel]
  exact hostForce_line hu

end Sys2Proof.Machine
